-- ==== Sys2Proof/Word.lean ====
section
/-! DEFINITION. The words of LZD: a byte of a memory (00_scope.md R8) and a word of the host port (10_state.md R43).
Everything a test could show wrong about bits (field order, assembling, reversal) is not here but in Decode.lean and in
the files of Machine/. -/

namespace Sys2Proof

/-- A byte is 8 bits (R8). -/
abbrev Byte := BitVec 8

/-- A register of the host port is 32 bits wide (R43). -/
abbrev Word := BitVec 32

/-- The 16-bit fields of a segment header (R115). -/
abbrev Half := BitVec 16

end Sys2Proof
end

