-- ==== Sys2Proof/Config.lean ====
section
/-! DEFINITION. What an implementation fixes (00_scope.md R6), the constants of the format (R7), and the one free value. -/

namespace Sys2Proof

/-- The implementation parameters of R6. `MAXSEG` is not among them: the descriptor table is a list (U8, D32).
The state carries one of these, and no step changes it, so a statement about every state covers every setting
(DESIGN CHOICE, log 5). -/
structure Config where
  /-- `AW`, the width in bits of an archive address and of `ARCHLEN` (R6). -/
  aw : Nat
  /-- `OMAX`, the largest output length the OAU accepts (R6). -/
  omax : Nat
  /-- `MEMOIZE`, whether GETSEG keeps the decoded payload (R6, U1). -/
  memoize : Bool
deriving DecidableEq, Repr

/-- The defaults of R6: `AW` 32, `OMAX` 65535, `MEMOIZE` true. -/
def Config.default : Config := { aw := 32, omax := 65535, memoize := true }

/-- The settings R6 allows: `OMAX` is 65535 or more ("OPEN upward"), so a header can never declare too much. -/
def Config.ok (c : Config) : Bool := decide (65535 ≤ c.omax)

/-- `HDR_LEN`, the header length in bytes (R7). -/
def Config.hdrLen : Nat := 10

/-- `MIN_TOTAL`, the smallest legal `totalSegmentSize` (R7). -/
def Config.minTotal : Nat := 10

/-- `MAX_TOTAL`, the largest legal `totalSegmentSize` (R7). A 16-bit field never exceeds it (C2). -/
def Config.maxTotal : Nat := 0xFFFFFF

/-- FREE VALUE (log 8). What a 32-bit read of the port gives for a register that holds a value of 2^32 or more (`SCANPOS`
and `DESC_OFFSET` have AW+1 bits, R33, R36; R43 says only what a narrower field reads as). Safe: nothing constrains it. -/
opaque Config.freeWideRead : Nat → Word

end Sys2Proof
end

