-- ==== Sys2Proof/Syntax.lean ====
section
/-! DEFINITION. The instructions: one constructor of `Instr` per row of spec/opcode_table.json, six tokens and fifteen
host command rows (30_encoding.md R100, R121). A token carries its header fields as encoded (R110); the literal bytes of
SRAW and LRAW are not part of the header (R121) and are read when the token runs. A command takes its operands from
`ARG0..ARG4` (R117), so its constructor has none. -/

namespace Sys2Proof

/-- The tokens of the compressed stream, the instructions the TDU reads (R102). The fields are the encoded ones, biased as
R110 says. -/
inductive Token where
  /-- `00 lll`, short raw (R104): `len = l + 1`. -/
  | sraw (l : BitVec 3)
  /-- `01 oooooooo`, short back-ref (R105): length 2, `offset = o + 1`. -/
  | sref (o : BitVec 8)
  /-- `100 ooooooooo`, back-ref A (R106): length 3. -/
  | refa (o : BitVec 9)
  /-- `101 oooooooooo`, back-ref B (R107): length 4. -/
  | refb (o : BitVec 10)
  /-- `110 llllllll oooooooooooo`, back-ref C (R108): `len = l + 1`, the length field first. -/
  | refc (l : BitVec 8) (o : BitVec 12)
  /-- `111 llllllll`, long raw (R109): `len = l + 9`. -/
  | lraw (l : BitVec 8)
deriving DecidableEq, Repr

/-- Every row of spec/opcode_table.json. -/
inductive Instr where
  /-- SRAW, R172. -/
  | sraw (l : BitVec 3)
  /-- SREF, R173. -/
  | sref (o : BitVec 8)
  /-- REFA, R174. -/
  | refa (o : BitVec 9)
  /-- REFB, R175. -/
  | refb (o : BitVec 10)
  /-- REFC, R176. -/
  | refc (l : BitVec 8) (o : BitVec 12)
  /-- LRAW, R177. -/
  | lraw (l : BitVec 8)
  /-- SRESET (0x00), R244. -/
  | sreset
  /-- SCAN (0x01), R231. -/
  | scan
  /-- COUNT (0x02), R232. -/
  | count
  /-- GETSEG (0x03), R233. -/
  | getseg
  /-- GETDESC (0x04), R234. -/
  | getdesc
  /-- SEGDEC (0x05), R235. -/
  | segdec
  /-- BC_INIT (0x10), R236. -/
  | bcInit
  /-- BC_READ (0x11), R237. -/
  | bcRead
  /-- BC_EOF (0x12), R238. -/
  | bcEof
  /-- OA_INIT (0x20), R239. -/
  | oaInit
  /-- OA_RAW (0x21), R240. -/
  | oaRaw
  /-- OA_REF (0x22), R241. -/
  | oaRef
  /-- OA_EOF (0x23), R242. -/
  | oaEof
  /-- CLRDIAG (0x30), R243. -/
  | clrdiag
  /-- Any other command code (R245), carried so that no code is lost. -/
  | unassigned (code : Byte)
deriving DecidableEq, Repr

/-- A token as an instruction. -/
def Token.toInstr : Token → Instr
  | .sraw l => .sraw l
  | .sref o => .sref o
  | .refa o => .refa o
  | .refb o => .refb o
  | .refc l o => .refc l o
  | .lraw l => .lraw l

end Sys2Proof
end

