-- ==== Sys2Proof/WellFormed.lean ====
section
/-! DEFINITION. Which terms of `Instr` are instructions. Every field value of every token is legal (30_encoding.md R112),
and a command row has no field, so the one check is that an unassigned code is not an assigned one (R117, R245). -/

namespace Sys2Proof

/-- The fourteen command codes of R117, in its order. -/
def assignedCodes : List Byte :=
  [0x00, 0x01, 0x02, 0x03, 0x04, 0x05, 0x10, 0x11, 0x12, 0x20, 0x21, 0x22, 0x23, 0x30]

/-- The well-formed instructions. -/
def Instr.wellFormed : Instr → Bool
  | .sraw _ => true
  | .sref _ => true
  | .refa _ => true
  | .refb _ => true
  | .refc _ _ => true
  | .lraw _ => true
  | .sreset => true
  | .scan => true
  | .count => true
  | .getseg => true
  | .getdesc => true
  | .segdec => true
  | .bcInit => true
  | .bcRead => true
  | .bcEof => true
  | .oaInit => true
  | .oaRaw => true
  | .oaRef => true
  | .oaEof => true
  | .clrdiag => true
  | .unassigned code => !assignedCodes.contains code

end Sys2Proof
end

