-- ==== Sys2Proof/Decode.lean ====
section
/-! DEFINITION. Decoding and encoding (30_encoding.md). Bits of a stream are a `List Bool` in CONSUMPTION order (R8): the
head is the first bit the BCU delivers, and the first bit of a field is its most significant. One selector tree
(`decodeTokenWith`, R103) serves both the decoder of a bit list below and the fetch from the bit cursor
(Machine/Fetch.lean); they differ only in the reader they pass. -/

namespace Sys2Proof

/-! ## Bits and numbers -/

/-- The number that bits in consumption order spell, first bit most significant (R8), continuing from `acc`. -/
def bitsToNatFrom (acc : Nat) : List Bool → Nat
  | [] => acc
  | b :: bs => bitsToNatFrom (2 * acc + b.toNat) bs

/-- The number that bits in consumption order spell, first bit most significant (R8). -/
def bitsToNat (bs : List Bool) : Nat := bitsToNatFrom 0 bs

/-- The low `w` bits of `v`, most significant first: the bits one read of `w` bits consumes to give `v` (R8). -/
def natToBits : Nat → Nat → List Bool
  | 0, _ => []
  | w + 1, v => v.testBit w :: natToBits w v

/-! ## The token decoder -/

/-- R103, R104 to R109: the selector tree and the header fields of the token it selects, in the order of their reads
(R325). `rd n` is one read of `n` bits from whatever delivers the stream. -/
def decodeTokenWith {σ : Type} (rd : Nat → σ → Nat × σ) (s : σ) : Token × σ :=
  match rd 1 s with
  | (0, s) =>
    match rd 1 s with
    | (0, s) =>
      match rd 3 s with
      | (l, s) => (.sraw (BitVec.ofNat 3 l), s)
    | (_, s) =>
      match rd 8 s with
      | (o, s) => (.sref (BitVec.ofNat 8 o), s)
  | (_, s) =>
    match rd 2 s with
    | (0, s) =>
      match rd 9 s with
      | (o, s) => (.refa (BitVec.ofNat 9 o), s)
    | (1, s) =>
      match rd 10 s with
      | (o, s) => (.refb (BitVec.ofNat 10 o), s)
    | (2, s) =>
      match rd 8 s with
      | (l, s) =>
        match rd 12 s with
        | (o, s) => (.refc (BitVec.ofNat 8 l) (BitVec.ofNat 12 o), s)
    | (_, s) =>
      match rd 8 s with
      | (l, s) => (.lraw (BitVec.ofNat 8 l), s)

/-- A read of `n` bits from a bit list. `none` is a list that has run out; a read that runs out gives 0. -/
def readBits (n : Nat) : Option (List Bool) → Nat × Option (List Bool)
  | none => (0, none)
  | some bs => if n ≤ bs.length then (bitsToNat (bs.take n), some (bs.drop n)) else (0, none)

/-- Why the decoder answers with no instruction. The token code is a complete prefix code (R112), so bits are rejected
only when they end inside a header. -/
inductive DecodeError where
  /-- The bit list ends before the token's header does. -/
  | truncated
deriving DecidableEq, Repr

/-- The first token of a bit list, and the bits after its header. -/
def decodeToken (bs : List Bool) : Except DecodeError (Token × List Bool) :=
  match decodeTokenWith readBits (some bs) with
  | (t, some rest) => .ok (t, rest)
  | (_, none) => .error .truncated

/-! ## The command decoder -/

/-- R117, R245: the command that a code written to `CMD[7:0]` stands for. Every code decodes. -/
def decodeCommand (code : Byte) : Instr :=
  match code.toNat with
  | 0x00 => .sreset
  | 0x01 => .scan
  | 0x02 => .count
  | 0x03 => .getseg
  | 0x04 => .getdesc
  | 0x05 => .segdec
  | 0x10 => .bcInit
  | 0x11 => .bcRead
  | 0x12 => .bcEof
  | 0x20 => .oaInit
  | 0x21 => .oaRaw
  | 0x22 => .oaRef
  | 0x23 => .oaEof
  | 0x30 => .clrdiag
  | _ => .unassigned code

/-! ## The decoder of both spaces -/

/-- An encoded instruction: which of the two spaces of R100 it lies in cannot be told from its bits alone. -/
inductive Encoded where
  /-- Bits of a payload stream, in consumption order. -/
  | stream (bits : List Bool)
  /-- A code written to `CMD[7:0]`. -/
  | command (code : Byte)
deriving DecidableEq, Repr

/-- Total on everything encoded: the instruction and the stream bits after it. -/
def decode : Encoded → Except DecodeError (Instr × List Bool)
  | .stream bs =>
    match decodeToken bs with
    | .ok (t, rest) => .ok (t.toInstr, rest)
    | .error e => .error e
  | .command code => .ok (decodeCommand code, [])

/-! ## The encoder -/

/-- The header bits of a token in consumption order (R104 to R109, R263). -/
def encodeToken : Token → List Bool
  | .sraw l => [false, false] ++ natToBits 3 l.toNat
  | .sref o => [false, true] ++ natToBits 8 o.toNat
  | .refa o => [true, false, false] ++ natToBits 9 o.toNat
  | .refb o => [true, false, true] ++ natToBits 10 o.toNat
  | .refc l o => [true, true, false] ++ natToBits 8 l.toNat ++ natToBits 12 o.toNat
  | .lraw l => [true, true, true] ++ natToBits 8 l.toNat

/-- The encoding of an instruction: header bits for a token, the code of R117 for a command. -/
def encode : Instr → Encoded
  | .sraw l => .stream (encodeToken (.sraw l))
  | .sref o => .stream (encodeToken (.sref o))
  | .refa o => .stream (encodeToken (.refa o))
  | .refb o => .stream (encodeToken (.refb o))
  | .refc l o => .stream (encodeToken (.refc l o))
  | .lraw l => .stream (encodeToken (.lraw l))
  | .sreset => .command 0x00
  | .scan => .command 0x01
  | .count => .command 0x02
  | .getseg => .command 0x03
  | .getdesc => .command 0x04
  | .segdec => .command 0x05
  | .bcInit => .command 0x10
  | .bcRead => .command 0x11
  | .bcEof => .command 0x12
  | .oaInit => .command 0x20
  | .oaRaw => .command 0x21
  | .oaRef => .command 0x22
  | .oaEof => .command 0x23
  | .clrdiag => .command 0x30
  | .unassigned code => .command code

/-! ## The words of spec/opcode_table.json -/

/-- A token row of the table: `match` and `mask` over the number that one read of `headerBits` bits would give (R121). -/
structure TableRow where
  headerBits : Nat
  value : Nat
  mask : Nat
deriving DecidableEq, Repr

/-- The six token rows, in the table's order. -/
def tokenRows : List TableRow :=
  [ { headerBits := 5, value := 0x0, mask := 0x18 },
    { headerBits := 10, value := 0x100, mask := 0x300 },
    { headerBits := 12, value := 0x800, mask := 0xE00 },
    { headerBits := 13, value := 0x1400, mask := 0x1C00 },
    { headerBits := 23, value := 0x600000, mask := 0x700000 },
    { headerBits := 11, value := 0x700, mask := 0x700 } ]

/-- A number of `nbits` bits is this row's header: the row's width is `nbits`, exactly or in whole bytes, and the number
agrees with the row's fixed bits. -/
def TableRow.fits (r : TableRow) (nbits w : Nat) : Bool :=
  (nbits == r.headerBits || nbits == 8 * ((r.headerBits + 7) / 8))
    && decide (w < 2 ^ r.headerBits) && (w &&& r.mask) == r.value

/-- The encoded instruction that a table word stands for. The table's two spaces share the 8-bit words 0 to 7, SRAW's
header and a command code: there an assigned command code is read as the command, any other as SRAW (DESIGN CHOICE,
log 12). -/
def tableWord (nbits w : Nat) : Option Encoded :=
  if nbits = 8 && assignedCodes.contains (BitVec.ofNat 8 w) && decide (w < 256) then
    some (.command (BitVec.ofNat 8 w))
  else
    match tokenRows.find? (fun r => r.fits nbits w) with
    | some r => some (.stream (natToBits r.headerBits w))
    | none => if nbits = 8 && decide (w < 256) then some (.command (BitVec.ofNat 8 w)) else none

/-- The instruction the decoder reads from a table word; the stream bits after the header are zeros (log 12). -/
def decodeTableWord (nbits w : Nat) : Option Instr :=
  match tableWord nbits w with
  | none => none
  | some e =>
    match decode e with
    | .ok (i, _) => some i
    | .error _ => none

end Sys2Proof
end

