-- ==== Sys2Proof/Machine/State.lean ====
section
/-! DEFINITION. The state of LZD as plain data (10_state.md R20), its reset value (R46), and the reasons a step can stop.
Quantities that the spec computes over unbounded integers (R11) are `Nat`, and `BC_POS` is an `Int` (R8); Safety.lean
states the widths as an invariant (log 6). What the spec treats as bits is a bit vector. -/

namespace Sys2Proof.Machine

/-! ## Memories -/

/-- A byte memory: (address, byte) pairs, addresses strictly rising, no entry equal to `Memory.unlisted`. -/
abbrev Memory := List Host.Cell

/-- What an address that is not listed reads as. In OMEM below OA_LEN it is the zero fill of OA.INIT (R150, D14). OMEM at
and above OA_LEN holds any value (R46, 93 section D): DESIGN CHOICE, unsafe (log 24). In AMEM an unlisted byte is one the
host has not loaded, which R46 leaves unspecified: DESIGN CHOICE, unsafe (log 3). -/
def Memory.unlisted : Byte := 0

/-- The canonical form from address `lo` upward: rising addresses, no entry equal to an unlisted one. -/
def Memory.wfFrom : Nat → Memory → Bool
  | _, [] => true
  | lo, (a, b) :: m => decide (lo ≤ a) && b != Memory.unlisted && Memory.wfFrom (a + 1) m

/-- The canonical form of a memory. Equal memories are equal data. -/
def Memory.wf (m : Memory) : Bool := Memory.wfFrom 0 m

/-! ## The units' registers -/

/-- The bit cursor unit (R21 to R26). -/
structure Bcu where
  /-- `BC_BASE`: the archive address of logical index 0 of the range (R21, log 7). -/
  base : Nat
  /-- `BC_LEN`: the number of bytes in the range (R22, log 20). -/
  len : Nat
  /-- `BC_POS`: the index of the byte most recently pulled, -1 when exhausted (R23). -/
  pos : Int
  /-- `BC_BUF`: the bits of that byte not yet consumed, the next one at bit 0 (R24). -/
  buf : Byte
  /-- `BC_REM`: how many bits of `BC_BUF` are valid, 0 to 8 (R25). -/
  rem : Nat
  /-- `BC_SUM`: the XOR of every byte pulled since BC.INIT (R26). -/
  sum : Byte
deriving DecidableEq, Repr

/-- The output assembler unit (R28 to R30). -/
structure Oau where
  /-- `OA_LEN`: the size of the output buffer (R28). -/
  len : Nat
  /-- `OA_WPOS`: the index of the lowest byte already written (R29). -/
  wpos : Nat
  /-- `OMEM`: the output buffer (R30). What it holds at and above `OA_LEN` is the model's choice (log 24). -/
  omem : Memory
deriving DecidableEq, Repr

/-- A segment descriptor, one entry of `DTAB` (R36). -/
structure Descriptor where
  index : Nat
  /-- Header address + 10. -/
  offset : Nat
  compressedSize : Half
  decompressedSize : Half
  checksum : Byte
  initialBufferLen : Byte
  unknown1 : Half
  unknown0 : Half
  /-- The memoised decode result (R38). -/
  cache : Option (List Byte)
deriving DecidableEq, Repr

/-- The descriptor latch, the `DESC_*` registers (R43). -/
structure DescLatch where
  index : Nat
  offset : Nat
  csize : Half
  dsize : Half
  sum : Byte
  initlen : Byte
  unk1 : Half
  unk0 : Half
  /-- `DESC_FLAGS` bit 0: the latch holds a descriptor. -/
  valid : Bool
  /-- `DESC_FLAGS` bit 1: that descriptor's cache is present. -/
  cached : Bool
deriving DecidableEq, Repr

/-- `DESC_* <- 0` (R46, R231, R233, R234). -/
def DescLatch.clear : DescLatch :=
  { index := 0, offset := 0, csize := 0, dsize := 0, sum := 0, initlen := 0, unk1 := 0, unk0 := 0,
    valid := false, cached := false }

/-! ## Conditions -/

/-- The nine tolerated anomalies (R281 to R289). -/
inductive DiagFlag where
  | oorRead | bitUnderrun | rawClamp | refClamp | refOor | checksumMismatch | badHeader | initlenRange | segIndex
deriving DecidableEq, Repr

/-- The three fatal contract violations (R292 to R294). These are not Lean faults: raising one is a next state (R295). -/
inductive FaultKind where
  | bitcountRange | badCommand | ctorArg
deriving DecidableEq, Repr

/-! ## The host's side -/

/-- What the host can do to the machine between commands (R323, R230, R320). R60 lets the host read AMEM, OMEM and RBUF too
and gives none of them a register number: they are read as fields of `State`, by no action (DESIGN CHOICE, log 22). -/
inductive HostAction where
  /-- Write `value` to the port register `reg` (R43). A write to register 0x00 is a command (R230). -/
  | write (reg : Nat) (value : Word)
  /-- Read the port register `reg`; no side effect (R230). What it reads is `portRead` (log 22). -/
  | read (reg : Nat)
  /-- Write one byte of archive memory (R60, R323). -/
  | load (addr : Nat) (value : Byte)
  /-- The hardware reset input (R320). -/
  | hardReset
deriving DecidableEq, Repr

/-- What the next step runs (the model's own field, log 1). -/
inductive FetchSource where
  /-- The host's next action. The machine is always here between commands. -/
  | hostPort
  /-- One token of the stream at the bit cursor: one iteration of the decode loop of R170. -/
  | tokenStream
deriving DecidableEq, Repr

/-! ## The state -/

/-- The architectural state of LZD (R20), and three fields of the model's own: `cfg`, `host`, `fetchFrom`. -/
structure State where
  /-- The parameters of R6; no step writes them (log 5). -/
  cfg : Config
  /-- What the next step runs (log 1). -/
  fetchFrom : FetchSource
  /-- The host's pending actions, the next one first (log 2). -/
  host : List HostAction
  /-- `AMEM`, archive memory (R60). -/
  amem : Memory
  /-- `ARCHLEN` (R34). -/
  archLen : Nat
  /-- `SCANPOS` (R33). -/
  scanPos : Nat
  /-- `DTAB` (R35). Its length is `SEGCOUNT`. -/
  dtab : List Descriptor
  /-- The bit cursor unit. -/
  bcu : Bcu
  /-- The output assembler unit. -/
  oau : Oau
  /-- `ARG0` to `ARG4` (R43). -/
  arg0 : Word
  arg1 : Word
  arg2 : Word
  arg3 : Word
  arg4 : Word
  /-- `RES0` (R43). -/
  res0 : Word
  /-- `RBUF` (R44). -/
  rbuf : List Byte
  /-- `DESC_*` (R43). -/
  latch : DescLatch
  /-- `STATUS.FAULT` (R40). -/
  fault : Bool
  /-- `STATUS.SCANNED` (R40). -/
  scanned : Bool
  /-- `STATUS.CSUM_OK` (R40). -/
  csumOk : Bool
  /-- `DIAG` (R39). -/
  diag : BitVec 16
  /-- `FAULTCODE` (R41). -/
  faultCode : Byte
deriving DecidableEq, Repr

/-- `SEGCOUNT` (R35): `DTAB` is indexed 0 to `SEGCOUNT` - 1, so it is the length of `DTAB` (DEDUCED, log 10). -/
def State.segCount (s : State) : Nat := s.dtab.length

/-- The state after hardware reset (R46, R321). `AMEM` has nothing loaded (log 3), `OMEM` lists no cell
(log 24), no host action is pending (log 2). -/
def State.reset : State :=
  { cfg := Config.default
    fetchFrom := .hostPort
    host := []
    amem := []
    archLen := 0
    scanPos := 0
    dtab := []
    bcu := { base := 0, len := 0, pos := -1, buf := 0, rem := 0, sum := 0 }
    oau := { len := 0, wpos := 0, omem := [] }
    arg0 := 0
    arg1 := 0
    arg2 := 0
    arg3 := 0
    arg4 := 0
    res0 := 0
    rbuf := []
    latch := DescLatch.clear
    fault := false
    scanned := false
    csumOk := false
    diag := 0
    faultCode := 0 }

/-! ## Why a step stops -/

/-- The Lean faults. The spec's own faults (R292 to R294) are next states, not these. -/
inductive Fault where
  /-- Raised by the host action `load` at an address of 2^AW or more: AMEM has no such byte (R60). Safe: the machine has
  no such write, so nothing is claimed about it (log 4). -/
  | noSuchAddress (addr : Nat)
deriving DecidableEq, Repr

/-- The refusals. No instruction ends in one. -/
inductive Refusal where
  /-- An instruction without a meaning, raised by an arm of `exec`; no arm does. Safe. -/
  | notModelled (mnemonic : String)
  /-- Raised by the BIU functions `readIntBE` and `readIntLE` for a byte count outside 1 to 4 (U9, treatment "refuse").
  No instruction calls them (R247). Safe: the machine never issues such a read (R67). -/
  | biuIntCount (n : Nat)
deriving DecidableEq, Repr

/-- What a step or a meaning answers. -/
abbrev Result := Host.Outcome State Fault Refusal

end Sys2Proof.Machine
end

