-- ==== Sys2Proof/Machine/Ops.lean ====
section
/-! DEFINITION. The named operations over memories, diagnostics, faults and reset: everything the units share. Taking a
fault (`raiseFault`, R295) and the only return from one (`resetMachine`, R244, R296) stand side by side here. -/

namespace Sys2Proof.Machine

/-! ## Byte memories -/

/-- One byte of a memory. -/
def Memory.get : Memory → Nat → Byte
  | [], _ => Memory.unlisted
  | (b, v) :: m, a => if b = a then v else Memory.get m a

/-- Write one byte, keeping the canonical form: the value an unlisted address reads as removes the entry. -/
def Memory.set : Memory → Nat → Byte → Memory
  | [], a, v => if v = Memory.unlisted then [] else [(a, v)]
  | (b, u) :: m, a, v =>
    if a < b then (if v = Memory.unlisted then (b, u) :: m else (a, v) :: (b, u) :: m)
    else if a = b then (if v = Memory.unlisted then m else (a, v) :: m)
    else (b, u) :: Memory.set m a v

/-- Every byte the unlisted one: below OA_LEN the zero fill of OA.INIT (R150), from there on a DESIGN CHOICE (log 24). -/
def Memory.zero : Memory := []

/-- The bytes at `a`, `a + 1`, …, `n` of them. -/
def Memory.bytes (m : Memory) : Nat → Nat → List Byte
  | _, 0 => []
  | a, n + 1 => m.get a :: Memory.bytes m (a + 1) n

/-- Write a byte sequence from address `a` upward. -/
def Memory.store (m : Memory) : Nat → List Byte → Memory
  | _, [] => m
  | a, v :: vs => (Memory.store m (a + 1) vs).set a v

/-- The XOR of all bytes of a sequence (R135, R265). -/
def xorFold : List Byte → Byte
  | [] => 0
  | b :: bs => b ^^^ xorFold bs

/-! ## Diagnostics (R10, R39) -/

/-- The bit of `DIAG` that a flag sets (R39). -/
def DiagFlag.bit : DiagFlag → Nat
  | .oorRead => 0
  | .bitUnderrun => 1
  | .rawClamp => 2
  | .refClamp => 3
  | .refOor => 4
  | .checksumMismatch => 5
  | .badHeader => 6
  | .initlenRange => 7
  | .segIndex => 8

/-- `DIAG` with one flag set. -/
def DiagFlag.mask (f : DiagFlag) : BitVec 16 := BitVec.ofNat 16 (2 ^ f.bit)

/-- `diag(X)` (R10): set the sticky flag and change nothing else. -/
def diag (f : DiagFlag) (s : State) : State := { s with diag := s.diag ||| f.mask }

/-- Whether a flag of `DIAG` is set. -/
def hasDiag (s : State) (f : DiagFlag) : Bool := s.diag.getLsbD f.bit

/-! ## Faults and reset (R295, R296) -/

/-- The code of a fault (R292 to R294). -/
def FaultKind.code : FaultKind → Byte
  | .bitcountRange => 1
  | .badCommand => 2
  | .ctorArg => 3

/-- Taking a fault (R295): `STATUS.FAULT` and `FAULTCODE` are written, every other piece of state keeps the value it had
before the command. Nothing is saved and nothing is vectored. -/
def raiseFault (k : FaultKind) (s : State) : State := { s with fault := true, faultCode := k.code }

/-- Reset, by the command SRESET or the hardware input alike (R244, R320), and so the only exit from a fault (R296):
every piece of state takes its value of R46, `AMEM` is not touched; the parameters and the host's own pending actions
are no state of LZD. -/
def resetMachine (s : State) : State :=
  { State.reset with cfg := s.cfg, amem := s.amem, host := s.host }

/-- The gate every command but SRESET stands behind: in the FAULT state it is ignored (R246, R297). -/
def unlessFault (s : State) (effect : State → State) : Result :=
  .next (if s.fault then s else effect s)

/-! ## Archive memory (R61) -/

/-- `MemRead(AMEM, a, 1)` (R61): the byte inside `[0, ARCHLEN)`; outside it 0 and the diagnostic OOR_READ. -/
def readArchive (a : Int) (s : State) : Byte × State :=
  if 0 ≤ a ∧ a < (s.archLen : Int) then (s.amem.get a.toNat, s) else (0, diag .oorRead s)

/-- The value of a big-endian pair of bytes (R66, R72). -/
def be16 (hi lo : Byte) : Half := hi ++ lo

/-- `MemRead(AMEM, a, 2)` (R9, R66): the byte at `a` is the more significant. -/
def readArchiveBE (a : Int) (s : State) : Half × State :=
  let hi := readArchive a s
  let lo := readArchive (a + 1) hi.2
  (be16 hi.1 lo.1, lo.2)

/-! ## Output memory (R62) -/

/-- `MemRead(OMEM, i, 1)` (R62). -/
def readOutput (i : Nat) (s : State) : Byte := s.oau.omem.get i

/-- `MemWrite(OMEM, i, 1, v)` (R62). -/
def writeOutput (i : Nat) (v : Byte) (s : State) : State :=
  { s with oau := { s.oau with omem := s.oau.omem.set i v } }

/-- `OMEM[0 .. OA_LEN-1]`, the result of a decode (R180). -/
def outputBytes (s : State) : List Byte := s.oau.omem.bytes 0 s.oau.len

end Sys2Proof.Machine
end

