-- ==== Sys2Proof/Machine/Flags.lean ====
section
/-! DEFINITION. The conditions of LZD: the two end tests (10_state.md R42), the STATUS word (R40) and the checksum flag
(42_tokens.md R179). No token reads a flag (R42) and no rule reads DIAG (R290). -/

namespace Sys2Proof.Machine

/-- `bcEof` (R42, R134): the buffer is empty and no earlier byte remains. -/
def bcEof (s : State) : Bool := s.bcu.rem == 0 && decide (s.bcu.pos ≤ 0)

/-- `oaEof` (R42, R153): the output buffer is full. -/
def oaEof (s : State) : Bool := decide (s.oau.wpos ≤ 0)

/-- STATUS[15:0] (R40): FAULT, SCANNED, CSUM_OK, BC_EOF, OA_EOF from bit 0 up, the rest 0. -/
def statusHalf (s : State) : Half :=
  BitVec.ofNat 16
    (s.fault.toNat + 2 * s.scanned.toNat + 4 * s.csumOk.toNat + 8 * (bcEof s).toNat + 16 * (oaEof s).toNat)

/-- The 32-bit read of STATUS: FAULTCODE is mirrored in bits 31:24 (R43), bits 23:16 read 0 (93 section C). -/
def statusWord (s : State) : Word := s.faultCode ++ (0 : Byte) ++ statusHalf s

/-- The bits of DIAG that hold a flag; 15:9 are reserved and read as 0 (R39). -/
def diagFlagBits : BitVec 16 := 0x01FF

/-- What DIAG reads as (R39). -/
def diagRead (s : State) : BitVec 16 := s.diag &&& diagFlagBits

/-- `DESC_FLAGS` (R43): bit 0 VALID, bit 1 CACHED. -/
def descFlags (l : DescLatch) : Nat := l.valid.toNat + 2 * l.cached.toNat

/-- The checksum comparison at the end of a decode (R179): it sets STATUS.CSUM_OK, on inequality it raises
CHECKSUM_MISMATCH, and it changes nothing else. -/
def verifyChecksum (declared : Byte) (s : State) : State :=
  let s1 := { s with csumOk := s.bcu.sum == declared }
  if s.bcu.sum = declared then s1 else diag .checksumMismatch s1

end Sys2Proof.Machine
end

