-- ==== Sys2Proof/Machine/Operands.lean ====
section
/-! DEFINITION. Operand forms: the biased immediates of the tokens (30_encoding.md R110), and for the commands the
argument checks that raise a fault before any state change (60_exceptions.md R292, R293, R297). -/

namespace Sys2Proof.Machine

/-! ## Token immediates (R110) -/

/-- SRAW `len`: bias +1, 1 to 8. -/
def srawLen (l : BitVec 3) : Nat := l.toNat + 1

/-- LRAW `len`: bias +9, 9 to 264. -/
def lrawLen (l : BitVec 8) : Nat := l.toNat + 9

/-- REFC `len`: bias +1, 1 to 256. -/
def refcLen (l : BitVec 8) : Nat := l.toNat + 1

/-- Every offset: bias +1, so offset 0 cannot be encoded (R110). -/
def refOffset {w : Nat} (o : BitVec w) : Nat := o.toNat + 1

/-! ## Argument checks of the commands -/

/-- A bit read count must be 1 to 32 (R132, R292). -/
def badBitCount (n : Nat) : Bool := decide (n < 1 ∨ 32 < n)

/-- A length or an archive length must be below 2^AW (R231, R235, R236). -/
def badLength (s : State) (n : Nat) : Bool := decide (2 ^ s.cfg.aw ≤ n)

/-- A start offset must be below 2^(AW+1) (R235, R236). -/
def badOffset (s : State) (n : Nat) : Bool := decide (2 ^ (s.cfg.aw + 1) ≤ n)

/-- An output length must be at most OMAX (R235, R239). -/
def badOutputLength (s : State) (n : Nat) : Bool := decide (s.cfg.omax < n)

/-- A command that one of its arguments makes a contract violation faults before any state change; otherwise it has its
effect (R295, R297). -/
def unlessBadArg (bad : Bool) (k : FaultKind) (s : State) (effect : State → State) : State :=
  if bad then raiseFault k s else effect s

end Sys2Proof.Machine
end

