-- ==== Sys2Proof/Machine/BitCursor.lean ====
section
/-! DEFINITION. The bit cursor unit (40_bitcursor.md): construction, the lazy pull, the underrun, the bit read, and the
closed form of the stream it delivers (20_memory.md R73). -/

namespace Sys2Proof.Machine

/-- BC.INIT (R130): construction and priming. An empty range starts exhausted (D10); a bit count outside 1 to 8 is taken
as at most 8 with a diagnostic (D11). -/
def bcConstruct (startOffset byteLength initialBitCount : Nat) (s : State) : State :=
  let s1 := if initialBitCount < 1 ∨ 8 < initialBitCount then diag .initlenRange s else s
  if byteLength = 0 then
    diag .bitUnderrun
      { s1 with bcu := { base := startOffset, len := byteLength, pos := -1, buf := 0, rem := 0, sum := 0 } }
  else
    let r := readArchive ((startOffset : Int) + ((byteLength : Int) - 1)) s1
    { r.2 with
      bcu := { base := startOffset, len := byteLength, pos := (byteLength : Int) - 1, buf := r.1,
               rem := min initialBitCount 8, sum := 0 ^^^ r.1 } }

/-- The pull (R131): the next byte backward, folded into the checksum once, with 8 valid bits. `none` is the failed pull:
no byte remains. -/
def bcPull (s : State) : Option State :=
  if s.bcu.pos ≤ 0 then none
  else
    let pos := s.bcu.pos - 1
    let r := readArchive ((s.bcu.base : Int) + pos) s
    some { r.2 with bcu := { s.bcu with pos := pos, buf := r.1, sum := s.bcu.sum ^^^ r.1, rem := 8 } }

/-- The underrun (R133): BC_REM stays 0, BC_SUM is unchanged, no byte is read (D9). -/
def bcUnderrun (s : State) : State :=
  diag .bitUnderrun { s with bcu := { s.bcu with pos := -1, buf := 0 } }

/-- Consume the lowest bit of the buffer (R132). -/
def bcTakeBit (s : State) : Bool × State :=
  (s.bcu.buf.getLsbD 0, { s with bcu := { s.bcu with buf := s.bcu.buf >>> 1, rem := s.bcu.rem - 1 } })

/-- One bit of the stream (R132): a pull exactly when a bit is needed and none is left (R131, lazy); a missing bit reads
as 0 (R133). -/
def bcReadBit (s : State) : Bool × State :=
  if s.bcu.rem = 0 then
    match bcPull s with
    | none => (false, bcUnderrun s)
    | some s1 => bcTakeBit s1
  else bcTakeBit s

/-- The loop of `bcRead` (R132): `n` more bits shifted into `acc`, first bit most significant. -/
def bcReadFrom : Nat → Nat → State → Nat × State
  | 0, acc, s => (acc, s)
  | n + 1, acc, s =>
    match bcReadBit s with
    | (b, s1) => bcReadFrom n (2 * acc + b.toNat) s1

/-- `bcRead(n)` for a count the caller knows to be 1 to 32 (R132). The commands check the count first. -/
def bcRead (n : Nat) (s : State) : Nat × State := bcReadFrom n 0 s

/-! ## The stream as a list of bits -/

/-- The byte values the cursor still has to pull, next one first: logical indices `n - 1` down to 0 of the range. -/
def bytesBelow (s : State) : Nat → List Byte
  | 0 => []
  | n + 1 => (readArchive ((s.bcu.base : Int) + n) s).1 :: bytesBelow s n

/-- The bits of a byte in the order the BCU consumes them: bit 0 first (R73). -/
def bitsOfByte (b : Byte) : List Bool :=
  [b.getLsbD 0, b.getLsbD 1, b.getLsbD 2, b.getLsbD 3, b.getLsbD 4, b.getLsbD 5, b.getLsbD 6, b.getLsbD 7]

/-- The stream bits not yet consumed (R27, R73): the valid bits of the buffer, then every byte below, last first. -/
def streamBits (s : State) : List Bool :=
  (bitsOfByte s.bcu.buf).take s.bcu.rem ++ (bytesBelow s s.bcu.pos.toNat).flatMap bitsOfByte

/-- `bitsLeft` (R27): how many stream bits are not yet consumed. -/
def bitsLeft (s : State) : Nat := s.bcu.rem + 8 * s.bcu.pos.toNat

/-- The XOR of the byte values at logical indices `lo` to `lo + n - 1` of the cursor's range (R27, R135). -/
def sumOfRange (s : State) (lo : Nat) : Nat → Byte
  | 0 => 0
  | n + 1 => (readArchive ((s.bcu.base : Int) + lo) s).1 ^^^ sumOfRange s (lo + 1) n

end Sys2Proof.Machine
end

