-- ==== Sys2Proof/Machine/OutputAssembler.lean ====
section
/-! DEFINITION. The output assembler unit (41_output_assembler.md): the buffer is filled from its end toward its start, one
byte at a time (R328, R333). -/

namespace Sys2Proof.Machine

/-- OA.INIT (R150): the write cursor at the end, every byte of the buffer 0 (D14). R150 fills the indices below `length` only;
that OMEM reads 0 beyond them too is a DESIGN CHOICE (93 section D: any value; log 24). -/
def oaConstruct (length : Nat) (s : State) : State :=
  { s with oau := { len := length, wpos := length, omem := Memory.zero } }

/-- OA_WPOS <- OA_WPOS - 1. -/
def oaRetreat (s : State) : State := { s with oau := { s.oau with wpos := s.oau.wpos - 1 } }

/-- One iteration of COPYRAW (R151): decrement, read a literal, write it. -/
def rawByte (s : State) : State :=
  match bcRead 8 (oaRetreat s) with
  | (v, s1) => writeOutput s1.oau.wpos (BitVec.ofNat 8 v) s1

/-- The loop of COPYRAW. -/
def rawBytes : Nat → State → State
  | 0, s => s
  | n + 1, s => rawBytes n (rawByte s)

/-- COPYRAW, `copyRaw(n)` (R151): a length above the space left is clamped to it, the clamped number IS copied (R156). -/
def copyRaw (n : Nat) (s : State) : State :=
  if s.oau.wpos < n then rawBytes s.oau.wpos (diag .rawClamp s) else rawBytes n s

/-- One iteration of COPYREF (R152): decrement, then load from `OA_WPOS + offset`, 0 with REF_OOR at or beyond OA_LEN
(D13), then store. -/
def refByte (offset : Nat) (s : State) : State :=
  let s1 := oaRetreat s
  let src := s1.oau.wpos + offset
  if src < s1.oau.len then writeOutput s1.oau.wpos (readOutput src s1) s1
  else writeOutput s1.oau.wpos 0 (diag .refOor s1)

/-- The loop of COPYREF: strictly byte by byte, so an overlap repeats (R154). -/
def refBytes (offset : Nat) : Nat → State → State
  | 0, s => s
  | n + 1, s => refBytes offset n (refByte offset s)

/-- COPYREF after its offset has been read (R152): clamp, then copy. -/
def copyRef (n offset : Nat) (s : State) : State :=
  if s.oau.wpos < n then refBytes offset s.oau.wpos (diag .refClamp s) else refBytes offset n s

/-- COPYREF whole, `copyBackReference(n, w)` (R152): the offset field is read first, before any clamp or copy. -/
def copyBackReference (n w : Nat) (s : State) : State :=
  let r := bcRead w s
  copyRef n (r.1 + 1) r.2

end Sys2Proof.Machine
end

