-- ==== Sys2Proof/Machine/Tokens.lean ====
section
/-! DEFINITION. The six tokens (42_tokens.md section 2). A token's header has been read when it runs: the fetch consumes
selector and fields in the order of R103 and R325 (the offset field of a back-reference, which `copyBackReference` would
read first of all, included; log 11). Literals are read as the token runs. The
meanings are total; the loop test of R170 keeps the precondition of R171 (log 17). -/

namespace Sys2Proof.Machine

/-- What a token does to the machine (R172 to R177). -/
def runToken : Token → State → State
  | .sraw l, s => copyRaw (srawLen l) s
  | .sref o, s => copyRef 2 (refOffset o) s
  | .refa o, s => copyRef 3 (refOffset o) s
  | .refb o, s => copyRef 4 (refOffset o) s
  | .refc l o, s => copyRef (refcLen l) (refOffset o) s
  | .lraw l, s => copyRaw (lrawLen l) s

/-- SRAW (R172): `l + 1` literal bytes from the stream. -/
def execSraw (l : BitVec 3) (s : State) : Result := .next (runToken (.sraw l) s)

/-- SREF (R173): two bytes from `o + 1` above. -/
def execSref (o : BitVec 8) (s : State) : Result := .next (runToken (.sref o) s)

/-- REFA (R174): three bytes from `o + 1` above. -/
def execRefa (o : BitVec 9) (s : State) : Result := .next (runToken (.refa o) s)

/-- REFB (R175): four bytes from `o + 1` above. -/
def execRefb (o : BitVec 10) (s : State) : Result := .next (runToken (.refb o) s)

/-- REFC (R176): `l + 1` bytes from `o + 1` above. -/
def execRefc (l : BitVec 8) (o : BitVec 12) (s : State) : Result := .next (runToken (.refc l o) s)

/-- LRAW (R177): `l + 9` literal bytes from the stream. -/
def execLraw (l : BitVec 8) (s : State) : Result := .next (runToken (.lraw l) s)

end Sys2Proof.Machine
end

