-- ==== Sys2Proof/Machine/Fetch.lean ====
section
/-! DEFINITION. Fetching an instruction: a token from the bit cursor (42_tokens.md R171), a command from the low byte of a
CMD write (30_encoding.md R117). -/

namespace Sys2Proof.Machine

/-- Read the next token's header from the bit cursor, in the read sequence of R103 (R171, R325). Missing bits read as 0
(R133), so a token is always found. -/
def fetchToken (s : State) : Token × State := decodeTokenWith bcRead s

/-- The command of a CMD write: bits 31:8 are ignored (R117). -/
def fetchCommand (v : Word) : Instr := decodeCommand (v.setWidth 8)

end Sys2Proof.Machine
end

