-- ==== Sys2Proof/Machine/Segment.lean ====
section
/-! DEFINITION. The token decode unit's loop and the decode of a whole segment (42_tokens.md R170, R178 to R180). -/

namespace Sys2Proof.Machine

/-- The loop test of R170: the output is full or the bit source is exhausted. It is made before every token and only
there. -/
def decodeDone (s : State) : Bool := oaEof s || bcEof s

/-- `decodeOneToken()` (R171): fetch a token and run it. -/
def decodeOneToken (s : State) : State :=
  let r := fetchToken s
  runToken r.1 r.2

/-- The loop of R170 on a bound for the number of tokens. Each token lowers OA_WPOS by at least 1 (R178), so the write
position at the start is bound enough. -/
def tduLoop : Nat → State → State
  | 0, s => s
  | n + 1, s => if decodeDone s then s else tduLoop n (decodeOneToken s)

/-- `segDecode(…)` (R170): construct both units, run the loop, compare the checksum. Its result is `outputBytes` of the
state it leaves (R180). -/
def segDecode (offset compressedSize decompressedSize : Nat) (declared : Byte) (initialBitCount : Nat)
    (s : State) : State :=
  let s1 := oaConstruct decompressedSize (bcConstruct offset compressedSize initialBitCount s)
  verifyChecksum declared (tduLoop s1.oau.wpos s1)

end Sys2Proof.Machine
end

