-- ==== Sys2Proof/Machine/Container.lean ====
section
/-! DEFINITION. The container parser unit (43_container.md): the scan, the descriptor table, the lazy memoised decode. -/

namespace Sys2Proof.Machine

/-- The fields of a segment header (R115). -/
structure Header where
  initialBufferLen : Byte
  checksum : Byte
  unknown1 : Half
  decompressedSize : Half
  unknown0 : Half
  totalSegmentSize : Half
deriving DecidableEq, Repr

/-- Read the ten header bytes at address `h` (R202). -/
def readHeader (h : Nat) (s : State) : Header × State :=
  let r0 := readArchive h s
  let r1 := readArchive (h + 1 : Nat) r0.2
  let r2 := readArchiveBE (h + 2 : Nat) r1.2
  let r4 := readArchiveBE (h + 4 : Nat) r2.2
  let r6 := readArchiveBE (h + 6 : Nat) r4.2
  let r8 := readArchiveBE (h + 8 : Nat) r6.2
  ({ initialBufferLen := r0.1, checksum := r1.1, unknown1 := r2.1, decompressedSize := r4.1, unknown0 := r6.1,
     totalSegmentSize := r8.1 }, r8.2)

/-- Header validation (R203). Only the lower bound can fail (C2); the other two tests are kept as the rule states them. -/
def headerValid (h : Nat) (hdr : Header) : Bool :=
  decide (0 ≤ (h : Int)) && decide (Config.minTotal ≤ hdr.totalSegmentSize.toNat)
    && decide (hdr.totalSegmentSize.toNat ≤ Config.maxTotal)

/-- The descriptor recorded for an accepted header at `h` (R204). -/
def descriptorOf (index h : Nat) (hdr : Header) : Descriptor :=
  { index := index
    offset := h + Config.hdrLen
    compressedSize := BitVec.ofNat 16 (hdr.totalSegmentSize.toNat - Config.hdrLen)
    decompressedSize := hdr.decompressedSize
    checksum := hdr.checksum
    initialBufferLen := hdr.initialBufferLen
    unknown1 := hdr.unknown1
    unknown0 := hdr.unknown0
    cache := none }

/-- Record a descriptor and advance (R204, R205). -/
def acceptHeader (hdr : Header) (s : State) : State :=
  { s with
    dtab := s.dtab ++ [descriptorOf s.segCount s.scanPos hdr]
    scanPos := s.scanPos + hdr.totalSegmentSize.toNat }

/-- The loop of R200 on a bound for its iterations. Fewer than ten bytes left end it silently (R201, D16), an invalid
header with BAD_HEADER (R203). -/
def scanLoop : Nat → State → State
  | 0, s => s
  | n + 1, s =>
    if s.archLen < s.scanPos + Config.hdrLen then s
    else
      let r := readHeader s.scanPos s
      if headerValid s.scanPos r.1 then scanLoop n (acceptHeader r.1 r.2) else diag .badHeader r.2

/-- `scan(archiveLength)` (R200): the scan starts at address 0 (R76) and makes at most `floor(ARCHLEN / 10)` iterations
(R206). -/
def scanArchive (archiveLength : Nat) (s : State) : State :=
  { scanLoop (archiveLength / Config.hdrLen) { s with archLen := archiveLength, scanPos := 0, dtab := [] } with
    scanned := true }

/-- The memoised payload that answers a request, if MEMOIZE is set and one is present (R208, R209). -/
def memoHit (s : State) (d : Descriptor) : Option (List Byte) := if s.cfg.memoize then d.cache else none

/-- `DTAB[index].cache <- data` (R208). -/
def cacheResult (index : Nat) (data : List Byte) (s : State) : State :=
  { s with dtab := s.dtab.modify index (fun d => { d with cache := some data }) }

/-- The decode of a descriptor's segment (R208). -/
def decodeDescriptor (d : Descriptor) (s : State) : State :=
  segDecode d.offset d.compressedSize.toNat d.decompressedSize.toNat d.checksum d.initialBufferLen.toNat s

/-- `getSegment(index)` (R208 to R210): the bytes, and the state. -/
def getSegment (index : Nat) (s : State) : List Byte × State :=
  match s.dtab[index]? with
  | none => ([], diag .segIndex s)
  | some d =>
    match memoHit s d with
    | some data => (data, s)
    | none =>
      let s1 := decodeDescriptor d s
      let data := outputBytes s1
      (data, if s.cfg.memoize then cacheResult index data s1 else s1)

/-- The descriptor latch's copy of a descriptor (R43, R233, R234, log 19). -/
def latchOf (d : Descriptor) : DescLatch :=
  { index := d.index
    offset := d.offset
    csize := d.compressedSize
    dsize := d.decompressedSize
    sum := d.checksum
    initlen := d.initialBufferLen
    unk1 := d.unknown1
    unk0 := d.unknown0
    valid := true
    cached := d.cache.isSome }

/-- Load the latch from `DTAB[index]`, or clear it when there is no such descriptor (R233, R234). -/
def loadLatch (index : Nat) (s : State) : State :=
  match s.dtab[index]? with
  | none => { s with latch := DescLatch.clear }
  | some d => { s with latch := latchOf d }

end Sys2Proof.Machine
end

