-- ==== Sys2Proof/Machine/Commands.lean ====
section
/-! DEFINITION. The fourteen host commands and the unassigned codes (44_host_commands.md). Each is one atomic step (R230)
behind the FAULT gate (R246); SRESET alone passes it (R244). -/

namespace Sys2Proof.Machine

/-- A scalar result (R43): RES0 <- v. Every number a command puts there fits (log 18). -/
def setRes0 (v : Nat) (s : State) : State := { s with res0 := BitVec.ofNat 32 v }

/-- A byte result: RBUF <- data, RES0 <- its length (R233, R235). -/
def deliver (data : List Byte) (s : State) : State := setRes0 data.length { s with rbuf := data }

/-! ## Housekeeping -/

/-- SRESET (R244): accepted in every state. -/
def execSreset (s : State) : Result := .next (resetMachine s)

/-- CLRDIAG (R243). -/
def execClrdiag (s : State) : Result := unlessFault s fun s => { s with diag := 0 }

/-- An unassigned code (R245): Fault(BAD_COMMAND) and nothing else. The code itself does not matter. -/
def execUnassigned (_code : Byte) (s : State) : Result := unlessFault s (raiseFault .badCommand)

/-! ## Container commands -/

/-- What SCAN does once its argument is accepted (R231). -/
def scanEffect (s : State) : State :=
  let s1 := scanArchive s.arg0.toNat s
  setRes0 s1.segCount { s1 with latch := DescLatch.clear, rbuf := [] }

/-- SCAN (R231). -/
def execScan (s : State) : Result :=
  unlessFault s fun s => unlessBadArg (badLength s s.arg0.toNat) .ctorArg s scanEffect

/-- COUNT (R232). -/
def execCount (s : State) : Result := unlessFault s fun s => setRes0 s.segCount s

/-- GETSEG (R233). -/
def execGetseg (s : State) : Result :=
  unlessFault s fun s =>
    let r := getSegment s.arg0.toNat s
    loadLatch s.arg0.toNat (deliver r.1 r.2)

/-- GETDESC (R234). -/
def execGetdesc (s : State) : Result :=
  unlessFault s fun s =>
    loadLatch s.arg0.toNat (if s.arg0.toNat < s.segCount then s else diag .segIndex s)

/-- The argument check of SEGDEC (R235). -/
def segdecBadArg (s : State) : Bool :=
  badOffset s s.arg0.toNat || badLength s s.arg1.toNat || badOutputLength s s.arg2.toNat

/-- What SEGDEC does once its arguments are accepted (R235): the declared checksum is ARG3[7:0]. -/
def segdecEffect (s : State) : State :=
  let s1 := segDecode s.arg0.toNat s.arg1.toNat s.arg2.toNat (s.arg3.setWidth 8) s.arg4.toNat s
  { s1 with rbuf := outputBytes s1, res0 := s.arg2 }

/-- SEGDEC (R235). -/
def execSegdec (s : State) : Result :=
  unlessFault s fun s => unlessBadArg (segdecBadArg s) .ctorArg s segdecEffect

/-! ## Bit-cursor commands -/

/-- The argument check of BC_INIT (R236). -/
def bcInitBadArg (s : State) : Bool := badOffset s s.arg0.toNat || badLength s s.arg1.toNat

/-- BC_INIT (R236). -/
def execBcInit (s : State) : Result :=
  unlessFault s fun s =>
    unlessBadArg (bcInitBadArg s) .ctorArg s (bcConstruct s.arg0.toNat s.arg1.toNat s.arg2.toNat)

/-- What BC_READ does once its count is accepted (R237). -/
def bcReadEffect (s : State) : State :=
  let r := bcRead s.arg0.toNat s
  setRes0 r.1 r.2

/-- BC_READ (R237). -/
def execBcRead (s : State) : Result :=
  unlessFault s fun s => unlessBadArg (badBitCount s.arg0.toNat) .bitcountRange s bcReadEffect

/-- BC_EOF (R238). -/
def execBcEof (s : State) : Result := unlessFault s fun s => setRes0 (bcEof s).toNat s

/-! ## Output-assembler commands -/

/-- OA_INIT (R239). -/
def execOaInit (s : State) : Result :=
  unlessFault s fun s =>
    unlessBadArg (badOutputLength s s.arg0.toNat) .ctorArg s (oaConstruct s.arg0.toNat)

/-- OA_RAW (R240). -/
def execOaRaw (s : State) : Result := unlessFault s fun s => copyRaw s.arg0.toNat s

/-- OA_REF (R241). -/
def execOaRef (s : State) : Result :=
  unlessFault s fun s =>
    unlessBadArg (badBitCount s.arg1.toNat) .bitcountRange s (copyBackReference s.arg0.toNat s.arg1.toNat)

/-- OA_EOF (R242). -/
def execOaEof (s : State) : Result := unlessFault s fun s => setRes0 (oaEof s).toNat s

end Sys2Proof.Machine
end

