-- ==== Sys2Proof/Machine/Dispatch.lean ====
section
/-! DEFINITION. The meaning of every instruction, one arm per constructor of `Instr`. -/

namespace Sys2Proof.Machine

/-- Run one decoded instruction. -/
def exec (i : Instr) (s : State) : Host.Outcome State Fault Refusal :=
  match i with
  | .sraw l => Sys2Proof.Machine.execSraw l s
  | .sref o => Sys2Proof.Machine.execSref o s
  | .refa o => Sys2Proof.Machine.execRefa o s
  | .refb o => Sys2Proof.Machine.execRefb o s
  | .refc l o => Sys2Proof.Machine.execRefc l o s
  | .lraw l => Sys2Proof.Machine.execLraw l s
  | .sreset => Sys2Proof.Machine.execSreset s
  | .scan => Sys2Proof.Machine.execScan s
  | .count => Sys2Proof.Machine.execCount s
  | .getseg => Sys2Proof.Machine.execGetseg s
  | .getdesc => Sys2Proof.Machine.execGetdesc s
  | .segdec => Sys2Proof.Machine.execSegdec s
  | .bcInit => Sys2Proof.Machine.execBcInit s
  | .bcRead => Sys2Proof.Machine.execBcRead s
  | .bcEof => Sys2Proof.Machine.execBcEof s
  | .oaInit => Sys2Proof.Machine.execOaInit s
  | .oaRaw => Sys2Proof.Machine.execOaRaw s
  | .oaRef => Sys2Proof.Machine.execOaRef s
  | .oaEof => Sys2Proof.Machine.execOaEof s
  | .clrdiag => Sys2Proof.Machine.execClrdiag s
  | .unassigned code => Sys2Proof.Machine.execUnassigned code s

end Sys2Proof.Machine
end

