-- ==== Sys2Proof/Machine/Packing.lean ====
section
/-! DEFINITION. Packing a bit list into payload bytes (30_encoding.md R120, 45_reference_encoder.md R264): both packings are
inverses of the stream order of 20_memory.md R73. A bit list is in consumption order. -/

namespace Sys2Proof.Machine

/-- The number whose bit `i` is the `i`-th of these bits: the in-byte order of a packed stream (R264). -/
def packByte : List Bool → Nat
  | [] => 0
  | b :: bs => b.toNat + 2 * packByte bs

/-- Pack stream bits eight to a byte, first bit at bit 0, into `n` bytes of which the FIRST is consumed first (R264). -/
def packBytes : Nat → List Bool → List Byte
  | 0, _ => []
  | n + 1, bs => BitVec.ofNat 8 (packByte (bs.take 8)) :: packBytes n (bs.drop 8)

/-- Tail-pad packing (R120, R264): the payload; its `initialBufferLen` is 8. The pad bits are zeros at the end of
consumption. -/
def packTail (bits : List Bool) : List Byte := (packBytes ((bits.length + 7) / 8) bits).reverse

/-- How many bits native packing puts in the first-consumed byte (R120): the `initialBufferLen` it goes with. -/
def nativeCount (bits : List Bool) : Nat := if bits.length % 8 = 0 then 8 else bits.length % 8

/-- Native packing (R120): the payload; its `initialBufferLen` is `nativeCount`. There are no pad bits. -/
def packNative (bits : List Bool) : List Byte :=
  if bits.length = 0 then []
  else
    (BitVec.ofNat 8 (packByte (bits.take (nativeCount bits)))
      :: packBytes ((bits.length - nativeCount bits) / 8) (bits.drop (nativeCount bits))).reverse

end Sys2Proof.Machine
end

