-- ==== Sys2Proof/Machine/Port.lean ====
section
/-! DEFINITION. The host's register file (10_state.md R43): what a read of a register number gives, and what a write to one
other than CMD does. -/

namespace Sys2Proof.Machine

/-- A register's value on the 32-bit port (R43): zero-extended. A value of 2^32 or more, which only the AW+1 bit
registers can hold, reads as a free value (log 8). -/
def portNat (v : Nat) : Word := if v < 2 ^ 32 then BitVec.ofNat 32 v else Config.freeWideRead v

/-- The host-visible register map (R43). CMD reads as 0; BC_POS reads sign-extended; every number not in the map is
reserved and reads 0. A read changes nothing (R230). -/
def portRead (reg : Nat) (s : State) : Word :=
  match reg with
  | 0x00 => 0
  | 0x01 => s.arg0
  | 0x02 => s.arg1
  | 0x03 => s.arg2
  | 0x04 => s.arg3
  | 0x05 => s.arg4
  | 0x06 => s.res0
  | 0x07 => statusWord s
  | 0x08 => (diagRead s).setWidth 32
  | 0x09 => portNat s.archLen
  | 0x0A => portNat s.scanPos
  | 0x0B => portNat s.segCount
  | 0x10 => portNat s.bcu.base
  | 0x11 => portNat s.bcu.len
  | 0x12 => if s.bcu.pos < 0 then BitVec.ofInt 32 s.bcu.pos else portNat s.bcu.pos.toNat
  | 0x13 => s.bcu.buf.setWidth 32
  | 0x14 => portNat s.bcu.rem
  | 0x15 => s.bcu.sum.setWidth 32
  | 0x18 => portNat s.oau.len
  | 0x19 => portNat s.oau.wpos
  | 0x20 => portNat s.latch.index
  | 0x21 => portNat s.latch.offset
  | 0x22 => s.latch.csize.setWidth 32
  | 0x23 => s.latch.dsize.setWidth 32
  | 0x24 => s.latch.sum.setWidth 32
  | 0x25 => s.latch.initlen.setWidth 32
  | 0x26 => s.latch.unk1.setWidth 32
  | 0x27 => s.latch.unk0.setWidth 32
  | 0x28 => BitVec.ofNat 32 (descFlags s.latch)
  | _ => 0

/-- A host write to a register other than CMD (R43): ARG0 to ARG4 take the value; every other register is read-only or
reserved and the write is ignored. -/
def portWrite (reg : Nat) (v : Word) (s : State) : State :=
  match reg with
  | 0x01 => { s with arg0 := v }
  | 0x02 => { s with arg1 := v }
  | 0x03 => { s with arg2 := v }
  | 0x04 => { s with arg3 := v }
  | 0x05 => { s with arg4 := v }
  | _ => s

end Sys2Proof.Machine
end

