-- ==== Sys2Proof/Machine/HostSide.lean ====
section
/-! DEFINITION. The host's actions other than a command (70_reset_and_hazards.md R323), and the placing of one instruction
where the next step fetches it. -/

namespace Sys2Proof.Machine

/-- The host writes one byte of AMEM (R60, R323). An address of 2^AW or more does not exist (log 4). -/
def hostLoad (a : Nat) (v : Byte) (s : State) : Result :=
  if a < 2 ^ s.cfg.aw then .next { s with amem := s.amem.set a v } else .fault (.noSuchAddress a)

/-- Enough payload bytes for the longest token, LRAW of 264 literals: 2123 bits (R102). -/
def longestToken : Nat := 266

/-- Enough bytes for the longest header, REFC's 23 bits (R102). -/
def longestHeader : Nat := 3

/-- The archive with these bits, followed by zeros, as the payload at addresses 0 to 265: the first bits in the last byte
(R73), every other byte of the payload 0, the bytes above it as they were. -/
def streamArchive (bits : List Bool) (m : Memory) : Memory :=
  Memory.store (m.filter (fun c => decide (longestToken ≤ c.1))) (longestToken - longestHeader)
    (packBytes longestHeader bits).reverse

/-- Put the bits of a header, followed by zeros, where the bit cursor reads next: a fresh window of `longestToken` bytes at
address 0, primed with 8 bits. A full or empty output buffer is replaced by one of 264 bytes, so that the decode loop
takes the token (log 13). -/
def placeStream (bits : List Bool) (s : State) : State :=
  let s1 := { s with
    fetchFrom := .tokenStream, amem := streamArchive bits s.amem, archLen := max s.archLen longestToken }
  let s2 := bcConstruct 0 longestToken 8 s1
  if s2.oau.wpos = 0 then oaConstruct 264 s2 else s2

/-- Make a write of this code to CMD the host's next action. -/
def placeCommand (code : Byte) (s : State) : State :=
  { s with fetchFrom := .hostPort, host := .write 0 (code.setWidth 32) :: s.host }

/-- Place an encoded instruction so that the next step runs it. -/
def placeInstr (e : Encoded) (s : State) : State :=
  match e with
  | .stream bits => placeStream bits s
  | .command code => placeCommand code s

end Sys2Proof.Machine
end

