-- ==== Sys2Proof/Machine/Step.lean ====
section
/-! DEFINITION. One step of the machine, and the placing of an instruction for the next step. A step is one host action
(44_host_commands.md R230), or, while `fetchFrom` is `tokenStream`, one iteration of the decode loop of R170 (log 1). -/

namespace Sys2Proof.Machine

/-- The host does its next action. A write to CMD (register 0x00) is a command and runs to completion here (R230).
The other actions work in FAULT too (log 14). -/
def hostStep (a : HostAction) (s : State) : Result :=
  match a with
  | .write reg v => if reg = 0 then exec (fetchCommand v) s else .next (portWrite reg v s)
  | .read _ => .next s
  | .load addr v => hostLoad addr v s
  | .hardReset => .next (resetMachine s)

/-- One iteration of the decode loop: the loop test of R170, then one token, fetched and run. When the test ends the loop
the machine is back at the host port. -/
def tokenStep (s : State) : Result :=
  if decodeDone s then .next { s with fetchFrom := .hostPort }
  else
    let r := fetchToken s
    exec r.1.toInstr r.2

/-- One step. With no host action pending LZD is idle and nothing changes (R322). -/
def step (s : State) : Host.Outcome State Fault Refusal :=
  match s.fetchFrom with
  | .tokenStream => tokenStep s
  | .hostPort =>
    match s.host with
    | [] => .next s
    | a :: rest => hostStep a { s with host := rest }

/-- Store the instruction of a table word where the next step fetches it (log 12, log 13). A word that no row has changes
nothing. -/
def State.withFetchWord (s : State) (nbits w : Nat) : State :=
  match tableWord nbits w with
  | some e => placeInstr e s
  | none => s

end Sys2Proof.Machine
end

