-- ==== Sys2Proof/Machine/Biu.lean ====
section
/-! DEFINITION. The byte interface unit (20_memory.md section 2 and 3): windows and the whole operation list of the
source's ByteCursor. The datapath uses only `readArchive` and `readArchiveBE` (R71); the functions here are specified for
completeness and no instruction reaches them (R247, D25). A window is a value its caller holds, not state of LZD (R45). -/

namespace Sys2Proof.Machine

/-- A window on the archive (R64): logical position `p` is the absolute address `hiddenOffset + p`; `cursor` is absolute.
`length` bounds `windowEof` only, never a read. -/
structure Window where
  hiddenOffset : Int
  length : Nat
  cursor : Int
deriving DecidableEq, Repr

/-- The window of the whole archive, which the scan reads through (R64). Where its cursor starts is not stated; it starts at
logical position 0 (DESIGN CHOICE, log 15). -/
def archiveWindow (s : State) : Window := { hiddenOffset := 0, length := s.archLen, cursor := 0 }

/-- A sub-view: other bounds over the same backing bytes (R70). Where its cursor starts is not
stated; it starts at logical position 0 (DESIGN CHOICE, log 15). -/
def subView (_w : Window) (hiddenOffset : Int) (length : Nat) : Window :=
  { hiddenOffset := hiddenOffset, length := length, cursor := hiddenOffset }

/-- `getOffset` (R69): the logical cursor. -/
def getOffset (w : Window) : Int := w.cursor - w.hiddenOffset

/-- `setOffset` (R69): any logical position is accepted (U9). -/
def setOffset (w : Window) (logicalPos : Int) : Window := { w with cursor := w.hiddenOffset + logicalPos }

/-- `eof` (R69): at or past the logical length, or before the start. -/
def windowEof (w : Window) : Bool :=
  decide ((w.length : Int) ≤ w.cursor - w.hiddenOffset) || decide (w.cursor - w.hiddenOffset < 0)

/-- An explicit logical position, when given, first repositions the cursor (R65). -/
def repositioned (w : Window) : Option Int → Window
  | none => w
  | some p => setOffset w p

/-- What a BIU read gives: the value, the window with its cursor moved, the state with its diagnostics. -/
structure BiuRead (α : Type) where
  value : α
  window : Window
  state : State
deriving DecidableEq, Repr

/-- `readByte` at the cursor (R65); the cursor advances also when the read was out of range. -/
def readByteHere (w : Window) (s : State) : BiuRead Byte :=
  let r := readArchive w.cursor s
  { value := r.1, window := { w with cursor := w.cursor + 1 }, state := r.2 }

/-- `readByte(W [, pos])` (R65). -/
def readByte (w : Window) (pos : Option Int) (s : State) : BiuRead Byte := readByteHere (repositioned w pos) s

/-- `n` successive reads of one byte, in address order. -/
def readBytesHere : Nat → Window → State → BiuRead (List Byte)
  | 0, w, s => { value := [], window := w, state := s }
  | n + 1, w, s =>
    let b := readByteHere w s
    let r := readBytesHere n b.window b.state
    { r with value := b.value :: r.value }

/-- The value of bytes whose first is the most significant (R67). -/
def bigEndian : List Byte → Nat
  | [] => 0
  | b :: bs => b.toNat * 2 ^ (8 * bs.length) + bigEndian bs

/-- The value of bytes whose first is the least significant (R67). -/
def littleEndian : List Byte → Nat
  | [] => 0
  | b :: bs => b.toNat + 2 ^ 8 * littleEndian bs

/-- `readWordBE(W [, pos])` (R66). -/
def readWordBE (w : Window) (pos : Option Int) (s : State) : BiuRead Half :=
  let r := readBytesHere 2 (repositioned w pos) s
  { value := BitVec.ofNat 16 (bigEndian r.value), window := r.window, state := r.state }

/-- `readWordLE(W [, pos])` (R66). -/
def readWordLE (w : Window) (pos : Option Int) (s : State) : BiuRead Half :=
  let r := readBytesHere 2 (repositioned w pos) s
  { value := BitVec.ofNat 16 (littleEndian r.value), window := r.window, state := r.state }

/-- `readIntBE(W, n [, pos])` (R67) for `n` in 1 to 4; any other count is refused (U9). -/
def readIntBE (w : Window) (n : Nat) (pos : Option Int) (s : State) : Except Refusal (BiuRead Nat) :=
  if 1 ≤ n ∧ n ≤ 4 then
    let r := readBytesHere n (repositioned w pos) s
    .ok { value := bigEndian r.value, window := r.window, state := r.state }
  else .error (.biuIntCount n)

/-- `readIntLE(W, n [, pos])` (R67) for `n` in 1 to 4; any other count is refused (U9). -/
def readIntLE (w : Window) (n : Nat) (pos : Option Int) (s : State) : Except Refusal (BiuRead Nat) :=
  if 1 ≤ n ∧ n ≤ 4 then
    let r := readBytesHere n (repositioned w pos) s
    .ok { value := littleEndian r.value, window := r.window, state := r.state }
  else .error (.biuIntCount n)

/-- The characters of a string, cut at the first out-of-range position with its one diagnostic (R68). -/
def readStringHere : Nat → Window → State → BiuRead (List Byte)
  | 0, w, s => { value := [], window := w, state := s }
  | n + 1, w, s =>
    let b := readByteHere w s
    if 0 ≤ w.cursor ∧ w.cursor < (s.archLen : Int) then
      let r := readStringHere n b.window b.state
      { r with value := b.value :: r.value }
    else { value := [], window := b.window, state := b.state }

/-- `readString(W, len [, pos])` (R68): the bytes of the string; the character set and the role of a zero byte are left
open (U9), so no character is made of them (log 15). -/
def readString (w : Window) (len : Nat) (pos : Option Int) (s : State) : BiuRead (List Byte) :=
  readStringHere len (repositioned w pos) s

end Sys2Proof.Machine
end

