-- ==== Sys2Proof/Machine/Assembler.lean ====
section
/-! DEFINITION. The assembler of token programs (30_encoding.md R118 to R120). A notation of the spec's own (D23) for the
streams the machine decodes; not part of the machine. -/

namespace Sys2Proof.Machine

/-- One line of a token program (R118), or a pseudo-instruction (R119). Operands are the decoded values. -/
inductive AsmLine where
  | sraw (literals : List Byte)
  | lraw (literals : List Byte)
  | sref (off : Nat)
  | refa (off : Nat)
  | refb (off : Nat)
  | refc (len off : Nat)
  /-- `RAW b1, ..., bn` for any `n` of 1 or more (R119). -/
  | raw (literals : List Byte)
  /-- `.pad k`: `k` zero bits that no token owns, 0 to 7 (R119). -/
  | pad (k : Nat)
deriving DecidableEq, Repr

/-- The operand ranges of R118 and R119. -/
def AsmLine.ok : AsmLine → Bool
  | .sraw bs => decide (1 ≤ bs.length ∧ bs.length ≤ 8)
  | .lraw bs => decide (9 ≤ bs.length ∧ bs.length ≤ 264)
  | .sref off => decide (1 ≤ off ∧ off ≤ 256)
  | .refa off => decide (1 ≤ off ∧ off ≤ 512)
  | .refb off => decide (1 ≤ off ∧ off ≤ 1024)
  | .refc len off => decide (1 ≤ len ∧ len ≤ 256 ∧ 1 ≤ off ∧ off ≤ 4096)
  | .raw bs => decide (1 ≤ bs.length)
  | .pad k => decide (k ≤ 7)

/-- Literal bytes as stream bits: each most significant bit first (R111). -/
def literalBits (bs : List Byte) : List Bool := bs.flatMap (fun b => natToBits 8 b.toNat)

/-- A token with the literals it owns (none for a back-reference), as stream bits: header, then literals (R102). -/
def tokenBits (t : Token × List Byte) : List Bool := encodeToken t.1 ++ literalBits t.2

/-- The raw token of these literals: short for at most 8, else long (R104, R109). -/
def rawToken (bs : List Byte) : Token :=
  if bs.length ≤ 8 then .sraw (BitVec.ofNat 3 (bs.length - 1)) else .lraw (BitVec.ofNat 8 (bs.length - 9))

/-- How many of `r` remaining literals the next raw token takes (R119, R261). -/
def rawTake (r : Nat) : Nat := if r ≤ 8 then r else min r 264

/-- The raw tokens that carry these literals, in stream order, each with its own (R119, R261). `fuel` bounds the number of
tokens; the number of literals is enough. -/
def rawTokens : Nat → List Byte → List (Token × List Byte)
  | 0, _ => []
  | fuel + 1, bs =>
    if bs.length = 0 then []
    else
      (rawToken (bs.take (rawTake bs.length)), bs.take (rawTake bs.length))
        :: rawTokens fuel (bs.drop (rawTake bs.length))

/-- The stream bits of a line. -/
def AsmLine.bits : AsmLine → List Bool
  | .sraw bs => tokenBits (.sraw (BitVec.ofNat 3 (bs.length - 1)), bs)
  | .lraw bs => tokenBits (.lraw (BitVec.ofNat 8 (bs.length - 9)), bs)
  | .sref off => encodeToken (.sref (BitVec.ofNat 8 (off - 1)))
  | .refa off => encodeToken (.refa (BitVec.ofNat 9 (off - 1)))
  | .refb off => encodeToken (.refb (BitVec.ofNat 10 (off - 1)))
  | .refc len off => encodeToken (.refc (BitVec.ofNat 8 (len - 1)) (BitVec.ofNat 12 (off - 1)))
  | .raw bs => (rawTokens bs.length bs).flatMap tokenBits
  | .pad k => List.replicate k false

/-- The bit list of a token program, first line decoded first (R120). -/
def assemble (program : List AsmLine) : List Bool := program.flatMap AsmLine.bits

end Sys2Proof.Machine
end

