-- ==== Sys2Proof/Machine/RefEncoder.lean ====
section
/-! DEFINITION. The reference encoder (45_reference_encoder.md): a pure function, not hardware (R260, R5), by which the
round trip of a decode is stated. -/

namespace Sys2Proof.Machine

/-- The token list the encoder emits, each token with its literals (R261, R262): raw tokens only, walking the buffer from
its end, so the literals are its bytes reversed. -/
def emittedTokens (buffer : List Byte) : List (Token × List Byte) := rawTokens buffer.length buffer.reverse

/-- The bit list of a buffer (R263): the emitted tokens' bits, one after another. -/
def encodeBits (buffer : List Byte) : List Bool := (emittedTokens buffer).flatMap tokenBits

/-- The packed bytes (R264). -/
def encodePayload (buffer : List Byte) : List Byte := packTail (encodeBits buffer)

/-- The checksum the encoder returns (R265): the XOR of the packed bytes. -/
def encodeChecksum (buffer : List Byte) : Byte := xorFold (encodePayload buffer)

/-- The bit count the encoder returns (R265, D28): 8 for every input. -/
def encodeInitialBufferLen : Nat := 8

/-- A 16-bit field as two bytes, big-endian (R115). A number of 2^16 or more, which the field cannot hold, is taken modulo
2^16 (DESIGN CHOICE, log 23). -/
def be16Bytes (v : Nat) : List Byte := [BitVec.ofNat 8 (v / 256), BitVec.ofNat 8 v]

/-- Which buffers one segment can carry (R266): both sizes must fit their 16-bit fields. -/
def encodable (buffer : List Byte) : Bool :=
  decide (buffer.length ≤ 65535) && decide ((encodePayload buffer).length + 10 ≤ 65535)

/-- The ten header bytes for an encoded buffer (R266). For a buffer that is not `encodable` the spec has no header; the
function answers ten bytes with both sizes modulo 2^16 (DESIGN CHOICE, log 23). -/
def segmentHeader (buffer : List Byte) (unknown1 unknown0 : Half) : List Byte :=
  [BitVec.ofNat 8 encodeInitialBufferLen, encodeChecksum buffer]
    ++ be16Bytes unknown1.toNat
    ++ be16Bytes buffer.length
    ++ be16Bytes unknown0.toNat
    ++ be16Bytes ((encodePayload buffer).length + 10)

/-- A whole segment: header and payload (R266). -/
def segmentBytes (buffer : List Byte) (unknown1 unknown0 : Half) : List Byte :=
  segmentHeader buffer unknown1 unknown0 ++ encodePayload buffer

/-- A container (R267): the segments in order, each buffer with its two unknown fields, then whatever trails them. -/
def containerBytes (segments : List (List Byte × Half × Half)) (trailing : List Byte) : List Byte :=
  segments.flatMap (fun g => segmentBytes g.1 g.2.1 g.2.2) ++ trailing

end Sys2Proof.Machine
end

