-- ==== Sys2Proof/Machine/TokenTrace.lean ====
section
/-! DEFINITION. The token sequence that a decode runs (R268 item 4): the loop of R170 told as the list of its tokens, each
with the literals it takes from the stream. Not part of the machine, which keeps nothing between tokens (R45). -/

namespace Sys2Proof.Machine

/-- The next `n` literal bytes of the stream (R111). -/
def literalsRead : Nat → State → List Byte
  | 0, _ => []
  | n + 1, s =>
    match bcRead 8 s with
    | (v, s1) => BitVec.ofNat 8 v :: literalsRead n s1

/-- The literals a token takes, its header read: as many as fit (R151), none for a back-reference. -/
def tokenLiterals : Token → State → List Byte
  | .sraw l, s => literalsRead (min (srawLen l) s.oau.wpos) s
  | .lraw l, s => literalsRead (min (lrawLen l) s.oau.wpos) s
  | .sref _, _ => []
  | .refa _, _ => []
  | .refb _, _ => []
  | .refc _ _, _ => []

/-- The tokens that the loop of R170 runs from a state, in order, each with its literals; `n` bounds their number as in
`tduLoop`. -/
def tokensRun : Nat → State → List (Token × List Byte)
  | 0, _ => []
  | n + 1, s =>
    if decodeDone s then []
    else
      match fetchToken s with
      | (t, s1) => (t, tokenLiterals t s1) :: tokensRun n (runToken t s1)

end Sys2Proof.Machine
end

