-- ==== Sys2Proof/Safety.lean ====
section
/-! DEFINITION. The terms the statements use: the invariant of the machine's states, the closed forms of a bit read, and
when a state holds a given archive. -/

namespace Sys2Proof.Machine

/-! ## The invariant -/

/-- Every listed address lies in `[lo, hi)`. -/
def Memory.within (lo hi : Nat) (m : Memory) : Bool := m.all fun c => decide (lo ≤ c.1) && decide (c.1 < hi)

/-- The BCU invariants of R27 (i) to (iii), and the widths of R21 and R22 (R22: at most 65525 from a header). -/
def Bcu.ok (cfg : Config) (b : Bcu) : Bool :=
  decide (b.rem ≤ 8) && decide (-1 ≤ b.pos) && decide (b.pos + 1 ≤ (b.len : Int))
    && (b.pos != -1 || (b.rem == 0 && b.buf == 0))
    && decide (b.base < 2 ^ (cfg.aw + 1)) && decide (b.len < max (2 ^ cfg.aw) 65526)

/-- The OAU invariants of R31 (i) and (ii), and OMEM in canonical form inside the written part (nothing
listed at or above OA_LEN: the model's choice, log 24). -/
def Oau.ok (cfg : Config) (o : Oau) : Bool :=
  decide (o.wpos ≤ o.len) && decide (o.len ≤ cfg.omax) && Memory.wf o.omem && Memory.within o.wpos o.len o.omem

/-- A cached payload has the declared length (R36, R38). -/
def Descriptor.cacheOk (d : Descriptor) : Bool :=
  match d.cache with
  | none => true
  | some data => data.length == d.decompressedSize.toNat

/-- The descriptor invariants of R35 to R37 from entry `i`, whose header is at `h`: consecutive segments are contiguous,
each header lies inside the archive, and the scan stopped where the last segment ends. -/
def tableOk (archLen scanPos : Nat) : Nat → Nat → List Descriptor → Bool
  | _, h, [] => h == scanPos
  | i, h, d :: ds =>
    d.index == i && d.offset == h + 10 && decide (h + 10 ≤ archLen) && decide (d.compressedSize.toNat ≤ 65525)
      && d.cacheOk && tableOk archLen scanPos (i + 1) (h + 10 + d.compressedSize.toNat) ds

/-- FAULTCODE is 0 exactly when STATUS.FAULT is 0, else one of the three codes (R41, R292 to R294). -/
def faultOk (s : State) : Bool := s.fault == (s.faultCode != 0) && decide (s.faultCode.toNat ≤ 3)

/-- An invalid latch is all 0 (R46, R231, R233, R234). -/
def DescLatch.ok (l : DescLatch) : Bool := l.valid || l == DescLatch.clear

/-- Without `MEMOIZE` no descriptor ever holds a cache (R208). -/
def memoOk (s : State) : Bool := s.cfg.memoize || s.dtab.all fun d => d.cache.isNone

/-- The invariant of the machine. Every state a run from reset meets has it. -/
def Inv (s : State) : Bool :=
  s.cfg.ok
    && Memory.wf s.amem && Memory.within 0 (2 ^ s.cfg.aw) s.amem && decide (s.archLen < 2 ^ s.cfg.aw)
    && tableOk s.archLen s.scanPos 0 0 s.dtab && memoOk s
    && s.bcu.ok s.cfg && s.oau.ok s.cfg
    && decide (s.rbuf.length ≤ s.cfg.omax) && s.latch.ok
    && s.diag &&& diagFlagBits == s.diag
    && faultOk s

/-! ## Frames -/

/-- `t` is `s` but for the bit cursor and the diagnostics: all a bit read touches. -/
def CursorOnly (s t : State) : Prop := t = { s with bcu := t.bcu, diag := t.diag }

/-- `t` is `s` but for the bit cursor, the output assembler and the diagnostics: all a token touches. -/
def DatapathOnly (s t : State) : Prop := t = { s with bcu := t.bcu, oau := t.oau, diag := t.diag }

/-! ## A bit read in closed form -/

/-- The next `n` stream bits; a missing bit is 0 (R133). -/
def nextBits (n : Nat) (s : State) : List Bool := (streamBits s ++ List.replicate n false).take n

/-- The byte that a pull at logical index `p` of the range fetches (R131). -/
def rangeByte (s : State) (p : Nat) : Byte := (readArchive ((s.bcu.base : Int) + p) s).1

/-- How many bytes `n` more bits pull, if they are there (R131, lazy). -/
def pullsFor (n : Nat) (s : State) : Nat := (n - s.bcu.rem + 7) / 8

/-- The cursor after `n` more bits (R131 to R133): inside the buffer it shifts; else the bytes needed are pulled and folded
into the checksum; when they are not all there the cursor is exhausted. -/
def cursorAfter (n : Nat) (s : State) : Bcu :=
  if n ≤ s.bcu.rem then { s.bcu with buf := s.bcu.buf >>> n, rem := s.bcu.rem - n }
  else if pullsFor n s ≤ s.bcu.pos.toNat then
    { s.bcu with
      pos := ((s.bcu.pos.toNat - pullsFor n s : Nat) : Int)
      buf := rangeByte s (s.bcu.pos.toNat - pullsFor n s) >>> (8 - (8 * pullsFor n s - (n - s.bcu.rem)))
      rem := 8 * pullsFor n s - (n - s.bcu.rem)
      sum := s.bcu.sum ^^^ sumOfRange s (s.bcu.pos.toNat - pullsFor n s) (pullsFor n s) }
  else { s.bcu with pos := -1, buf := 0, rem := 0, sum := s.bcu.sum ^^^ sumOfRange s 0 s.bcu.pos.toNat }

/-- A flag of DIAG under a condition. -/
def flagIf (c : Bool) (f : DiagFlag) : BitVec 16 := if c then f.mask else 0

/-- The diagnostics that `n` more bits raise (R281, R282): OOR_READ when the first byte pulled lies beyond the archive,
BIT_UNDERRUN when fewer than `n` bits are left. -/
def readDiag (n : Nat) (s : State) : BitVec 16 :=
  flagIf (decide (s.bcu.rem < n ∧ 0 < s.bcu.pos ∧ (s.archLen : Int) < s.bcu.base + s.bcu.pos)) .oorRead
    ||| flagIf (decide (bitsLeft s < n)) .bitUnderrun

/-- The `j`-th literal byte, `j` from 1, of the stream behind the next `h` bits: first bit most significant (R111). -/
def literalAhead (h j : Nat) (s : State) : Byte :=
  BitVec.ofNat 8 (bitsToNat ((nextBits (h + 8 * j) s).drop (h + 8 * (j - 1))))

/-- A byte with its bit order reversed (R136). -/
def rev8 (b : Byte) : Byte := BitVec.ofNat 8 (bitsToNat (bitsOfByte b))

/-- The checksum law of R27 (iv) and R135: BC_SUM is the XOR of the byte values from the lowest index pulled so far up to
the end of the range. -/
def checksumLaw (s : State) : Bool :=
  s.bcu.sum == sumOfRange s s.bcu.pos.toNat (s.bcu.len - s.bcu.pos.toNat)

/-! ## The two copies -/

/-- `t` is `s` after `h` header bits and a raw copy of `n` bytes (R151, R172, R177): of the `n` bytes those that fit are
copied, the first literal highest; nothing but the two units and DIAG changes, and no other byte of OMEM. -/
def RawCopied (h n : Nat) (s t : State) : Prop :=
  t = { s with
        bcu := cursorAfter (h + 8 * min n s.oau.wpos) s
        oau := { s.oau with wpos := s.oau.wpos - min n s.oau.wpos, omem := t.oau.omem }
        diag := s.diag ||| readDiag (h + 8 * min n s.oau.wpos) s ||| flagIf (decide (s.oau.wpos < n)) .rawClamp }
  ∧ t.oau.omem.wf = true
  ∧ ∀ i, readOutput i t =
      if s.oau.wpos - min n s.oau.wpos ≤ i ∧ i < s.oau.wpos then literalAhead h (s.oau.wpos - i) s else readOutput i s

/-- `t` is `s` after `h` header bits and a back-reference copy of `n` bytes from `offset` above (R152, R173 to R176): each
byte copied equals the byte `offset` above it, in the buffer as the copy leaves it, 0 beyond the buffer; nothing but the
two units and DIAG changes, and no other byte of OMEM. -/
def RefCopied (h n offset : Nat) (s t : State) : Prop :=
  t = { s with
        bcu := cursorAfter h s
        oau := { s.oau with wpos := s.oau.wpos - min n s.oau.wpos, omem := t.oau.omem }
        diag := s.diag ||| readDiag h s ||| flagIf (decide (s.oau.wpos < n)) .refClamp
                  ||| flagIf (decide (0 < min n s.oau.wpos ∧ s.oau.len < s.oau.wpos + offset)) .refOor }
  ∧ t.oau.omem.wf = true
  ∧ ∀ i, readOutput i t =
      if s.oau.wpos - min n s.oau.wpos ≤ i ∧ i < s.oau.wpos then
        (if i + offset < s.oau.len then readOutput (i + offset) t else 0)
      else readOutput i s

/-! ## The decode -/

/-- The decode loop of R170 from a state in which both units are constructed. -/
def decodeAll (s : State) : State := tduLoop s.oau.wpos s

/-- Both units constructed as a decode of these arguments constructs them (R170). -/
def constructUnits (offset compressedSize decompressedSize initialBitCount : Nat) (s : State) : State :=
  oaConstruct decompressedSize (bcConstruct offset compressedSize initialBitCount s)

/-- The tokens that a decode of these arguments runs, each with its literals. -/
def decodedTokens (offset compressedSize decompressedSize initialBitCount : Nat) (s : State) : List (Token × List Byte) :=
  tokensRun decompressedSize (constructUnits offset compressedSize decompressedSize initialBitCount s)

/-- The diagnostics a well-formed stream does not raise (R181): OOR_READ, BIT_UNDERRUN, RAW_CLAMP, REF_CLAMP, REF_OOR,
INITLEN_RANGE. -/
def malformedBits : BitVec 16 := 0x009F

/-- A well-formed stream (R181): the decode fills the output, raises none of those diagnostics, and pulls every byte of the
payload. -/
def streamWellFormed (offset compressedSize decompressedSize initialBitCount : Nat) (s : State) : Bool :=
  let t := decodeAll (constructUnits offset compressedSize decompressedSize initialBitCount { s with diag := 0 })
  t.oau.wpos == 0 && t.diag &&& malformedBits == 0 && t.bcu.pos == 0

/-- What a descriptor has cached is what its segment decodes to now (R38, R327). -/
def cacheFresh (d : Descriptor) (s : State) : Prop :=
  ∀ data, d.cache = some data → data = outputBytes (decodeDescriptor d s)

/-! ## Archives -/

/-- The archive bytes from `base` on are these. -/
def Stored (s : State) (base : Nat) (bytes : List Byte) : Prop :=
  ∀ k (h : k < bytes.length), s.amem.get (base + k) = bytes[k]

/-- The archive bytes from `base` on are these, and they lie inside the archive. -/
def Holds (s : State) (base : Nat) (bytes : List Byte) : Prop :=
  base + bytes.length ≤ s.archLen ∧ Stored s base bytes

/-- A header as the ten bytes at `h` give it (R115). -/
def headerAt (s : State) (h : Nat) : Header :=
  { initialBufferLen := s.amem.get h
    checksum := s.amem.get (h + 1)
    unknown1 := be16 (s.amem.get (h + 2)) (s.amem.get (h + 3))
    decompressedSize := be16 (s.amem.get (h + 4)) (s.amem.get (h + 5))
    unknown0 := be16 (s.amem.get (h + 6)) (s.amem.get (h + 7))
    totalSegmentSize := be16 (s.amem.get (h + 8)) (s.amem.get (h + 9)) }

/-- The descriptors from entry `i` on are those of the valid headers found from address `h` on, each where the one before
it leads, up to `SCANPOS` (R201 to R205). -/
def tableMatches (s : State) : Nat → Nat → List Descriptor → Prop
  | _, h, [] => h = s.scanPos
  | i, h, d :: ds =>
    h + 10 ≤ s.archLen ∧ 10 ≤ (headerAt s h).totalSegmentSize.toNat ∧ d = descriptorOf i h (headerAt s h)
      ∧ tableMatches s (i + 1) (h + (headerAt s h).totalSegmentSize.toNat) ds

/-- What follows the last segment of a container ends the scan (R267): fewer than ten bytes, or a header whose size is
below ten. -/
def endsScan (trailing : List Byte) : Bool :=
  decide (trailing.length < 10) || decide ((be16 (trailing.getD 8 0) (trailing.getD 9 0)).toNat < 10)

/-- A descriptor without its cache: the fields that never change (R36). -/
def Descriptor.fixed (d : Descriptor) : Descriptor := { d with cache := none }

/-- The host's next action is a command write of this code. -/
def nextCommand (s : State) (code : Byte) : Prop :=
  ∃ v rest, s.fetchFrom = .hostPort ∧ s.host = .write 0 v :: rest ∧ v.setWidth 8 = code

/-- The host's next action is one of the two resets (R320). -/
def nextReset (s : State) : Prop :=
  nextCommand s 0x00 ∨ ∃ rest, s.fetchFrom = .hostPort ∧ s.host = .hardReset :: rest

end Sys2Proof.Machine
end

