-- ==== Sys2Proof/Certificates/Slice0/Obligations.lean ====
section
/-! DEFINITION. The statements for the provers. `R<n>` is a rule of spec/, `D<n>` a decision the spec takes (92), `log <n>` an
entry of the assumption log. A rule the spec marks "[derived: ...]" is its own inference: the statement names it and cites
the rules it is drawn from. `s.bcu.rem ≤ 8` and the canonical form of OMEM are parts of `Inv`, which every step keeps. -/

open Sys2Proof Sys2Proof.Machine

/-! ## Encoding -/

/-- Decode and encode agree, for every well-formed instruction, every field value and every continuation of the stream
(R103 to R110, R117). -/
def Obligations.DecodeEncodeAgree : Prop :=
  ∀ i : Instr, i.wellFormed = true →
    (∀ bits, encode i = .stream bits → ∀ rest, decode (.stream (bits ++ rest)) = .ok (i, rest)) ∧
    (∀ code, encode i = .command code → decode (.command code) = .ok (i, []))

/-- The other direction: what the decoder reads from bits encodes to those bits, and every command code is the code of
the one well-formed instruction it decodes to (R103 to R109, R117). -/
def Obligations.DecodedBitsEncodeBack : Prop :=
  (∀ bs t rest, decodeToken bs = .ok (t, rest) → encodeToken t ++ rest = bs) ∧
  (∀ code : Byte, encode (decodeCommand code) = .command code ∧ (decodeCommand code).wellFormed = true)

/-- The token code is a complete prefix code: 23 bits always hold a whole header, and no header continues another. The
spec's own inference R112 from R103; that a list ending inside a header is rejected is the model's decoder of lists. -/
def Obligations.TokenCodeIsCompletePrefixCode : Prop :=
  (∀ bs : List Bool, 23 ≤ bs.length → ∃ t rest, decodeToken bs = .ok (t, rest)) ∧
  (∀ t u rest rest', encodeToken t ++ rest = encodeToken u ++ rest' → t = u ∧ rest = rest')

/-- The header of each token as a number, first bit most significant: the selector and the fields at the places that
R104 to R109 give them, the length of REFC above its offset. -/
def Obligations.HeaderFieldPlaces : Prop :=
  (∀ l, bitsToNat (encodeToken (.sraw l)) = l.toNat ∧ (encodeToken (.sraw l)).length = 5) ∧
  (∀ o, bitsToNat (encodeToken (.sref o)) = 0x100 + o.toNat ∧ (encodeToken (.sref o)).length = 10) ∧
  (∀ o, bitsToNat (encodeToken (.refa o)) = 0x800 + o.toNat ∧ (encodeToken (.refa o)).length = 12) ∧
  (∀ o, bitsToNat (encodeToken (.refb o)) = 0x1400 + o.toNat ∧ (encodeToken (.refb o)).length = 13) ∧
  (∀ l o, bitsToNat (encodeToken (.refc l o)) = 0x600000 + 2 ^ 12 * l.toNat + o.toNat ∧
    (encodeToken (.refc l o)).length = 23) ∧
  (∀ l, bitsToNat (encodeToken (.lraw l)) = 0x700 + l.toNat ∧ (encodeToken (.lraw l)).length = 11)

/-- Words written out from the patterns of R104 to R109 and the codes of R117 decode to their instructions. -/
def Obligations.SampleWordsDecode : Prop :=
  decodeToken [false, false, false, true, false] = .ok (.sraw 2, []) ∧
  decodeToken [false, true, false, false, false, false, false, false, false, true] = .ok (.sref 1, []) ∧
  decodeToken [true, false, false, true, false, false, false, false, false, false, true, false] = .ok (.refa 258, []) ∧
  decodeToken [true, false, true, true, false, false, false, false, false, false, false, true, true]
    = .ok (.refb 515, []) ∧
  decodeToken [true, true, false, false, false, false, false, false, true, true, false,
      false, false, false, false, false, false, false, false, false, false, false, true] = .ok (.refc 6 1, []) ∧
  decodeToken [true, true, true, true, true, true, true, true, true, true, true] = .ok (.lraw 255, []) ∧
  decodeCommand 0x05 = .segdec ∧ decodeCommand 0x11 = .bcRead ∧ decodeCommand 0x22 = .oaRef ∧
  decodeCommand 0x06 = .unassigned 0x06

/-! ## The step -/

/-- A step runs the token that the stream at the bit cursor holds, missing bits read as 0 (R170, R171, R133): the state
the token runs in is `s` with exactly the header's bits consumed. The loop test of R170 comes first; when it ends the
loop the step goes back to the host port (the model's choice, log 1). -/
def Obligations.StepRunsDecodedToken : Prop :=
  (∀ s t rest, s.fetchFrom = .tokenStream → s.bcu.rem ≤ 8 → decodeDone s = false →
    decodeToken (nextBits 23 s) = .ok (t, rest) →
    step s = exec t.toInstr
      { s with
        bcu := cursorAfter (encodeToken t).length s
        diag := s.diag ||| readDiag (encodeToken t).length s }) ∧
  (∀ s, s.fetchFrom = .tokenStream → decodeDone s = true → step s = .next { s with fetchFrom := .hostPort })

/-- A step runs the command that the host's next action writes to CMD; bits 31:8 of the write do not matter (R117,
R230). -/
def Obligations.StepRunsWrittenCommand : Prop :=
  ∀ (i : Instr) (s : State) (v : Word) (rest : List HostAction),
    s.fetchFrom = .hostPort → s.host = .write 0x00 v :: rest → i.wellFormed = true →
    encode i = .command (v.setWidth 8) → step s = exec i { s with host := rest }

/-- Fetching a token from the bit cursor gives what the decoder of bit lists reads from the next 23 bits of the stream,
and consumes exactly its header (R103, R171, R325): the read sequence of R103 against the bits of R73. -/
def Obligations.FetchReadsTheStream : Prop :=
  ∀ s : State, s.bcu.rem ≤ 8 → ∃ t rest,
    decodeToken (nextBits 23 s) = .ok (t, rest) ∧
    fetchToken s =
      (t, { s with
            bcu := cursorAfter (encodeToken t).length s
            diag := s.diag ||| readDiag (encodeToken t).length s })

/-- What a step does for each of the host's other actions (R43, R230, R320, R322, R323): idle, a write to an argument
register, an ignored write, a read, a load, a hardware reset. The list of actions is the model's (DESIGN CHOICE, log 2); that argument
writes and loads take effect in FAULT too is read from R246 by inference (DEDUCED, log 14); that a load outside the
address space stops the model is its own choice (DESIGN CHOICE, log 4). -/
def Obligations.HostActionsEffect : Prop :=
  ∀ s : State, s.fetchFrom = .hostPort →
    (s.host = [] → step s = .next s) ∧
    (∀ v rest, s.host = .write 0x01 v :: rest → step s = .next { s with host := rest, arg0 := v }) ∧
    (∀ v rest, s.host = .write 0x02 v :: rest → step s = .next { s with host := rest, arg1 := v }) ∧
    (∀ v rest, s.host = .write 0x03 v :: rest → step s = .next { s with host := rest, arg2 := v }) ∧
    (∀ v rest, s.host = .write 0x04 v :: rest → step s = .next { s with host := rest, arg3 := v }) ∧
    (∀ v rest, s.host = .write 0x05 v :: rest → step s = .next { s with host := rest, arg4 := v }) ∧
    (∀ reg v rest, 6 ≤ reg → s.host = .write reg v :: rest → step s = .next { s with host := rest }) ∧
    (∀ reg rest, s.host = .read reg :: rest → step s = .next { s with host := rest }) ∧
    (∀ a v rest, s.host = .load a v :: rest → a < 2 ^ s.cfg.aw →
      step s = .next { s with host := rest, amem := s.amem.set a v }) ∧
    (∀ a v rest, s.host = .load a v :: rest → 2 ^ s.cfg.aw ≤ a → step s = .fault (.noSuchAddress a)) ∧
    (∀ rest, s.host = .hardReset :: rest →
      step s = .next { State.reset with cfg := s.cfg, amem := s.amem, host := rest })

/-! ## Registers and reset -/

/-- What the host reads at each register number (R43): CMD and every reserved number read 0, BC_POS reads sign-extended,
the others zero-extended, STATUS with FAULTCODE in its top byte (R40); the reads of values below 2^32 (log 8 for the
rest). -/
def Obligations.PortReads : Prop :=
  ∀ s : State,
    portRead 0x00 s = 0 ∧ portRead 0x01 s = s.arg0 ∧ portRead 0x02 s = s.arg1 ∧ portRead 0x03 s = s.arg2 ∧
    portRead 0x04 s = s.arg3 ∧ portRead 0x05 s = s.arg4 ∧ portRead 0x06 s = s.res0 ∧
    (portRead 0x07 s).toNat =
      s.fault.toNat + 2 * s.scanned.toNat + 4 * s.csumOk.toNat + 8 * (bcEof s).toNat + 16 * (oaEof s).toNat
        + 2 ^ 24 * s.faultCode.toNat ∧
    (portRead 0x08 s).toNat = s.diag.toNat % 2 ^ 9 ∧
    (s.archLen < 2 ^ 32 → (portRead 0x09 s).toNat = s.archLen) ∧
    (s.scanPos < 2 ^ 32 → (portRead 0x0A s).toNat = s.scanPos) ∧
    (s.dtab.length < 2 ^ 32 → (portRead 0x0B s).toNat = s.dtab.length) ∧
    (s.bcu.base < 2 ^ 32 → (portRead 0x10 s).toNat = s.bcu.base) ∧
    (s.bcu.len < 2 ^ 32 → (portRead 0x11 s).toNat = s.bcu.len) ∧
    (s.bcu.pos = -1 → portRead 0x12 s = 0xFFFFFFFF) ∧
    (0 ≤ s.bcu.pos → s.bcu.pos < 2 ^ 32 → ((portRead 0x12 s).toNat : Int) = s.bcu.pos) ∧
    (portRead 0x13 s).toNat = s.bcu.buf.toNat ∧
    (s.bcu.rem ≤ 8 → (portRead 0x14 s).toNat = s.bcu.rem) ∧
    (portRead 0x15 s).toNat = s.bcu.sum.toNat ∧
    (s.oau.len < 2 ^ 32 → (portRead 0x18 s).toNat = s.oau.len) ∧
    (s.oau.wpos < 2 ^ 32 → (portRead 0x19 s).toNat = s.oau.wpos) ∧
    (s.latch.index < 2 ^ 32 → (portRead 0x20 s).toNat = s.latch.index) ∧
    (s.latch.offset < 2 ^ 32 → (portRead 0x21 s).toNat = s.latch.offset) ∧
    (portRead 0x22 s).toNat = s.latch.csize.toNat ∧ (portRead 0x23 s).toNat = s.latch.dsize.toNat ∧
    (portRead 0x24 s).toNat = s.latch.sum.toNat ∧ (portRead 0x25 s).toNat = s.latch.initlen.toNat ∧
    (portRead 0x26 s).toNat = s.latch.unk1.toNat ∧ (portRead 0x27 s).toNat = s.latch.unk0.toNat ∧
    (portRead 0x28 s).toNat = s.latch.valid.toNat + 2 * s.latch.cached.toNat ∧
    (∀ reg, 0x0C ≤ reg ∧ reg ≤ 0x0F ∨ 0x16 ≤ reg ∧ reg ≤ 0x17 ∨ 0x1A ≤ reg ∧ reg ≤ 0x1F ∨ 0x29 ≤ reg →
      portRead reg s = 0)

/-- The STATUS and DIAG registers as the host reads them (R39, R40, R41, R42, R43; 93 section C for STATUS bits 23:16): every
bit. -/
def Obligations.StatusAndDiagWords : Prop :=
  ∀ s : State,
    (portRead 0x07 s).getLsbD 0 = s.fault ∧ (portRead 0x07 s).getLsbD 1 = s.scanned ∧
    (portRead 0x07 s).getLsbD 2 = s.csumOk ∧
    (portRead 0x07 s).getLsbD 3 = decide (s.bcu.rem = 0 ∧ s.bcu.pos ≤ 0) ∧
    (portRead 0x07 s).getLsbD 4 = decide (s.oau.wpos ≤ 0) ∧
    (∀ i, 5 ≤ i → i < 24 → (portRead 0x07 s).getLsbD i = false) ∧
    (∀ i, i < 8 → (portRead 0x07 s).getLsbD (24 + i) = s.faultCode.getLsbD i) ∧
    (∀ i, i < 9 → (portRead 0x08 s).getLsbD i = s.diag.getLsbD i) ∧
    (∀ i, 9 ≤ i → (portRead 0x08 s).getLsbD i = false)

/-- The state after reset (R46, R321): each register at the value of the table, read where R43 puts it; no valid index of
OMEM, an empty table, an empty RBUF. -/
def Obligations.ResetValues : Prop :=
  (∀ reg, reg ≠ 0x07 → reg ≠ 0x12 → portRead reg State.reset = 0) ∧
  portRead 0x12 State.reset = 0xFFFFFFFF ∧ portRead 0x07 State.reset = 0x18 ∧
  State.reset.dtab = [] ∧ State.reset.rbuf = [] ∧ State.reset.oau.len = 0 ∧
  State.reset.diag = 0 ∧ State.reset.faultCode = 0 ∧ State.reset.latch.valid = false

/-- Every command has a defined result straight after reset (R231, R236, R239, R243, R244, R245 and the spec's own inference
R322 from R321): COUNT gives 0; GETSEG and GETDESC take the out-of-range path for every index; a bit read of any legal
count gives 0 with BIT_UNDERRUN; the end tests give 1; OA_RAW and OA_REF clamp any count above 0 to 0, OA_REF after the
underrun of its offset; SEGDEC runs against an archive of length 0, every byte 0 with OOR_READ (two bytes of output
from one byte of payload); SCAN of fewer than ten bytes finds nothing; BC_INIT primes a byte outside the archive, or
nothing; OA_INIT makes an empty buffer of its length (no cell listed: at and above OA_LEN the model's choice, log 24);
CLRDIAG and SRESET change nothing. -/
def Obligations.CommandsStraightAfterReset : Prop :=
  exec .count State.reset = .next State.reset ∧
  (∀ n, exec .getseg { State.reset with arg0 := n } =
    .next { State.reset with arg0 := n, diag := DiagFlag.segIndex.mask }) ∧
  (∀ n, exec .getdesc { State.reset with arg0 := n } =
    .next { State.reset with arg0 := n, diag := DiagFlag.segIndex.mask }) ∧
  (∀ n : Word, 1 ≤ n.toNat → n.toNat ≤ 32 →
    exec .bcRead { State.reset with arg0 := n } =
      .next { State.reset with arg0 := n, diag := DiagFlag.bitUnderrun.mask }) ∧
  exec .bcEof State.reset = .next { State.reset with res0 := 1 } ∧
  exec .oaEof State.reset = .next { State.reset with res0 := 1 } ∧
  (∀ n : Word, 1 ≤ n.toNat →
    exec .oaRaw { State.reset with arg0 := n } =
      .next { State.reset with arg0 := n, diag := DiagFlag.rawClamp.mask }) ∧
  (∀ n w : Word, 1 ≤ n.toNat → 1 ≤ w.toNat → w.toNat ≤ 32 →
    exec .oaRef { State.reset with arg0 := n, arg1 := w } =
      .next { State.reset with
        arg0 := n, arg1 := w, diag := DiagFlag.bitUnderrun.mask ||| DiagFlag.refClamp.mask }) ∧
  (∃ t, exec .segdec { State.reset with arg1 := 1, arg2 := 2, arg4 := 8 } = .next t ∧ t.rbuf = [0, 0] ∧
    hasDiag t .oorRead = true) ∧
  (∀ n : Word, n.toNat < 10 →
    exec .scan { State.reset with arg0 := n } =
      .next { State.reset with arg0 := n, archLen := n.toNat, scanned := true }) ∧
  (∀ n : Word, exec .bcInit { State.reset with arg0 := n, arg2 := 8 } =
    .next { State.reset with
      arg0 := n, arg2 := 8, bcu := { State.reset.bcu with base := n.toNat }, diag := DiagFlag.bitUnderrun.mask }) ∧
  (∀ n k : Word, 1 ≤ k.toNat →
    exec .bcInit { State.reset with arg0 := n, arg1 := k, arg2 := 8 } =
      .next { State.reset with
        arg0 := n, arg1 := k, arg2 := 8
        bcu := { base := n.toNat, len := k.toNat, pos := (k.toNat : Int) - 1, buf := 0, rem := 8, sum := 0 }
        diag := DiagFlag.oorRead.mask }) ∧
  (∀ n : Word, n.toNat ≤ 65535 →
    exec .oaInit { State.reset with arg0 := n } =
      .next { State.reset with arg0 := n, oau := { len := n.toNat, wpos := n.toNat, omem := [] } }) ∧
  exec .clrdiag State.reset = .next State.reset ∧
  exec .sreset State.reset = .next State.reset ∧
  (∀ code, exec (.unassigned code) State.reset = .next { State.reset with fault := true, faultCode := 2 })

/-! ## Memories -/

/-- An archive read outside [0, ARCHLEN) gives 0 and the diagnostic OOR_READ and changes nothing else; inside it gives
the byte and changes nothing (R61). -/
def Obligations.ArchiveReadFallback : Prop :=
  ∀ (a : Int) (s : State),
    (0 ≤ a → a < (s.archLen : Int) → readArchive a s = (s.amem.get a.toNat, s)) ∧
    (a < 0 ∨ (s.archLen : Int) ≤ a → readArchive a s = (0, { s with diag := s.diag ||| 0x0001 }))

/-- A byte written to a memory is read back, every other byte is as before, and the memory keeps its canonical form
(R62). -/
def Obligations.MemoryReadAfterWrite : Prop :=
  ∀ (m : Memory) (a : Nat) (v : Byte), m.wf = true →
    (m.set a v).wf = true ∧ (m.set a v).get a = v ∧ ∀ b, b ≠ a → (m.set a v).get b = m.get b

/-- The 16-bit reads of the BIU (R66, R65): two reads of one byte in address order, from the given position or else from the
cursor; the cursor advances by two; big-endian and little-endian values of the same two bytes. -/
def Obligations.BiuWordReads : Prop :=
  ∀ (w : Window) (pos : Option Int) (s : State),
    let c := match pos with
      | none => w.cursor
      | some p => w.hiddenOffset + p
    let a := readArchive c s
    let b := readArchive (c + 1) a.2
    readWordBE w pos s = { value := be16 a.1 b.1, window := { w with cursor := c + 2 }, state := b.2 } ∧
    readWordLE w pos s = { value := be16 b.1 a.1, window := { w with cursor := c + 2 }, state := b.2 }

/-! ## The bit cursor -/

/-- BC_INIT (R130, R236): the whole state it leaves, for every range and every bit count, and the fault for an offset of
2^(AW+1) or more or a length of 2^AW or more. That BC_BASE holds an accepted offset of 2^AW or more whole, though R21
gives it AW bits, is the model's inference (DEDUCED, log 7). -/
def Obligations.BcInitEffect : Prop :=
  ∀ s : State, s.fault = false →
    (s.arg0.toNat < 2 ^ (s.cfg.aw + 1) → s.arg1.toNat < 2 ^ s.cfg.aw → s.arg1.toNat = 0 →
      exec .bcInit s =
        .next { s with
          bcu := { base := s.arg0.toNat, len := 0, pos := -1, buf := 0, rem := 0, sum := 0 }
          diag := s.diag ||| flagIf (decide (s.arg2.toNat < 1 ∨ 8 < s.arg2.toNat)) .initlenRange
                    ||| DiagFlag.bitUnderrun.mask }) ∧
    (s.arg0.toNat < 2 ^ (s.cfg.aw + 1) → s.arg1.toNat < 2 ^ s.cfg.aw → 1 ≤ s.arg1.toNat →
      exec .bcInit s =
        .next { s with
          bcu := { base := s.arg0.toNat, len := s.arg1.toNat, pos := (s.arg1.toNat : Int) - 1
                   buf := (readArchive (s.arg0.toNat + s.arg1.toNat - 1 : Nat) s).1
                   rem := min s.arg2.toNat 8
                   sum := (readArchive (s.arg0.toNat + s.arg1.toNat - 1 : Nat) s).1 }
          diag := s.diag ||| flagIf (decide (s.arg2.toNat < 1 ∨ 8 < s.arg2.toNat)) .initlenRange
                    ||| flagIf (decide (s.archLen < s.arg0.toNat + s.arg1.toNat)) .oorRead }) ∧
    (2 ^ (s.cfg.aw + 1) ≤ s.arg0.toNat ∨ 2 ^ s.cfg.aw ≤ s.arg1.toNat →
      exec .bcInit s = .next { s with fault := true, faultCode := 3 })

/-- BC_READ (R132, R237) in closed form: RES0 is the next bits of the stream, first bit most significant, missing bits 0;
the cursor, the checksum and the diagnostics are those of the bytes the read needs; a count outside 1 to 32 faults and
changes neither RES0 nor the cursor. -/
def Obligations.BcReadEffect : Prop :=
  ∀ s : State, s.fault = false → s.bcu.rem ≤ 8 →
    (1 ≤ s.arg0.toNat → s.arg0.toNat ≤ 32 →
      exec .bcRead s =
        .next { s with
          bcu := cursorAfter s.arg0.toNat s
          res0 := BitVec.ofNat 32 (bitsToNat (nextBits s.arg0.toNat s))
          diag := s.diag ||| readDiag s.arg0.toNat s }) ∧
    (s.arg0.toNat = 0 ∨ 32 < s.arg0.toNat → exec .bcRead s = .next { s with fault := true, faultCode := 1 })

/-- One bit (R131, R132, R133). A bit in the buffer is taken and no byte is fetched; with an empty buffer the byte below
is pulled and folded into the checksum once; with no byte below the bit is 0, the cursor is exhausted, nothing is read,
and the next bit does the same again. -/
def Obligations.OneBitRead : Prop :=
  ∀ s : State,
    (s.bcu.rem ≠ 0 →
      bcReadBit s =
        (s.bcu.buf.getLsbD 0, { s with bcu := { s.bcu with buf := s.bcu.buf >>> 1, rem := s.bcu.rem - 1 } })) ∧
    (s.bcu.rem = 0 → 0 < s.bcu.pos →
      bcReadBit s =
        ((readArchive (s.bcu.base + (s.bcu.pos - 1)) s).1.getLsbD 0,
         { s with
           bcu := { s.bcu with
             pos := s.bcu.pos - 1
             buf := (readArchive (s.bcu.base + (s.bcu.pos - 1)) s).1 >>> 1
             rem := 7
             sum := s.bcu.sum ^^^ (readArchive (s.bcu.base + (s.bcu.pos - 1)) s).1 }
           diag := (readArchive (s.bcu.base + (s.bcu.pos - 1)) s).2.diag })) ∧
    (s.bcu.rem = 0 → s.bcu.pos ≤ 0 →
      bcReadBit s =
        (false, { s with bcu := { s.bcu with pos := -1, buf := 0 }, diag := s.diag ||| DiagFlag.bitUnderrun.mask }) ∧
      bcReadBit (bcReadBit s).2 = (false, (bcReadBit s).2))

/-- How a field is split into reads is unobservable (the spec's own inference R137 from R132, R133): two reads give the
value, the cursor and the diagnostics of one read of their sum, underrun included. -/
def Obligations.ReadComposition : Prop :=
  ∀ (a b : Nat) (s : State),
    bcRead (a + b) s =
      ((bcRead a s).1 * 2 ^ b + (bcRead b (bcRead a s).2).1, (bcRead b (bcRead a s).2).2) ∧
    (bcRead b s).1 < 2 ^ b

/-- A read of eight bits of a whole byte gives the byte with its bit order reversed (the spec's own inference R136 from
R132): from the buffer just primed with eight bits, and from the byte below an empty buffer. -/
def Obligations.ByteReadReverses : Prop :=
  ∀ s : State,
    (s.bcu.rem = 8 → (bcRead 8 s).1 = (rev8 s.bcu.buf).toNat) ∧
    (s.bcu.rem = 0 → 0 < s.bcu.pos → (bcRead 8 s).1 = (rev8 (rangeByte s (s.bcu.pos.toNat - 1))).toNat)

/-- The order of the token stream (R73, the closed form the spec derives from R130 to R132): after BC.INIT the unread bits
are the low bits of the last byte, then the bytes below, last first, each from bit 0 up; and a read consumes them from
the front. -/
def Obligations.StreamOrder : Prop :=
  (∀ (start len count : Nat) (s : State), 1 ≤ len →
    (streamBits (bcConstruct start len count s)).length = min count 8 + 8 * (len - 1) ∧
    (∀ k, k < min count 8 →
      (streamBits (bcConstruct start len count s))[k]? =
        some ((readArchive (start + (len - 1) : Nat) s).1.getLsbD k)) ∧
    (∀ k, min count 8 ≤ k → k < min count 8 + 8 * (len - 1) →
      (streamBits (bcConstruct start len count s))[k]? =
        some ((readArchive (start + (len - 2 - (k - min count 8) / 8) : Nat) s).1.getLsbD ((k - min count 8) % 8)))) ∧
  (∀ (start count : Nat) (s : State), streamBits (bcConstruct start 0 count s) = []) ∧
  (∀ (n : Nat) (s : State), s.bcu.rem ≤ 8 → streamBits (bcRead n s).2 = (streamBits s).drop n)

/-- The checksum law (R135, the spec's own inference from R130, R131, R133): BC_SUM is the XOR of the bytes from the lowest
one pulled so far to the end of the range. BC.INIT establishes it; a bit read, both copies and a whole decode keep
it. -/
def Obligations.ChecksumLaw : Prop :=
  (∀ (start len count : Nat) (s : State), checksumLaw (bcConstruct start len count s) = true) ∧
  (∀ s : State, checksumLaw s = true → s.bcu.pos + 1 ≤ (s.bcu.len : Int) →
    (∀ n, checksumLaw (bcRead n s).2 = true) ∧
    (∀ n, checksumLaw (copyRaw n s) = true) ∧
    (∀ n w, checksumLaw (copyBackReference n w s) = true) ∧
    checksumLaw (decodeOneToken s) = true) ∧
  (∀ (o c d : Nat) (x : Byte) (b : Nat) (s : State), checksumLaw (segDecode o c d x b s) = true)

/-- BC_EOF and OA_EOF (R134, R153, R238, R242): RES0 is 1 or 0, the value of the STATUS bit, and nothing else changes. -/
def Obligations.EofCommandsEffect : Prop :=
  ∀ s : State, s.fault = false →
    exec .bcEof s = .next { s with res0 := if s.bcu.rem = 0 ∧ s.bcu.pos ≤ 0 then 1 else 0 } ∧
    exec .oaEof s = .next { s with res0 := if s.oau.wpos ≤ 0 then 1 else 0 } ∧
    ((portRead 0x07 s).getLsbD 3 = true ↔ s.bcu.rem = 0 ∧ s.bcu.pos ≤ 0) ∧
    ((portRead 0x07 s).getLsbD 4 = true ↔ s.oau.wpos ≤ 0)

/-! ## The output assembler -/

/-- OA_INIT (R150, R239): the write cursor at the end, every byte of the buffer 0, nothing else changed; a length above
OMAX faults. That an index at or above OA_LEN reads 0 too is the model's choice and no rule (DESIGN CHOICE, log 24). -/
def Obligations.OaInitEffect : Prop :=
  ∀ s : State, s.fault = false →
    (s.arg0.toNat ≤ s.cfg.omax → ∃ t,
      exec .oaInit s = .next t ∧
      t = { s with oau := { len := s.arg0.toNat, wpos := s.arg0.toNat, omem := t.oau.omem } } ∧
      t.oau.omem.wf = true ∧ (∀ i, i < s.arg0.toNat → readOutput i t = 0) ∧
      (∀ i, s.arg0.toNat ≤ i → readOutput i t = 0)) ∧
    (s.cfg.omax < s.arg0.toNat → exec .oaInit s = .next { s with fault := true, faultCode := 3 })

/-- OA_RAW (R151, R240): COPYRAW of any 32-bit count, clamped to the space left, the clamped number copied (R156). -/
def Obligations.OaRawEffect : Prop :=
  ∀ s : State, s.fault = false → s.bcu.rem ≤ 8 → s.oau.omem.wf = true →
    ∃ t, exec .oaRaw s = .next t ∧ RawCopied 0 s.arg0.toNat s t

/-- OA_REF (R152, R241): COPYREF with the offset field read first, before any clamp or copy; a width outside 1 to 32
faults. -/
def Obligations.OaRefEffect : Prop :=
  ∀ s : State, s.fault = false → s.bcu.rem ≤ 8 → s.oau.omem.wf = true →
    (1 ≤ s.arg1.toNat → s.arg1.toNat ≤ 32 →
      ∃ t, exec .oaRef s = .next t ∧
        RefCopied s.arg1.toNat s.arg0.toNat (bitsToNat (nextBits s.arg1.toNat s) + 1) s t) ∧
    (s.arg1.toNat = 0 ∨ 32 < s.arg1.toNat → exec .oaRef s = .next { s with fault := true, faultCode := 1 })

/-! ## The tokens -/

/-- SRAW and LRAW, their headers read: a raw copy of `l + 1` or `l + 9` bytes (R172, R177; that the header is consumed
before the token runs is the model's split, log 11). -/
def Obligations.RawTokensExecute : Prop :=
  ∀ s : State, s.bcu.rem ≤ 8 → s.oau.omem.wf = true →
    (∀ l, ∃ t, exec (.sraw l) s = .next t ∧ RawCopied 0 (l.toNat + 1) s t) ∧
    (∀ l, ∃ t, exec (.lraw l) s = .next t ∧ RawCopied 0 (l.toNat + 9) s t)

/-- SREF, REFA, REFB and REFC, their headers read: a copy of 2, 3, 4 or `l + 1` bytes from `o + 1` above (R173 to R176; the
header is consumed before the token runs, log 11). -/
def Obligations.BackReferenceTokensExecute : Prop :=
  ∀ s : State, s.oau.omem.wf = true →
    (∀ o, ∃ t, exec (.sref o) s = .next t ∧ RefCopied 0 2 (o.toNat + 1) s t) ∧
    (∀ o, ∃ t, exec (.refa o) s = .next t ∧ RefCopied 0 3 (o.toNat + 1) s t) ∧
    (∀ o, ∃ t, exec (.refb o) s = .next t ∧ RefCopied 0 4 (o.toNat + 1) s t) ∧
    (∀ l o, ∃ t, exec (.refc l o) s = .next t ∧ RefCopied 0 (l.toNat + 1) (o.toNat + 1) s t)

/-- A step over SRAW or LRAW in the stream (R172, R177): header and literals consumed, literals stored downward from the
write position, first one highest. A step of one token is the model's own mode (DESIGN CHOICE, log 1): the host sees
whole commands only. -/
def Obligations.RawTokensStep : Prop :=
  ∀ s : State, s.fetchFrom = .tokenStream → s.bcu.rem ≤ 8 → s.oau.omem.wf = true → decodeDone s = false →
    (∀ l, nextBits 5 s = encodeToken (.sraw l) → ∃ t, step s = .next t ∧ RawCopied 5 (l.toNat + 1) s t) ∧
    (∀ l, nextBits 11 s = encodeToken (.lraw l) → ∃ t, step s = .next t ∧ RawCopied 11 (l.toNat + 9) s t)

/-- A step over a back-reference in the stream (R173 to R176): exactly the header's bits consumed, also when the copy is
clamped. A step of one token is the model's own mode (DESIGN CHOICE, log 1): the host sees whole commands only. -/
def Obligations.BackReferenceTokensStep : Prop :=
  ∀ s : State, s.fetchFrom = .tokenStream → s.bcu.rem ≤ 8 → s.oau.omem.wf = true → decodeDone s = false →
    (∀ o, nextBits 10 s = encodeToken (.sref o) → ∃ t, step s = .next t ∧ RefCopied 10 2 (o.toNat + 1) s t) ∧
    (∀ o, nextBits 12 s = encodeToken (.refa o) → ∃ t, step s = .next t ∧ RefCopied 12 3 (o.toNat + 1) s t) ∧
    (∀ o, nextBits 13 s = encodeToken (.refb o) → ∃ t, step s = .next t ∧ RefCopied 13 4 (o.toNat + 1) s t) ∧
    (∀ l o, nextBits 23 s = encodeToken (.refc l o) →
      ∃ t, step s = .next t ∧ RefCopied 23 (l.toNat + 1) (o.toNat + 1) s t)

/-- The overlap law (R154, the spec's own inference from R152). A copy from offset 1 replicates the byte at the write
position; a copy from any offset inside what is written repeats with that period. -/
def Obligations.OverlapRepeats : Prop :=
  ∀ (s : State) (l : BitVec 8) (o : BitVec 12), s.oau.omem.wf = true → s.oau.wpos + o.toNat < s.oau.len →
    ∃ t, exec (.refc l o) s = .next t ∧
      ∀ j, 1 ≤ j → j ≤ min (l.toNat + 1) s.oau.wpos →
        readOutput (s.oau.wpos - j) t = readOutput (s.oau.wpos + o.toNat - (j - 1) % (o.toNat + 1)) s

/-! ## The decode -/

/-- The decode procedure (R170, R179, R180): both units constructed, then the while loop, its two tests made before every
token and only there, then the one comparison of the checksum, which sets CSUM_OK and on inequality the diagnostic and
changes nothing else; the result has exactly the declared length and the loop has ended. -/
def Obligations.SegmentDecodeProcedure : Prop :=
  (∀ s : State, decodeAll s = if oaEof s || bcEof s then s else decodeAll (decodeOneToken s)) ∧
  (∀ (o c d : Nat) (x : Byte) (b : Nat) (s : State),
    segDecode o c d x b s =
      { decodeAll (constructUnits o c d b s) with
        csumOk := (decodeAll (constructUnits o c d b s)).bcu.sum == x
        diag := (decodeAll (constructUnits o c d b s)).diag
                  ||| flagIf (decide ((decodeAll (constructUnits o c d b s)).bcu.sum ≠ x)) .checksumMismatch } ∧
    (outputBytes (segDecode o c d x b s)).length = d ∧
    (oaEof (segDecode o c d x b s) || bcEof (segDecode o c d x b s)) = true)

/-- Progress (R178, the spec's own inference from R170 to R177): every token lowers OA_WPOS and keeps OA_LEN, so a decode of
`d` bytes runs at most `d` tokens; and no token lets BC_POS rise (R27). -/
def Obligations.TokensMakeProgress : Prop :=
  (∀ s : State, decodeDone s = false →
    (decodeOneToken s).oau.wpos < s.oau.wpos ∧ (decodeOneToken s).oau.len = s.oau.len ∧
    (decodeOneToken s).bcu.pos ≤ max s.bcu.pos 0) ∧
  (∀ s n, s.oau.wpos ≤ n → tduLoop n s = decodeAll s)

/-- SEGDEC (R235, R180): the decode of its arguments; RBUF is the buffer, RES0 its length, the bytes no token wrote are 0;
the container, its caches and the latch are untouched; an argument out of range faults. BC_BASE holds an accepted offset
whole (DEDUCED, log 7). -/
def Obligations.SegdecEffect : Prop :=
  ∀ s : State, s.fault = false →
    (s.arg0.toNat < 2 ^ (s.cfg.aw + 1) → s.arg1.toNat < 2 ^ s.cfg.aw → s.arg2.toNat ≤ s.cfg.omax → ∃ t,
      exec .segdec s = .next t ∧
      t = { segDecode s.arg0.toNat s.arg1.toNat s.arg2.toNat (s.arg3.setWidth 8) s.arg4.toNat s with
            rbuf := t.rbuf, res0 := s.arg2 } ∧
      t = { s with
            bcu := t.bcu, oau := t.oau, csumOk := t.csumOk, diag := t.diag, rbuf := t.rbuf, res0 := s.arg2 } ∧
      t.rbuf.length = s.arg2.toNat ∧ t.oau.len = s.arg2.toNat ∧
      (∀ i, i < s.arg2.toNat → t.rbuf[i]? = some (readOutput i t)) ∧
      (∀ i, i < t.oau.wpos → readOutput i t = 0)) ∧
    (2 ^ (s.cfg.aw + 1) ≤ s.arg0.toNat ∨ 2 ^ s.cfg.aw ≤ s.arg1.toNat ∨ s.cfg.omax < s.arg2.toNat →
      exec .segdec s = .next { s with fault := true, faultCode := 3 })

/-- A command is the run of its tokens: stepping the machine token by token from the constructed units reaches, within as
many steps as output bytes and one more, a state that has changed nothing but the two units and DIAG; and what the one
step of SEGDEC leaves is that state with the comparison of the checksum, its diagnostic, RBUF and RES0 added, nothing
more and nothing less (R170, R179, R230; the token-by-token mode is the model's own, DESIGN CHOICE, log 1). -/
def Obligations.DecodeIsARunOfTokenSteps : Prop :=
  ∀ s t : State, s.fault = false → segdecBadArg s = false → exec .segdec s = .next t →
    ∃ k u, k ≤ s.arg2.toNat + 1 ∧
      Host.Core.run Sys2Proof.core k
        { constructUnits s.arg0.toNat s.arg1.toNat s.arg2.toNat s.arg4.toNat s with fetchFrom := .tokenStream } = .next u ∧
      u = { s with fetchFrom := .hostPort, bcu := u.bcu, oau := u.oau, diag := u.diag } ∧
      t = { u with
            fetchFrom := s.fetchFrom
            csumOk := u.bcu.sum == s.arg3.setWidth 8
            diag := u.diag ||| flagIf (decide (u.bcu.sum ≠ s.arg3.setWidth 8)) .checksumMismatch
            rbuf := outputBytes u
            res0 := s.arg2 }

/-- Purity (R182): a decode reads only the bytes of its range that lie in the archive, ARCHLEN and its arguments. Two
machines that agree there end with the same units, the same comparison, the same bytes, and raise the same
diagnostics, whatever else they hold. -/
def Obligations.DecodeIsPure : Prop :=
  ∀ (s s' : State) (o c d : Nat) (x : Byte) (b : Nat),
    s.archLen = s'.archLen →
    (∀ a, o ≤ a → a < o + c → a < s.archLen → s.amem.get a = s'.amem.get a) →
    (segDecode o c d x b s).bcu = (segDecode o c d x b s').bcu ∧
    (segDecode o c d x b s).oau = (segDecode o c d x b s').oau ∧
    (segDecode o c d x b s).csumOk = (segDecode o c d x b s').csumOk ∧
    outputBytes (segDecode o c d x b s) = outputBytes (segDecode o c d x b s') ∧
    ∃ raised, (segDecode o c d x b s).diag = s.diag ||| raised ∧ (segDecode o c d x b s').diag = s'.diag ||| raised

/-- The bytes do not depend on the declared checksum (R179, R286): two SEGDECs that differ only in ARG3 leave the same
bytes, units and length, and may differ only in CSUM_OK and the diagnostic CHECKSUM_MISMATCH. -/
def Obligations.BytesIgnoreDeclaredChecksum : Prop :=
  ∀ (s : State) (v : Word), s.fault = false → segdecBadArg s = false →
    ∃ t u, exec .segdec s = .next t ∧ exec .segdec { s with arg3 := v } = .next u ∧
      u = { t with arg3 := v, csumOk := u.csumOk, diag := u.diag } ∧
      t.csumOk = (t.bcu.sum == s.arg3.setWidth 8) ∧ u.csumOk = (u.bcu.sum == v.setWidth 8) ∧
      ∀ i, i ≠ 5 → t.diag.getLsbD i = u.diag.getLsbD i

/-! ## Packing and the reference encoder -/

/-- Both packings replay their bits (R120, which the spec derives from R73; R264): a cursor over a tail-pad packing with 8
initial bits delivers the bits and then the zero pad bits; one over a native packing with its own count delivers the
bits and nothing more. -/
def Obligations.PackingsReplayTheirBits : Prop :=
  ∀ (s : State) (base : Nat) (bits : List Bool),
    (Holds s base (packTail bits) →
      streamBits (bcConstruct base (packTail bits).length 8 s) =
        bits ++ List.replicate (8 * ((bits.length + 7) / 8) - bits.length) false) ∧
    (Holds s base (packNative bits) →
      streamBits (bcConstruct base (packNative bits).length (nativeCount bits) s) = bits)

/-- The round trip (R268 items 1 and 2, which the spec derives from R261 to R265 and the token rules): SEGDEC over an
encoded buffer gives the buffer back, with the declared checksum met; for a non-empty buffer no diagnostic is raised,
every payload byte is pulled and the pad bits stay unread; for the empty one the only diagnostic is BIT_UNDERRUN. -/
def Obligations.EncodeDecodeRoundTrip : Prop :=
  ∀ (s : State) (buffer : List Byte), s.fault = false → segdecBadArg s = false →
    Holds s s.arg0.toNat (encodePayload buffer) →
    s.arg1.toNat = (encodePayload buffer).length → s.arg2.toNat = buffer.length →
    s.arg3.setWidth 8 = encodeChecksum buffer → s.arg4 = 8 →
    ∃ t, exec .segdec s = .next t ∧ t.rbuf = buffer ∧ t.csumOk = true ∧ t.bcu.sum = encodeChecksum buffer ∧
      (buffer ≠ [] →
        t.diag = s.diag ∧ t.bcu.pos = 0 ∧ t.oau.wpos = 0 ∧ t.bcu.rem = (8 - (encodeBits buffer).length % 8) % 8) ∧
      (buffer = [] → t.diag = s.diag ||| DiagFlag.bitUnderrun.mask)

/-- The decoded token sequence is the emitted one (R268 item 4, the spec's own inference from R261 to R265 and the token
rules): a decode of an encoded buffer runs exactly the tokens the encoder emitted, each with the literals it was given,
and for a non-empty buffer its stream is well formed (R181), so pad bits are never decoded. -/
def Obligations.DecodedTokensAreTheEmittedOnes : Prop :=
  ∀ (s : State) (base : Nat) (buffer : List Byte), Holds s base (encodePayload buffer) →
    decodedTokens base (encodePayload buffer).length buffer.length encodeInitialBufferLen s = emittedTokens buffer ∧
    (buffer ≠ [] →
      streamWellFormed base (encodePayload buffer).length buffer.length encodeInitialBufferLen s = true)

/-- The header round trip (R267): SCAN of a container built from encoded buffers counts them all, and GETSEG of each index
returns that buffer. -/
def Obligations.ContainerRoundTrip : Prop :=
  ∀ (s : State) (segs : List (List Byte × Half × Half)) (trailing : List Byte), s.fault = false →
    (∀ g ∈ segs, encodable g.1 = true) → endsScan trailing = true →
    s.arg0.toNat = (containerBytes segs trailing).length → s.arg0.toNat < 2 ^ s.cfg.aw →
    Stored s 0 (containerBytes segs trailing) →
    ∃ t, exec .scan s = .next t ∧ t.dtab.length = segs.length ∧ t.res0.toNat = segs.length ∧
      ∀ (i : Nat) (h : i < segs.length), ∃ u,
        exec .getseg { t with arg0 := BitVec.ofNat 32 i } = .next u ∧
        u.rbuf = segs[i].1 ∧ u.latch.unk1 = segs[i].2.1 ∧ u.latch.unk0 = segs[i].2.2

/-- How large a buffer one segment can carry (R266, the bound the spec derives from R261, R263): 65185 bytes exactly. -/
def Obligations.LargestEncodableBuffer : Prop :=
  ∀ buffer : List Byte, encodable buffer = true ↔ buffer.length ≤ 65185

/-! ## The container -/

/-- SCAN (R200 to R205, R231, R206): the table is that of the valid headers from address 0 on, each found where the one
before it leads; SCANPOS is where the scan stopped, silently when fewer than ten bytes are left there, with BAD_HEADER
at a header whose size is below ten; RES0 is the count, the latch is cleared, RBUF is emptied, the units are untouched;
an archive length that AW bits cannot hold faults. -/
def Obligations.ScanBuildsTable : Prop :=
  ∀ s : State, s.fault = false →
    (s.arg0.toNat < 2 ^ s.cfg.aw → ∃ t,
      exec .scan s = .next t ∧
      t = { s with
            archLen := s.arg0.toNat, scanPos := t.scanPos, dtab := t.dtab, scanned := true
            latch := DescLatch.clear, rbuf := [], res0 := BitVec.ofNat 32 t.dtab.length
            diag := s.diag ||| flagIf (decide (t.scanPos + 10 ≤ s.arg0.toNat)) .badHeader } ∧
      tableMatches t 0 0 t.dtab ∧ t.dtab.length ≤ s.arg0.toNat / 10 ∧
      (t.scanPos + 10 ≤ s.arg0.toNat → (headerAt t t.scanPos).totalSegmentSize.toNat < 10)) ∧
    (2 ^ s.cfg.aw ≤ s.arg0.toNat → exec .scan s = .next { s with fault := true, faultCode := 3 })

/-- COUNT (R207, R232): RES0 is SEGCOUNT and nothing else changes. -/
def Obligations.CountEffect : Prop :=
  ∀ s : State, s.fault = false → exec .count s = .next { s with res0 := BitVec.ofNat 32 s.dtab.length }

/-- GETDESC (R234): the latch is a copy of the descriptor, or cleared with SEG_INDEX; nothing else changes. -/
def Obligations.GetdescEffect : Prop :=
  ∀ s : State, s.fault = false →
    (∀ d, s.dtab[s.arg0.toNat]? = some d →
      exec .getdesc s =
        .next { s with
          latch := { index := d.index, offset := d.offset, csize := d.compressedSize, dsize := d.decompressedSize
                     sum := d.checksum, initlen := d.initialBufferLen, unk1 := d.unknown1, unk0 := d.unknown0
                     valid := true, cached := d.cache.isSome } }) ∧
    (s.dtab.length ≤ s.arg0.toNat →
      exec .getdesc s = .next { s with latch := DescLatch.clear, diag := s.diag ||| DiagFlag.segIndex.mask })

/-- GETSEG (R208, R209, R210, R233), its three cases: an index out of range; a cached payload, which leaves the units, CSUM_OK
and DIAG as they were; a decode, whose bytes become RBUF and, with MEMOIZE, the cache. -/
def Obligations.GetsegEffect : Prop :=
  ∀ s : State, s.fault = false →
    (s.dtab.length ≤ s.arg0.toNat →
      exec .getseg s =
        .next { s with
          rbuf := [], res0 := 0, latch := DescLatch.clear, diag := s.diag ||| DiagFlag.segIndex.mask }) ∧
    (∀ d data, s.dtab[s.arg0.toNat]? = some d → s.cfg.memoize = true → d.cache = some data →
      exec .getseg s = .next { s with rbuf := data, res0 := BitVec.ofNat 32 data.length, latch := latchOf d }) ∧
    (∀ d, s.dtab[s.arg0.toNat]? = some d → d.cache = none → ∃ t u,
      t = segDecode d.offset d.compressedSize.toNat d.decompressedSize.toNat d.checksum d.initialBufferLen.toNat s ∧
      exec .getseg s = .next u ∧
      u = { s with
            bcu := t.bcu, oau := t.oau, csumOk := t.csumOk, diag := t.diag
            dtab := if s.cfg.memoize then
                      s.dtab.set s.arg0.toNat { d with cache := some (outputBytes t) }
                    else s.dtab
            rbuf := outputBytes t
            res0 := d.decompressedSize.setWidth 32
            latch := { latchOf d with cached := s.cfg.memoize } })

/-- Memoisation (R209, R38). With MEMOIZE an immediate second GETSEG changes nothing at all; and once an index has been
decoded, every later GETSEG of it while the table stands, whatever the units, DIAG, the archive and the other
registers have become, returns the first one's bytes, length and latch and leaves the units, CSUM_OK, DIAG and the rest
as they are; in particular after BC_INIT, OA_INIT or CLRDIAG. -/
def Obligations.GetsegTwiceIsOnce : Prop :=
  (∀ s : State, s.cfg.memoize = true → ∃ t, exec .getseg s = .next t ∧ exec .getseg t = .next t) ∧
  (∀ s : State, s.cfg.memoize = true → s.fault = false → s.arg0.toNat < s.dtab.length → ∃ t,
    exec .getseg s = .next t ∧
    (∀ v : State, v.fault = false → v.cfg = t.cfg → v.dtab = t.dtab → v.arg0 = s.arg0 →
      exec .getseg v = .next { v with rbuf := t.rbuf, res0 := t.res0, latch := t.latch }) ∧
    (∀ (i : Instr) (a0 a1 a2 : Word) (v : State), i = .bcInit ∨ i = .oaInit ∨ i = .clrdiag →
      exec i { t with arg0 := a0, arg1 := a1, arg2 := a2 } = .next v → v.fault = false →
      exec .getseg { v with arg0 := s.arg0 } =
        .next { v with arg0 := s.arg0, rbuf := t.rbuf, res0 := t.res0, latch := t.latch }))

/-- The bytes are the same with MEMOIZE true or false (R209), as long as the cached bytes are what the archive still
decodes to (R327). -/
def Obligations.MemoizeDoesNotChangeBytes : Prop :=
  ∀ (s : State) (d : Descriptor), s.fault = false → s.dtab[s.arg0.toNat]? = some d → cacheFresh d s →
    ∃ t u, exec .getseg { s with cfg := { s.cfg with memoize := true } } = .next t ∧
      exec .getseg { s with cfg := { s.cfg with memoize := false } } = .next u ∧
      t.rbuf = u.rbuf ∧ t.res0 = u.res0

/-! ## Faults and reset -/

/-- An unassigned code faults with BAD_COMMAND and changes nothing else (R245). -/
def Obligations.UnassignedCodeFaults : Prop :=
  ∀ (s : State) (code : Byte), s.fault = false → (Instr.unassigned code).wellFormed = true →
    exec (.unassigned code) s = .next { s with fault := true, faultCode := 2 }

/-- Faults are precise (R295, R297): a step that enters FAULT is the write of a command, and all it changes is the two fault
fields; DIAG is not touched; the code is 2 for an unassigned code, 1 for a bit count, 3 for a construction argument. -/
def Obligations.FaultEntryIsPrecise : Prop :=
  ∀ s t : State, step s = .next t → s.fault = false → t.fault = true →
    ∃ v rest, s.fetchFrom = .hostPort ∧ s.host = .write 0x00 v :: rest ∧
      t = { s with host := rest, fault := true, faultCode := t.faultCode } ∧
      t.faultCode =
        match decodeCommand (v.setWidth 8) with
        | .unassigned _ => 2
        | .bcRead => 1
        | .oaRef => 1
        | _ => 3

/-- In FAULT every command but SRESET is ignored (R246). -/
def Obligations.FaultIgnoresCommands : Prop :=
  ∀ (s : State) (i : Instr) (code : Byte), s.fault = true → encode i = .command code → code ≠ 0x00 →
    exec i s = .next s

/-- The only exits from FAULT are SRESET and the hardware reset, and both give the reset state (R296). -/
def Obligations.OnlyResetLeavesFault : Prop :=
  ∀ s t : State, step s = .next t → s.fault = true → t.fault = false →
    nextReset s ∧ t = { State.reset with cfg := s.cfg, amem := s.amem, host := s.host.tail }

/-- SRESET (R244, R46): accepted in every state, every register at its reset value, AMEM not touched. -/
def Obligations.SresetEffect : Prop :=
  ∀ s : State, exec .sreset s = .next { State.reset with cfg := s.cfg, amem := s.amem, host := s.host }

/-- CLRDIAG (R243): DIAG is 0 and nothing else changes. -/
def Obligations.ClrdiagEffect : Prop :=
  ∀ s : State, s.fault = false → exec .clrdiag s = .next { s with diag := 0 }

/-! ## The whole machine -/

/-- Diagnostics never steer the machine, and are sticky (R39, R290): from two states that differ only in DIAG every step
gives states that differ only in DIAG, by the same bits raised, or, for CLRDIAG and the resets alone, by all of them
cleared. -/
def Obligations.DiagnosticsNeverSteer : Prop :=
  ∀ (s t : State) (d : BitVec 16), step s = .next t →
    (∃ raised, t.diag = s.diag ||| raised ∧ step { s with diag := d } = .next { t with diag := d ||| raised }) ∨
    ((nextCommand s 0x30 ∨ nextReset s) ∧ t.diag = 0 ∧ step { s with diag := d } = .next { t with diag := 0 })

/-- The archive belongs to the host (R60, R70, R80): a step changes AMEM only where the host, at its port, loads a byte, and
then only that byte; a step changes the argument registers only where the host writes one, and then only that one, or
at a reset, which clears them (R43, R230, R244). The list of the host's actions is the model's (log 2). -/
def Obligations.ArchiveAndArgumentsBelongToHost : Prop :=
  ∀ s t : State, step s = .next t →
    (t.amem = s.amem ∨
      ∃ a v rest, s.fetchFrom = .hostPort ∧ s.host = .load a v :: rest ∧ a < 2 ^ s.cfg.aw ∧
        t = { s with host := rest, amem := s.amem.set a v }) ∧
    ((t.arg0 = s.arg0 ∧ t.arg1 = s.arg1 ∧ t.arg2 = s.arg2 ∧ t.arg3 = s.arg3 ∧ t.arg4 = s.arg4) ∨
      (nextReset s ∧ t.arg0 = 0 ∧ t.arg1 = 0 ∧ t.arg2 = 0 ∧ t.arg3 = 0 ∧ t.arg4 = 0) ∨
      ∃ v rest, s.fetchFrom = .hostPort ∧
        (s.host = .write 0x01 v :: rest ∧ t = { s with host := rest, arg0 := v } ∨
         s.host = .write 0x02 v :: rest ∧ t = { s with host := rest, arg1 := v } ∨
         s.host = .write 0x03 v :: rest ∧ t = { s with host := rest, arg2 := v } ∨
         s.host = .write 0x04 v :: rest ∧ t = { s with host := rest, arg3 := v } ∨
         s.host = .write 0x05 v :: rest ∧ t = { s with host := rest, arg4 := v })) ∧
    t.cfg = s.cfg

/-- Descriptors are immutable but for their caches, and a cache once present stays (R36, R38, R81, R204): only SCAN and the
resets change anything else in the table. -/
def Obligations.DescriptorsAreImmutable : Prop :=
  ∀ s t : State, step s = .next t →
    (t.dtab.map Descriptor.fixed = s.dtab.map Descriptor.fixed ∧
      (s.cfg.memoize = true → ∀ (i : Nat) (d : Descriptor) (data : List Byte),
        s.dtab[i]? = some d → d.cache = some data → t.dtab[i]? = some d)) ∨
    nextCommand s 0x01 ∨ nextReset s

/-- Every step keeps the invariant: the widths, both units' invariants (R27, R31), the table's (R35 to R38), the canonical
forms, and the reserved bits of DIAG 0. That OMEM lists nothing at or above OA_LEN is the model's choice (log 24). -/
def Obligations.InvariantKept : Prop :=
  ∀ s t : State, Inv s = true → step s = .next t → Inv t = true

/-- The reset state has the invariant (its empty OMEM is the model's choice, log 24). -/
def Obligations.InvariantAtReset : Prop := Inv State.reset = true
end

