-- ==== Sys2Proof/Laws/State.lean ====
section
/-! SUPPORT. What each update of the state does to each field, one lemma per field per update, true by rfl. Proofs cite
these through simp and never unfold a record update. -/

namespace Sys2Proof.Machine


/-! ## diag -/

@[simp] theorem diag_cfg (f : DiagFlag) (s : State) : (diag f s).cfg = s.cfg := rfl
@[simp] theorem diag_fetchFrom (f : DiagFlag) (s : State) : (diag f s).fetchFrom = s.fetchFrom := rfl
@[simp] theorem diag_host (f : DiagFlag) (s : State) : (diag f s).host = s.host := rfl
@[simp] theorem diag_amem (f : DiagFlag) (s : State) : (diag f s).amem = s.amem := rfl
@[simp] theorem diag_archLen (f : DiagFlag) (s : State) : (diag f s).archLen = s.archLen := rfl
@[simp] theorem diag_scanPos (f : DiagFlag) (s : State) : (diag f s).scanPos = s.scanPos := rfl
@[simp] theorem diag_dtab (f : DiagFlag) (s : State) : (diag f s).dtab = s.dtab := rfl
@[simp] theorem diag_bcu (f : DiagFlag) (s : State) : (diag f s).bcu = s.bcu := rfl
@[simp] theorem diag_oau (f : DiagFlag) (s : State) : (diag f s).oau = s.oau := rfl
@[simp] theorem diag_arg0 (f : DiagFlag) (s : State) : (diag f s).arg0 = s.arg0 := rfl
@[simp] theorem diag_arg1 (f : DiagFlag) (s : State) : (diag f s).arg1 = s.arg1 := rfl
@[simp] theorem diag_arg2 (f : DiagFlag) (s : State) : (diag f s).arg2 = s.arg2 := rfl
@[simp] theorem diag_arg3 (f : DiagFlag) (s : State) : (diag f s).arg3 = s.arg3 := rfl
@[simp] theorem diag_arg4 (f : DiagFlag) (s : State) : (diag f s).arg4 = s.arg4 := rfl
@[simp] theorem diag_res0 (f : DiagFlag) (s : State) : (diag f s).res0 = s.res0 := rfl
@[simp] theorem diag_rbuf (f : DiagFlag) (s : State) : (diag f s).rbuf = s.rbuf := rfl
@[simp] theorem diag_latch (f : DiagFlag) (s : State) : (diag f s).latch = s.latch := rfl
@[simp] theorem diag_fault (f : DiagFlag) (s : State) : (diag f s).fault = s.fault := rfl
@[simp] theorem diag_scanned (f : DiagFlag) (s : State) : (diag f s).scanned = s.scanned := rfl
@[simp] theorem diag_csumOk (f : DiagFlag) (s : State) : (diag f s).csumOk = s.csumOk := rfl
@[simp] theorem diag_diag (f : DiagFlag) (s : State) : (diag f s).diag = s.diag ||| f.mask := rfl
@[simp] theorem diag_faultCode (f : DiagFlag) (s : State) : (diag f s).faultCode = s.faultCode := rfl

/-! ## raiseFault -/

@[simp] theorem raiseFault_cfg (k : FaultKind) (s : State) : (raiseFault k s).cfg = s.cfg := rfl
@[simp] theorem raiseFault_fetchFrom (k : FaultKind) (s : State) : (raiseFault k s).fetchFrom = s.fetchFrom := rfl
@[simp] theorem raiseFault_host (k : FaultKind) (s : State) : (raiseFault k s).host = s.host := rfl
@[simp] theorem raiseFault_amem (k : FaultKind) (s : State) : (raiseFault k s).amem = s.amem := rfl
@[simp] theorem raiseFault_archLen (k : FaultKind) (s : State) : (raiseFault k s).archLen = s.archLen := rfl
@[simp] theorem raiseFault_scanPos (k : FaultKind) (s : State) : (raiseFault k s).scanPos = s.scanPos := rfl
@[simp] theorem raiseFault_dtab (k : FaultKind) (s : State) : (raiseFault k s).dtab = s.dtab := rfl
@[simp] theorem raiseFault_bcu (k : FaultKind) (s : State) : (raiseFault k s).bcu = s.bcu := rfl
@[simp] theorem raiseFault_oau (k : FaultKind) (s : State) : (raiseFault k s).oau = s.oau := rfl
@[simp] theorem raiseFault_arg0 (k : FaultKind) (s : State) : (raiseFault k s).arg0 = s.arg0 := rfl
@[simp] theorem raiseFault_arg1 (k : FaultKind) (s : State) : (raiseFault k s).arg1 = s.arg1 := rfl
@[simp] theorem raiseFault_arg2 (k : FaultKind) (s : State) : (raiseFault k s).arg2 = s.arg2 := rfl
@[simp] theorem raiseFault_arg3 (k : FaultKind) (s : State) : (raiseFault k s).arg3 = s.arg3 := rfl
@[simp] theorem raiseFault_arg4 (k : FaultKind) (s : State) : (raiseFault k s).arg4 = s.arg4 := rfl
@[simp] theorem raiseFault_res0 (k : FaultKind) (s : State) : (raiseFault k s).res0 = s.res0 := rfl
@[simp] theorem raiseFault_rbuf (k : FaultKind) (s : State) : (raiseFault k s).rbuf = s.rbuf := rfl
@[simp] theorem raiseFault_latch (k : FaultKind) (s : State) : (raiseFault k s).latch = s.latch := rfl
@[simp] theorem raiseFault_fault (k : FaultKind) (s : State) : (raiseFault k s).fault = true := rfl
@[simp] theorem raiseFault_scanned (k : FaultKind) (s : State) : (raiseFault k s).scanned = s.scanned := rfl
@[simp] theorem raiseFault_csumOk (k : FaultKind) (s : State) : (raiseFault k s).csumOk = s.csumOk := rfl
@[simp] theorem raiseFault_diag (k : FaultKind) (s : State) : (raiseFault k s).diag = s.diag := rfl
@[simp] theorem raiseFault_faultCode (k : FaultKind) (s : State) : (raiseFault k s).faultCode = k.code := rfl

/-! ## writeOutput -/

@[simp] theorem writeOutput_cfg (i : Nat) (v : Byte) (s : State) : (writeOutput i v s).cfg = s.cfg := rfl
@[simp] theorem writeOutput_fetchFrom (i : Nat) (v : Byte) (s : State) : (writeOutput i v s).fetchFrom = s.fetchFrom := rfl
@[simp] theorem writeOutput_host (i : Nat) (v : Byte) (s : State) : (writeOutput i v s).host = s.host := rfl
@[simp] theorem writeOutput_amem (i : Nat) (v : Byte) (s : State) : (writeOutput i v s).amem = s.amem := rfl
@[simp] theorem writeOutput_archLen (i : Nat) (v : Byte) (s : State) : (writeOutput i v s).archLen = s.archLen := rfl
@[simp] theorem writeOutput_scanPos (i : Nat) (v : Byte) (s : State) : (writeOutput i v s).scanPos = s.scanPos := rfl
@[simp] theorem writeOutput_dtab (i : Nat) (v : Byte) (s : State) : (writeOutput i v s).dtab = s.dtab := rfl
@[simp] theorem writeOutput_bcu (i : Nat) (v : Byte) (s : State) : (writeOutput i v s).bcu = s.bcu := rfl
@[simp] theorem writeOutput_oau (i : Nat) (v : Byte) (s : State) : (writeOutput i v s).oau = { s.oau with omem := s.oau.omem.set i v } := rfl
@[simp] theorem writeOutput_arg0 (i : Nat) (v : Byte) (s : State) : (writeOutput i v s).arg0 = s.arg0 := rfl
@[simp] theorem writeOutput_arg1 (i : Nat) (v : Byte) (s : State) : (writeOutput i v s).arg1 = s.arg1 := rfl
@[simp] theorem writeOutput_arg2 (i : Nat) (v : Byte) (s : State) : (writeOutput i v s).arg2 = s.arg2 := rfl
@[simp] theorem writeOutput_arg3 (i : Nat) (v : Byte) (s : State) : (writeOutput i v s).arg3 = s.arg3 := rfl
@[simp] theorem writeOutput_arg4 (i : Nat) (v : Byte) (s : State) : (writeOutput i v s).arg4 = s.arg4 := rfl
@[simp] theorem writeOutput_res0 (i : Nat) (v : Byte) (s : State) : (writeOutput i v s).res0 = s.res0 := rfl
@[simp] theorem writeOutput_rbuf (i : Nat) (v : Byte) (s : State) : (writeOutput i v s).rbuf = s.rbuf := rfl
@[simp] theorem writeOutput_latch (i : Nat) (v : Byte) (s : State) : (writeOutput i v s).latch = s.latch := rfl
@[simp] theorem writeOutput_fault (i : Nat) (v : Byte) (s : State) : (writeOutput i v s).fault = s.fault := rfl
@[simp] theorem writeOutput_scanned (i : Nat) (v : Byte) (s : State) : (writeOutput i v s).scanned = s.scanned := rfl
@[simp] theorem writeOutput_csumOk (i : Nat) (v : Byte) (s : State) : (writeOutput i v s).csumOk = s.csumOk := rfl
@[simp] theorem writeOutput_diag (i : Nat) (v : Byte) (s : State) : (writeOutput i v s).diag = s.diag := rfl
@[simp] theorem writeOutput_faultCode (i : Nat) (v : Byte) (s : State) : (writeOutput i v s).faultCode = s.faultCode := rfl

/-! ## oaRetreat -/

@[simp] theorem oaRetreat_cfg (s : State) : (oaRetreat s).cfg = s.cfg := rfl
@[simp] theorem oaRetreat_fetchFrom (s : State) : (oaRetreat s).fetchFrom = s.fetchFrom := rfl
@[simp] theorem oaRetreat_host (s : State) : (oaRetreat s).host = s.host := rfl
@[simp] theorem oaRetreat_amem (s : State) : (oaRetreat s).amem = s.amem := rfl
@[simp] theorem oaRetreat_archLen (s : State) : (oaRetreat s).archLen = s.archLen := rfl
@[simp] theorem oaRetreat_scanPos (s : State) : (oaRetreat s).scanPos = s.scanPos := rfl
@[simp] theorem oaRetreat_dtab (s : State) : (oaRetreat s).dtab = s.dtab := rfl
@[simp] theorem oaRetreat_bcu (s : State) : (oaRetreat s).bcu = s.bcu := rfl
@[simp] theorem oaRetreat_oau (s : State) : (oaRetreat s).oau = { s.oau with wpos := s.oau.wpos - 1 } := rfl
@[simp] theorem oaRetreat_arg0 (s : State) : (oaRetreat s).arg0 = s.arg0 := rfl
@[simp] theorem oaRetreat_arg1 (s : State) : (oaRetreat s).arg1 = s.arg1 := rfl
@[simp] theorem oaRetreat_arg2 (s : State) : (oaRetreat s).arg2 = s.arg2 := rfl
@[simp] theorem oaRetreat_arg3 (s : State) : (oaRetreat s).arg3 = s.arg3 := rfl
@[simp] theorem oaRetreat_arg4 (s : State) : (oaRetreat s).arg4 = s.arg4 := rfl
@[simp] theorem oaRetreat_res0 (s : State) : (oaRetreat s).res0 = s.res0 := rfl
@[simp] theorem oaRetreat_rbuf (s : State) : (oaRetreat s).rbuf = s.rbuf := rfl
@[simp] theorem oaRetreat_latch (s : State) : (oaRetreat s).latch = s.latch := rfl
@[simp] theorem oaRetreat_fault (s : State) : (oaRetreat s).fault = s.fault := rfl
@[simp] theorem oaRetreat_scanned (s : State) : (oaRetreat s).scanned = s.scanned := rfl
@[simp] theorem oaRetreat_csumOk (s : State) : (oaRetreat s).csumOk = s.csumOk := rfl
@[simp] theorem oaRetreat_diag (s : State) : (oaRetreat s).diag = s.diag := rfl
@[simp] theorem oaRetreat_faultCode (s : State) : (oaRetreat s).faultCode = s.faultCode := rfl

/-! ## oaConstruct -/

@[simp] theorem oaConstruct_cfg (n : Nat) (s : State) : (oaConstruct n s).cfg = s.cfg := rfl
@[simp] theorem oaConstruct_fetchFrom (n : Nat) (s : State) : (oaConstruct n s).fetchFrom = s.fetchFrom := rfl
@[simp] theorem oaConstruct_host (n : Nat) (s : State) : (oaConstruct n s).host = s.host := rfl
@[simp] theorem oaConstruct_amem (n : Nat) (s : State) : (oaConstruct n s).amem = s.amem := rfl
@[simp] theorem oaConstruct_archLen (n : Nat) (s : State) : (oaConstruct n s).archLen = s.archLen := rfl
@[simp] theorem oaConstruct_scanPos (n : Nat) (s : State) : (oaConstruct n s).scanPos = s.scanPos := rfl
@[simp] theorem oaConstruct_dtab (n : Nat) (s : State) : (oaConstruct n s).dtab = s.dtab := rfl
@[simp] theorem oaConstruct_bcu (n : Nat) (s : State) : (oaConstruct n s).bcu = s.bcu := rfl
@[simp] theorem oaConstruct_oau (n : Nat) (s : State) : (oaConstruct n s).oau = { len := n, wpos := n, omem := [] } := rfl
@[simp] theorem oaConstruct_arg0 (n : Nat) (s : State) : (oaConstruct n s).arg0 = s.arg0 := rfl
@[simp] theorem oaConstruct_arg1 (n : Nat) (s : State) : (oaConstruct n s).arg1 = s.arg1 := rfl
@[simp] theorem oaConstruct_arg2 (n : Nat) (s : State) : (oaConstruct n s).arg2 = s.arg2 := rfl
@[simp] theorem oaConstruct_arg3 (n : Nat) (s : State) : (oaConstruct n s).arg3 = s.arg3 := rfl
@[simp] theorem oaConstruct_arg4 (n : Nat) (s : State) : (oaConstruct n s).arg4 = s.arg4 := rfl
@[simp] theorem oaConstruct_res0 (n : Nat) (s : State) : (oaConstruct n s).res0 = s.res0 := rfl
@[simp] theorem oaConstruct_rbuf (n : Nat) (s : State) : (oaConstruct n s).rbuf = s.rbuf := rfl
@[simp] theorem oaConstruct_latch (n : Nat) (s : State) : (oaConstruct n s).latch = s.latch := rfl
@[simp] theorem oaConstruct_fault (n : Nat) (s : State) : (oaConstruct n s).fault = s.fault := rfl
@[simp] theorem oaConstruct_scanned (n : Nat) (s : State) : (oaConstruct n s).scanned = s.scanned := rfl
@[simp] theorem oaConstruct_csumOk (n : Nat) (s : State) : (oaConstruct n s).csumOk = s.csumOk := rfl
@[simp] theorem oaConstruct_diag (n : Nat) (s : State) : (oaConstruct n s).diag = s.diag := rfl
@[simp] theorem oaConstruct_faultCode (n : Nat) (s : State) : (oaConstruct n s).faultCode = s.faultCode := rfl

/-! ## bcUnderrun -/

@[simp] theorem bcUnderrun_cfg (s : State) : (bcUnderrun s).cfg = s.cfg := rfl
@[simp] theorem bcUnderrun_fetchFrom (s : State) : (bcUnderrun s).fetchFrom = s.fetchFrom := rfl
@[simp] theorem bcUnderrun_host (s : State) : (bcUnderrun s).host = s.host := rfl
@[simp] theorem bcUnderrun_amem (s : State) : (bcUnderrun s).amem = s.amem := rfl
@[simp] theorem bcUnderrun_archLen (s : State) : (bcUnderrun s).archLen = s.archLen := rfl
@[simp] theorem bcUnderrun_scanPos (s : State) : (bcUnderrun s).scanPos = s.scanPos := rfl
@[simp] theorem bcUnderrun_dtab (s : State) : (bcUnderrun s).dtab = s.dtab := rfl
@[simp] theorem bcUnderrun_bcu (s : State) : (bcUnderrun s).bcu = { s.bcu with pos := -1, buf := 0 } := rfl
@[simp] theorem bcUnderrun_oau (s : State) : (bcUnderrun s).oau = s.oau := rfl
@[simp] theorem bcUnderrun_arg0 (s : State) : (bcUnderrun s).arg0 = s.arg0 := rfl
@[simp] theorem bcUnderrun_arg1 (s : State) : (bcUnderrun s).arg1 = s.arg1 := rfl
@[simp] theorem bcUnderrun_arg2 (s : State) : (bcUnderrun s).arg2 = s.arg2 := rfl
@[simp] theorem bcUnderrun_arg3 (s : State) : (bcUnderrun s).arg3 = s.arg3 := rfl
@[simp] theorem bcUnderrun_arg4 (s : State) : (bcUnderrun s).arg4 = s.arg4 := rfl
@[simp] theorem bcUnderrun_res0 (s : State) : (bcUnderrun s).res0 = s.res0 := rfl
@[simp] theorem bcUnderrun_rbuf (s : State) : (bcUnderrun s).rbuf = s.rbuf := rfl
@[simp] theorem bcUnderrun_latch (s : State) : (bcUnderrun s).latch = s.latch := rfl
@[simp] theorem bcUnderrun_fault (s : State) : (bcUnderrun s).fault = s.fault := rfl
@[simp] theorem bcUnderrun_scanned (s : State) : (bcUnderrun s).scanned = s.scanned := rfl
@[simp] theorem bcUnderrun_csumOk (s : State) : (bcUnderrun s).csumOk = s.csumOk := rfl
@[simp] theorem bcUnderrun_diag (s : State) : (bcUnderrun s).diag = s.diag ||| DiagFlag.bitUnderrun.mask := rfl
@[simp] theorem bcUnderrun_faultCode (s : State) : (bcUnderrun s).faultCode = s.faultCode := rfl

/-! ## bcTakeBit -/

@[simp] theorem bcTakeBit_cfg (s : State) : (bcTakeBit s).2.cfg = s.cfg := rfl
@[simp] theorem bcTakeBit_fetchFrom (s : State) : (bcTakeBit s).2.fetchFrom = s.fetchFrom := rfl
@[simp] theorem bcTakeBit_host (s : State) : (bcTakeBit s).2.host = s.host := rfl
@[simp] theorem bcTakeBit_amem (s : State) : (bcTakeBit s).2.amem = s.amem := rfl
@[simp] theorem bcTakeBit_archLen (s : State) : (bcTakeBit s).2.archLen = s.archLen := rfl
@[simp] theorem bcTakeBit_scanPos (s : State) : (bcTakeBit s).2.scanPos = s.scanPos := rfl
@[simp] theorem bcTakeBit_dtab (s : State) : (bcTakeBit s).2.dtab = s.dtab := rfl
@[simp] theorem bcTakeBit_bcu (s : State) : (bcTakeBit s).2.bcu = { s.bcu with buf := s.bcu.buf >>> 1, rem := s.bcu.rem - 1 } := rfl
@[simp] theorem bcTakeBit_oau (s : State) : (bcTakeBit s).2.oau = s.oau := rfl
@[simp] theorem bcTakeBit_arg0 (s : State) : (bcTakeBit s).2.arg0 = s.arg0 := rfl
@[simp] theorem bcTakeBit_arg1 (s : State) : (bcTakeBit s).2.arg1 = s.arg1 := rfl
@[simp] theorem bcTakeBit_arg2 (s : State) : (bcTakeBit s).2.arg2 = s.arg2 := rfl
@[simp] theorem bcTakeBit_arg3 (s : State) : (bcTakeBit s).2.arg3 = s.arg3 := rfl
@[simp] theorem bcTakeBit_arg4 (s : State) : (bcTakeBit s).2.arg4 = s.arg4 := rfl
@[simp] theorem bcTakeBit_res0 (s : State) : (bcTakeBit s).2.res0 = s.res0 := rfl
@[simp] theorem bcTakeBit_rbuf (s : State) : (bcTakeBit s).2.rbuf = s.rbuf := rfl
@[simp] theorem bcTakeBit_latch (s : State) : (bcTakeBit s).2.latch = s.latch := rfl
@[simp] theorem bcTakeBit_fault (s : State) : (bcTakeBit s).2.fault = s.fault := rfl
@[simp] theorem bcTakeBit_scanned (s : State) : (bcTakeBit s).2.scanned = s.scanned := rfl
@[simp] theorem bcTakeBit_csumOk (s : State) : (bcTakeBit s).2.csumOk = s.csumOk := rfl
@[simp] theorem bcTakeBit_diag (s : State) : (bcTakeBit s).2.diag = s.diag := rfl
@[simp] theorem bcTakeBit_faultCode (s : State) : (bcTakeBit s).2.faultCode = s.faultCode := rfl

/-! ## setRes0 -/

@[simp] theorem setRes0_cfg (v : Nat) (s : State) : (setRes0 v s).cfg = s.cfg := rfl
@[simp] theorem setRes0_fetchFrom (v : Nat) (s : State) : (setRes0 v s).fetchFrom = s.fetchFrom := rfl
@[simp] theorem setRes0_host (v : Nat) (s : State) : (setRes0 v s).host = s.host := rfl
@[simp] theorem setRes0_amem (v : Nat) (s : State) : (setRes0 v s).amem = s.amem := rfl
@[simp] theorem setRes0_archLen (v : Nat) (s : State) : (setRes0 v s).archLen = s.archLen := rfl
@[simp] theorem setRes0_scanPos (v : Nat) (s : State) : (setRes0 v s).scanPos = s.scanPos := rfl
@[simp] theorem setRes0_dtab (v : Nat) (s : State) : (setRes0 v s).dtab = s.dtab := rfl
@[simp] theorem setRes0_bcu (v : Nat) (s : State) : (setRes0 v s).bcu = s.bcu := rfl
@[simp] theorem setRes0_oau (v : Nat) (s : State) : (setRes0 v s).oau = s.oau := rfl
@[simp] theorem setRes0_arg0 (v : Nat) (s : State) : (setRes0 v s).arg0 = s.arg0 := rfl
@[simp] theorem setRes0_arg1 (v : Nat) (s : State) : (setRes0 v s).arg1 = s.arg1 := rfl
@[simp] theorem setRes0_arg2 (v : Nat) (s : State) : (setRes0 v s).arg2 = s.arg2 := rfl
@[simp] theorem setRes0_arg3 (v : Nat) (s : State) : (setRes0 v s).arg3 = s.arg3 := rfl
@[simp] theorem setRes0_arg4 (v : Nat) (s : State) : (setRes0 v s).arg4 = s.arg4 := rfl
@[simp] theorem setRes0_res0 (v : Nat) (s : State) : (setRes0 v s).res0 = BitVec.ofNat 32 v := rfl
@[simp] theorem setRes0_rbuf (v : Nat) (s : State) : (setRes0 v s).rbuf = s.rbuf := rfl
@[simp] theorem setRes0_latch (v : Nat) (s : State) : (setRes0 v s).latch = s.latch := rfl
@[simp] theorem setRes0_fault (v : Nat) (s : State) : (setRes0 v s).fault = s.fault := rfl
@[simp] theorem setRes0_scanned (v : Nat) (s : State) : (setRes0 v s).scanned = s.scanned := rfl
@[simp] theorem setRes0_csumOk (v : Nat) (s : State) : (setRes0 v s).csumOk = s.csumOk := rfl
@[simp] theorem setRes0_diag (v : Nat) (s : State) : (setRes0 v s).diag = s.diag := rfl
@[simp] theorem setRes0_faultCode (v : Nat) (s : State) : (setRes0 v s).faultCode = s.faultCode := rfl

/-! ## deliver -/

@[simp] theorem deliver_cfg (data : List Byte) (s : State) : (deliver data s).cfg = s.cfg := rfl
@[simp] theorem deliver_fetchFrom (data : List Byte) (s : State) : (deliver data s).fetchFrom = s.fetchFrom := rfl
@[simp] theorem deliver_host (data : List Byte) (s : State) : (deliver data s).host = s.host := rfl
@[simp] theorem deliver_amem (data : List Byte) (s : State) : (deliver data s).amem = s.amem := rfl
@[simp] theorem deliver_archLen (data : List Byte) (s : State) : (deliver data s).archLen = s.archLen := rfl
@[simp] theorem deliver_scanPos (data : List Byte) (s : State) : (deliver data s).scanPos = s.scanPos := rfl
@[simp] theorem deliver_dtab (data : List Byte) (s : State) : (deliver data s).dtab = s.dtab := rfl
@[simp] theorem deliver_bcu (data : List Byte) (s : State) : (deliver data s).bcu = s.bcu := rfl
@[simp] theorem deliver_oau (data : List Byte) (s : State) : (deliver data s).oau = s.oau := rfl
@[simp] theorem deliver_arg0 (data : List Byte) (s : State) : (deliver data s).arg0 = s.arg0 := rfl
@[simp] theorem deliver_arg1 (data : List Byte) (s : State) : (deliver data s).arg1 = s.arg1 := rfl
@[simp] theorem deliver_arg2 (data : List Byte) (s : State) : (deliver data s).arg2 = s.arg2 := rfl
@[simp] theorem deliver_arg3 (data : List Byte) (s : State) : (deliver data s).arg3 = s.arg3 := rfl
@[simp] theorem deliver_arg4 (data : List Byte) (s : State) : (deliver data s).arg4 = s.arg4 := rfl
@[simp] theorem deliver_res0 (data : List Byte) (s : State) : (deliver data s).res0 = BitVec.ofNat 32 data.length := rfl
@[simp] theorem deliver_rbuf (data : List Byte) (s : State) : (deliver data s).rbuf = data := rfl
@[simp] theorem deliver_latch (data : List Byte) (s : State) : (deliver data s).latch = s.latch := rfl
@[simp] theorem deliver_fault (data : List Byte) (s : State) : (deliver data s).fault = s.fault := rfl
@[simp] theorem deliver_scanned (data : List Byte) (s : State) : (deliver data s).scanned = s.scanned := rfl
@[simp] theorem deliver_csumOk (data : List Byte) (s : State) : (deliver data s).csumOk = s.csumOk := rfl
@[simp] theorem deliver_diag (data : List Byte) (s : State) : (deliver data s).diag = s.diag := rfl
@[simp] theorem deliver_faultCode (data : List Byte) (s : State) : (deliver data s).faultCode = s.faultCode := rfl

/-! ## cacheResult -/

@[simp] theorem cacheResult_cfg (i : Nat) (data : List Byte) (s : State) : (cacheResult i data s).cfg = s.cfg := rfl
@[simp] theorem cacheResult_fetchFrom (i : Nat) (data : List Byte) (s : State) : (cacheResult i data s).fetchFrom = s.fetchFrom := rfl
@[simp] theorem cacheResult_host (i : Nat) (data : List Byte) (s : State) : (cacheResult i data s).host = s.host := rfl
@[simp] theorem cacheResult_amem (i : Nat) (data : List Byte) (s : State) : (cacheResult i data s).amem = s.amem := rfl
@[simp] theorem cacheResult_archLen (i : Nat) (data : List Byte) (s : State) : (cacheResult i data s).archLen = s.archLen := rfl
@[simp] theorem cacheResult_scanPos (i : Nat) (data : List Byte) (s : State) : (cacheResult i data s).scanPos = s.scanPos := rfl
@[simp] theorem cacheResult_dtab (i : Nat) (data : List Byte) (s : State) : (cacheResult i data s).dtab = s.dtab.modify i (fun d => { d with cache := some data }) := rfl
@[simp] theorem cacheResult_bcu (i : Nat) (data : List Byte) (s : State) : (cacheResult i data s).bcu = s.bcu := rfl
@[simp] theorem cacheResult_oau (i : Nat) (data : List Byte) (s : State) : (cacheResult i data s).oau = s.oau := rfl
@[simp] theorem cacheResult_arg0 (i : Nat) (data : List Byte) (s : State) : (cacheResult i data s).arg0 = s.arg0 := rfl
@[simp] theorem cacheResult_arg1 (i : Nat) (data : List Byte) (s : State) : (cacheResult i data s).arg1 = s.arg1 := rfl
@[simp] theorem cacheResult_arg2 (i : Nat) (data : List Byte) (s : State) : (cacheResult i data s).arg2 = s.arg2 := rfl
@[simp] theorem cacheResult_arg3 (i : Nat) (data : List Byte) (s : State) : (cacheResult i data s).arg3 = s.arg3 := rfl
@[simp] theorem cacheResult_arg4 (i : Nat) (data : List Byte) (s : State) : (cacheResult i data s).arg4 = s.arg4 := rfl
@[simp] theorem cacheResult_res0 (i : Nat) (data : List Byte) (s : State) : (cacheResult i data s).res0 = s.res0 := rfl
@[simp] theorem cacheResult_rbuf (i : Nat) (data : List Byte) (s : State) : (cacheResult i data s).rbuf = s.rbuf := rfl
@[simp] theorem cacheResult_latch (i : Nat) (data : List Byte) (s : State) : (cacheResult i data s).latch = s.latch := rfl
@[simp] theorem cacheResult_fault (i : Nat) (data : List Byte) (s : State) : (cacheResult i data s).fault = s.fault := rfl
@[simp] theorem cacheResult_scanned (i : Nat) (data : List Byte) (s : State) : (cacheResult i data s).scanned = s.scanned := rfl
@[simp] theorem cacheResult_csumOk (i : Nat) (data : List Byte) (s : State) : (cacheResult i data s).csumOk = s.csumOk := rfl
@[simp] theorem cacheResult_diag (i : Nat) (data : List Byte) (s : State) : (cacheResult i data s).diag = s.diag := rfl
@[simp] theorem cacheResult_faultCode (i : Nat) (data : List Byte) (s : State) : (cacheResult i data s).faultCode = s.faultCode := rfl

/-! ## acceptHeader -/

@[simp] theorem acceptHeader_cfg (h : Header) (s : State) : (acceptHeader h s).cfg = s.cfg := rfl
@[simp] theorem acceptHeader_fetchFrom (h : Header) (s : State) : (acceptHeader h s).fetchFrom = s.fetchFrom := rfl
@[simp] theorem acceptHeader_host (h : Header) (s : State) : (acceptHeader h s).host = s.host := rfl
@[simp] theorem acceptHeader_amem (h : Header) (s : State) : (acceptHeader h s).amem = s.amem := rfl
@[simp] theorem acceptHeader_archLen (h : Header) (s : State) : (acceptHeader h s).archLen = s.archLen := rfl
@[simp] theorem acceptHeader_scanPos (h : Header) (s : State) : (acceptHeader h s).scanPos = s.scanPos + h.totalSegmentSize.toNat := rfl
@[simp] theorem acceptHeader_dtab (h : Header) (s : State) : (acceptHeader h s).dtab = s.dtab ++ [descriptorOf s.segCount s.scanPos h] := rfl
@[simp] theorem acceptHeader_bcu (h : Header) (s : State) : (acceptHeader h s).bcu = s.bcu := rfl
@[simp] theorem acceptHeader_oau (h : Header) (s : State) : (acceptHeader h s).oau = s.oau := rfl
@[simp] theorem acceptHeader_arg0 (h : Header) (s : State) : (acceptHeader h s).arg0 = s.arg0 := rfl
@[simp] theorem acceptHeader_arg1 (h : Header) (s : State) : (acceptHeader h s).arg1 = s.arg1 := rfl
@[simp] theorem acceptHeader_arg2 (h : Header) (s : State) : (acceptHeader h s).arg2 = s.arg2 := rfl
@[simp] theorem acceptHeader_arg3 (h : Header) (s : State) : (acceptHeader h s).arg3 = s.arg3 := rfl
@[simp] theorem acceptHeader_arg4 (h : Header) (s : State) : (acceptHeader h s).arg4 = s.arg4 := rfl
@[simp] theorem acceptHeader_res0 (h : Header) (s : State) : (acceptHeader h s).res0 = s.res0 := rfl
@[simp] theorem acceptHeader_rbuf (h : Header) (s : State) : (acceptHeader h s).rbuf = s.rbuf := rfl
@[simp] theorem acceptHeader_latch (h : Header) (s : State) : (acceptHeader h s).latch = s.latch := rfl
@[simp] theorem acceptHeader_fault (h : Header) (s : State) : (acceptHeader h s).fault = s.fault := rfl
@[simp] theorem acceptHeader_scanned (h : Header) (s : State) : (acceptHeader h s).scanned = s.scanned := rfl
@[simp] theorem acceptHeader_csumOk (h : Header) (s : State) : (acceptHeader h s).csumOk = s.csumOk := rfl
@[simp] theorem acceptHeader_diag (h : Header) (s : State) : (acceptHeader h s).diag = s.diag := rfl
@[simp] theorem acceptHeader_faultCode (h : Header) (s : State) : (acceptHeader h s).faultCode = s.faultCode := rfl

/-! ## resetMachine -/

@[simp] theorem resetMachine_cfg (s : State) : (resetMachine s).cfg = s.cfg := rfl
@[simp] theorem resetMachine_fetchFrom (s : State) : (resetMachine s).fetchFrom = State.reset.fetchFrom := rfl
@[simp] theorem resetMachine_host (s : State) : (resetMachine s).host = s.host := rfl
@[simp] theorem resetMachine_amem (s : State) : (resetMachine s).amem = s.amem := rfl
@[simp] theorem resetMachine_archLen (s : State) : (resetMachine s).archLen = State.reset.archLen := rfl
@[simp] theorem resetMachine_scanPos (s : State) : (resetMachine s).scanPos = State.reset.scanPos := rfl
@[simp] theorem resetMachine_dtab (s : State) : (resetMachine s).dtab = State.reset.dtab := rfl
@[simp] theorem resetMachine_bcu (s : State) : (resetMachine s).bcu = State.reset.bcu := rfl
@[simp] theorem resetMachine_oau (s : State) : (resetMachine s).oau = State.reset.oau := rfl
@[simp] theorem resetMachine_arg0 (s : State) : (resetMachine s).arg0 = State.reset.arg0 := rfl
@[simp] theorem resetMachine_arg1 (s : State) : (resetMachine s).arg1 = State.reset.arg1 := rfl
@[simp] theorem resetMachine_arg2 (s : State) : (resetMachine s).arg2 = State.reset.arg2 := rfl
@[simp] theorem resetMachine_arg3 (s : State) : (resetMachine s).arg3 = State.reset.arg3 := rfl
@[simp] theorem resetMachine_arg4 (s : State) : (resetMachine s).arg4 = State.reset.arg4 := rfl
@[simp] theorem resetMachine_res0 (s : State) : (resetMachine s).res0 = State.reset.res0 := rfl
@[simp] theorem resetMachine_rbuf (s : State) : (resetMachine s).rbuf = State.reset.rbuf := rfl
@[simp] theorem resetMachine_latch (s : State) : (resetMachine s).latch = State.reset.latch := rfl
@[simp] theorem resetMachine_fault (s : State) : (resetMachine s).fault = State.reset.fault := rfl
@[simp] theorem resetMachine_scanned (s : State) : (resetMachine s).scanned = State.reset.scanned := rfl
@[simp] theorem resetMachine_csumOk (s : State) : (resetMachine s).csumOk = State.reset.csumOk := rfl
@[simp] theorem resetMachine_diag (s : State) : (resetMachine s).diag = State.reset.diag := rfl
@[simp] theorem resetMachine_faultCode (s : State) : (resetMachine s).faultCode = State.reset.faultCode := rfl

end Sys2Proof.Machine
end

