-- ==== Sys2Proof/Laws/Frames.lean ====
section
/-! SUPPORT. Which fields the shared operations touch: one frame lemma per operation, and what a frame says field by
field. -/

namespace Sys2Proof.Machine

/-! ## The two frames -/

theorem CursorOnly.rfl' (s : State) : CursorOnly s s := rfl

theorem CursorOnly.trans {s t u : State} (h : CursorOnly s t) (k : CursorOnly t u) : CursorOnly s u := by
  unfold CursorOnly at *; rw [k, h]

theorem DatapathOnly.rfl' (s : State) : DatapathOnly s s := rfl

theorem DatapathOnly.trans {s t u : State} (h : DatapathOnly s t) (k : DatapathOnly t u) : DatapathOnly s u := by
  unfold DatapathOnly at *; rw [k, h]

theorem CursorOnly.datapath {s t : State} (h : CursorOnly s t) : DatapathOnly s t := by
  unfold CursorOnly at h; unfold DatapathOnly; rw [h]

theorem CursorOnly.oau {s t : State} (h : CursorOnly s t) : t.oau = s.oau := by rw [h]

theorem DatapathOnly.cfg {s t : State} (h : DatapathOnly s t) : t.cfg = s.cfg := by rw [h]
theorem DatapathOnly.fetchFrom {s t : State} (h : DatapathOnly s t) : t.fetchFrom = s.fetchFrom := by rw [h]
theorem DatapathOnly.host {s t : State} (h : DatapathOnly s t) : t.host = s.host := by rw [h]
theorem DatapathOnly.amem {s t : State} (h : DatapathOnly s t) : t.amem = s.amem := by rw [h]
theorem DatapathOnly.archLen {s t : State} (h : DatapathOnly s t) : t.archLen = s.archLen := by rw [h]
theorem DatapathOnly.scanPos {s t : State} (h : DatapathOnly s t) : t.scanPos = s.scanPos := by rw [h]
theorem DatapathOnly.dtab {s t : State} (h : DatapathOnly s t) : t.dtab = s.dtab := by rw [h]
theorem DatapathOnly.res0 {s t : State} (h : DatapathOnly s t) : t.res0 = s.res0 := by rw [h]
theorem DatapathOnly.rbuf {s t : State} (h : DatapathOnly s t) : t.rbuf = s.rbuf := by rw [h]
theorem DatapathOnly.latch {s t : State} (h : DatapathOnly s t) : t.latch = s.latch := by rw [h]
theorem DatapathOnly.fault {s t : State} (h : DatapathOnly s t) : t.fault = s.fault := by rw [h]
theorem DatapathOnly.scanned {s t : State} (h : DatapathOnly s t) : t.scanned = s.scanned := by rw [h]
theorem DatapathOnly.csumOk {s t : State} (h : DatapathOnly s t) : t.csumOk = s.csumOk := by rw [h]
theorem DatapathOnly.faultCode {s t : State} (h : DatapathOnly s t) : t.faultCode = s.faultCode := by rw [h]

/-! ## The bit cursor -/

theorem diag_cursorOnly (f : DiagFlag) (s : State) : CursorOnly s (diag f s) := rfl

/-- An archive read touches nothing but DIAG. -/
theorem readArchive_cursorOnly (a : Int) (s : State) : CursorOnly s (readArchive a s).2 := by
  unfold readArchive; split <;> rfl

theorem bcUnderrun_cursorOnly (s : State) : CursorOnly s (bcUnderrun s) := rfl

theorem bcTakeBit_cursorOnly (s : State) : CursorOnly s (bcTakeBit s).2 := rfl

theorem bcConstruct_cursorOnly (start len count : Nat) (s : State) : CursorOnly s (bcConstruct start len count s) := by
  unfold bcConstruct readArchive
  dsimp only
  split
  · split <;> rfl
  · split <;> split <;> rfl

theorem bcPull_cursorOnly {s t : State} (h : bcPull s = some t) : CursorOnly s t := by
  unfold bcPull readArchive at h
  split at h
  · cases h
  · cases h; split <;> rfl

theorem bcReadBit_cursorOnly (s : State) : CursorOnly s (bcReadBit s).2 := by
  unfold bcReadBit
  split
  · split
    · exact bcUnderrun_cursorOnly s
    · next h => exact (bcPull_cursorOnly h).trans (bcTakeBit_cursorOnly _)
  · exact bcTakeBit_cursorOnly s

/-- One more bit of a read, with the bit named. -/
theorem bcReadFrom_succ (n acc : Nat) (s : State) :
    bcReadFrom (n + 1) acc s = bcReadFrom n (2 * acc + (bcReadBit s).1.toNat) (bcReadBit s).2 := by
  rw [bcReadFrom]

theorem bcReadFrom_cursorOnly : ∀ (n acc : Nat) (s : State), CursorOnly s (bcReadFrom n acc s).2
  | 0, _, s => CursorOnly.rfl' s
  | n + 1, _, s => by
    rw [bcReadFrom_succ]
    exact (bcReadBit_cursorOnly s).trans (bcReadFrom_cursorOnly n _ _)

/-- A bit read touches only the cursor and DIAG. -/
theorem bcRead_cursorOnly (n : Nat) (s : State) : CursorOnly s (bcRead n s).2 := bcReadFrom_cursorOnly n 0 s

/-- Whatever holds across one read of the reader holds across a token's header. -/
theorem decodeTokenWith_induct {σ : Type} {rd : Nat → σ → Nat × σ} {R : σ → σ → Prop}
    (htrans : ∀ {a b c}, R a b → R b c → R a c) (hrd : ∀ n s, R s (rd n s).2) (s : σ) :
    R s (decodeTokenWith rd s).2 := by
  unfold decodeTokenWith
  have h1 := hrd 1 s
  rcases e1 : rd 1 s with ⟨v1, s1⟩
  rw [e1] at h1
  rcases v1 with _ | v1
  · have h2 := hrd 1 s1
    rcases e2 : rd 1 s1 with ⟨v2, s2⟩
    rw [e2] at h2
    rcases v2 with _ | v2
    · simpa only [e2] using htrans h1 (htrans h2 (hrd 3 s2))
    · simpa only [e2] using htrans h1 (htrans h2 (hrd 8 s2))
  · have h2 := hrd 2 s1
    rcases e2 : rd 2 s1 with ⟨v2, s2⟩
    rw [e2] at h2
    rcases v2 with _ | _ | _ | v2
    · simpa only [e2] using htrans h1 (htrans h2 (hrd 9 s2))
    · simpa only [e2] using htrans h1 (htrans h2 (hrd 10 s2))
    · simpa only [e2] using htrans h1 (htrans h2 (htrans (hrd 8 s2) (hrd 12 _)))
    · simpa only [e2] using htrans h1 (htrans h2 (hrd 8 s2))

/-- Fetching a token touches only the cursor and DIAG. -/
theorem fetchToken_cursorOnly (s : State) : CursorOnly s (fetchToken s).2 :=
  decodeTokenWith_induct (R := CursorOnly) CursorOnly.trans bcRead_cursorOnly s

/-! ## The output assembler and the tokens -/

theorem oaRetreat_datapathOnly (s : State) : DatapathOnly s (oaRetreat s) := rfl

theorem oaConstruct_datapathOnly (n : Nat) (s : State) : DatapathOnly s (oaConstruct n s) := rfl

theorem writeOutput_datapathOnly (i : Nat) (v : Byte) (s : State) : DatapathOnly s (writeOutput i v s) := rfl

/-- One iteration of COPYRAW, with its read named. -/
theorem rawByte_eq (s : State) :
    rawByte s = writeOutput (bcRead 8 (oaRetreat s)).2.oau.wpos (BitVec.ofNat 8 (bcRead 8 (oaRetreat s)).1)
      (bcRead 8 (oaRetreat s)).2 := by
  rw [rawByte]

theorem rawByte_datapathOnly (s : State) : DatapathOnly s (rawByte s) := by
  rw [rawByte_eq]
  exact (oaRetreat_datapathOnly s).trans ((bcRead_cursorOnly 8 _).datapath.trans (writeOutput_datapathOnly _ _ _))

theorem rawBytes_datapathOnly : ∀ (n : Nat) (s : State), DatapathOnly s (rawBytes n s)
  | 0, s => DatapathOnly.rfl' s
  | n + 1, s => (rawByte_datapathOnly s).trans (rawBytes_datapathOnly n _)

theorem copyRaw_datapathOnly (n : Nat) (s : State) : DatapathOnly s (copyRaw n s) := by
  unfold copyRaw
  split
  · exact (diag_cursorOnly _ s).datapath.trans (rawBytes_datapathOnly _ _)
  · exact rawBytes_datapathOnly _ _

theorem refByte_datapathOnly (offset : Nat) (s : State) : DatapathOnly s (refByte offset s) := by
  unfold refByte
  dsimp only
  split <;> rfl

theorem refBytes_datapathOnly (offset : Nat) : ∀ (n : Nat) (s : State), DatapathOnly s (refBytes offset n s)
  | 0, s => DatapathOnly.rfl' s
  | n + 1, s => (refByte_datapathOnly offset s).trans (refBytes_datapathOnly offset n _)

theorem copyRef_datapathOnly (n offset : Nat) (s : State) : DatapathOnly s (copyRef n offset s) := by
  unfold copyRef
  split
  · exact (diag_cursorOnly _ s).datapath.trans (refBytes_datapathOnly _ _ _)
  · exact refBytes_datapathOnly _ _ _

/-- COPYREF whole, with its offset read named. -/
theorem copyBackReference_eq (n w : Nat) (s : State) :
    copyBackReference n w s = copyRef n ((bcRead w s).1 + 1) (bcRead w s).2 := rfl

theorem copyBackReference_datapathOnly (n w : Nat) (s : State) : DatapathOnly s (copyBackReference n w s) := by
  rw [copyBackReference_eq]
  exact (bcRead_cursorOnly w s).datapath.trans (copyRef_datapathOnly _ _ _)

/-- A token touches only the two units and DIAG. -/
theorem runToken_datapathOnly (t : Token) (s : State) : DatapathOnly s (runToken t s) := by
  cases t with
  | sraw l => exact copyRaw_datapathOnly _ _
  | sref o => exact copyRef_datapathOnly _ _ _
  | refa o => exact copyRef_datapathOnly _ _ _
  | refb o => exact copyRef_datapathOnly _ _ _
  | refc l o => exact copyRef_datapathOnly _ _ _
  | lraw l => exact copyRaw_datapathOnly _ _

/-- One token, with its fetch named. -/
theorem decodeOneToken_eq (s : State) : decodeOneToken s = runToken (fetchToken s).1 (fetchToken s).2 := rfl

theorem decodeOneToken_datapathOnly (s : State) : DatapathOnly s (decodeOneToken s) := by
  rw [decodeOneToken_eq]
  exact (fetchToken_cursorOnly s).datapath.trans (runToken_datapathOnly _ _)

/-- The decode loop touches only the two units and DIAG. -/
theorem tduLoop_datapathOnly : ∀ (n : Nat) (s : State), DatapathOnly s (tduLoop n s)
  | 0, s => DatapathOnly.rfl' s
  | n + 1, s => by
    unfold tduLoop
    split
    · exact DatapathOnly.rfl' s
    · exact (decodeOneToken_datapathOnly s).trans (tduLoop_datapathOnly n _)

/-- A whole decode, with the write position at its start named. -/
theorem segDecode_eq (o c d : Nat) (x : Byte) (b : Nat) (s : State) :
    segDecode o c d x b s = verifyChecksum x (tduLoop d (oaConstruct d (bcConstruct o c b s))) := rfl

/-- The checksum comparison touches only STATUS.CSUM_OK and DIAG. -/
theorem verifyChecksum_frame (x : Byte) (s : State) :
    verifyChecksum x s =
      { s with csumOk := (verifyChecksum x s).csumOk, diag := (verifyChecksum x s).diag } := by
  unfold verifyChecksum
  dsimp only
  split <;> rfl

/-- A whole decode touches only the two units, DIAG and STATUS.CSUM_OK. -/
theorem segDecode_frame (o c d : Nat) (x : Byte) (b : Nat) (s : State) :
    segDecode o c d x b s =
      { s with
        bcu := (segDecode o c d x b s).bcu, oau := (segDecode o c d x b s).oau,
        diag := (segDecode o c d x b s).diag, csumOk := (segDecode o c d x b s).csumOk } := by
  have h : DatapathOnly s (tduLoop d (oaConstruct d (bcConstruct o c b s))) :=
    (bcConstruct_cursorOnly o c b s).datapath.trans
      ((oaConstruct_datapathOnly d _).trans (tduLoop_datapathOnly _ _))
  rw [segDecode_eq]
  generalize tduLoop d (oaConstruct d (bcConstruct o c b s)) = t at h ⊢
  unfold DatapathOnly at h
  rw [verifyChecksum_frame]
  rw [h]

end Sys2Proof.Machine
end

