-- ==== Sys2Proof/Laws/Memory.lean ====
section
/-! SUPPORT. The laws of a byte memory: read after write, and every operation keeps the canonical form. -/

namespace Sys2Proof.Machine

theorem Memory.wfFrom_cons (lo a : Nat) (b : Byte) (m : Memory) :
    Memory.wfFrom lo ((a, b) :: m) = true ↔ lo ≤ a ∧ b ≠ Memory.unlisted ∧ Memory.wfFrom (a + 1) m = true := by
  simp [Memory.wfFrom, and_assoc]

/-- A lower bound of the addresses may be lowered. -/
theorem Memory.wfFrom_mono {lo lo' : Nat} (h : lo' ≤ lo) : ∀ {m : Memory},
    Memory.wfFrom lo m = true → Memory.wfFrom lo' m = true
  | [], _ => rfl
  | (a, b) :: m, hm => by
    rw [Memory.wfFrom_cons] at hm ⊢
    exact ⟨h.trans hm.1, hm.2⟩

/-- Below its first address a canonical memory reads as unlisted. -/
theorem Memory.get_below {a lo : Nat} : ∀ {m : Memory},
    Memory.wfFrom lo m = true → a < lo → m.get a = Memory.unlisted
  | [], _, _ => rfl
  | (b, v) :: m, hm, h => by
    rw [Memory.wfFrom_cons] at hm
    have hb : b ≠ a := by omega
    simp only [Memory.get, hb, if_false]
    exact Memory.get_below hm.2.2 (by omega)

/-- A write keeps the canonical form, above any bound it respects. -/
theorem Memory.wfFrom_set {a lo : Nat} (v : Byte) (ha : lo ≤ a) : ∀ {m : Memory},
    Memory.wfFrom lo m = true → Memory.wfFrom lo (m.set a v) = true
  | [], _ => by
    by_cases hv : v = Memory.unlisted
    · simp [Memory.set, hv, Memory.wfFrom]
    · simp [Memory.set, hv, Memory.wfFrom, ha]
  | (b, u) :: m, hm => by
    have hm' := hm
    rw [Memory.wfFrom_cons] at hm'
    obtain ⟨hlo, hu, hrest⟩ := hm'
    rcases Nat.lt_trichotomy a b with h | h | h
    · by_cases hv : v = Memory.unlisted
      · simpa [Memory.set, h, hv] using hm
      · simp only [Memory.set, h, hv, if_true, if_false, Memory.wfFrom_cons]
        exact ⟨ha, hv, by omega, hu, hrest⟩
    · subst h
      by_cases hv : v = Memory.unlisted
      · simp only [Memory.set, hv, Nat.lt_irrefl, if_true, if_false]
        exact Memory.wfFrom_mono (by omega) hrest
      · simp only [Memory.set, hv, Nat.lt_irrefl, if_true, if_false, Memory.wfFrom_cons]
        exact ⟨ha, hv, hrest⟩
    · have h1 : ¬ a < b := by omega
      have h2 : a ≠ b := by omega
      simp only [Memory.set, h1, h2, if_false, Memory.wfFrom_cons]
      exact ⟨hlo, hu, Memory.wfFrom_set v (by omega) hrest⟩

/-- Every write keeps the canonical form. -/
theorem Memory.wf_set {m : Memory} (h : m.wf = true) (a : Nat) (v : Byte) : (m.set a v).wf = true :=
  Memory.wfFrom_set v (Nat.zero_le a) h

/-- The zero fill has the canonical form. -/
theorem Memory.wf_zero : Memory.zero.wf = true := rfl

/-- Storing a sequence keeps the canonical form. -/
theorem Memory.wf_store {m : Memory} (h : m.wf = true) : ∀ (a : Nat) (vs : List Byte), (m.store a vs).wf = true
  | _, [] => h
  | a, v :: vs => Memory.wf_set (Memory.wf_store h (a + 1) vs) a v

/-- Dropping entries keeps the canonical form. -/
theorem Memory.wfFrom_filter (p : Host.Cell → Bool) {lo : Nat} : ∀ {m : Memory},
    Memory.wfFrom lo m = true → Memory.wfFrom lo (m.filter p) = true
  | [], h => h
  | (a, b) :: m, hm => by
    rw [Memory.wfFrom_cons] at hm
    have ih := Memory.wfFrom_filter p hm.2.2
    by_cases hp : p (a, b) = true
    · rw [List.filter_cons_of_pos hp, Memory.wfFrom_cons]
      exact ⟨hm.1, hm.2.1, ih⟩
    · rw [List.filter_cons_of_neg hp]
      exact Memory.wfFrom_mono (by omega) ih

/-- The reset state's memories have the canonical form. -/
theorem reset_memories_wf : State.reset.amem.wf = true ∧ State.reset.oau.omem.wf = true := ⟨rfl, rfl⟩

/-- A write is read back. -/
theorem Memory.get_set_same_from (a : Nat) (v : Byte) {lo : Nat} : ∀ {m : Memory},
    Memory.wfFrom lo m = true → (m.set a v).get a = v
  | [], _ => by
    by_cases hv : v = Memory.unlisted <;> simp [Memory.set, Memory.get, hv]
  | (b, u) :: m, hm => by
    have hm' := hm
    rw [Memory.wfFrom_cons] at hm'
    rcases Nat.lt_trichotomy a b with h | h | h
    · by_cases hv : v = Memory.unlisted
      · have hb : b ≠ a := by omega
        simp only [Memory.set, h, hv, if_true, Memory.get, hb, if_false]
        exact Memory.get_below hm'.2.2 (by omega)
      · simp [Memory.set, h, hv, Memory.get]
    · subst h
      by_cases hv : v = Memory.unlisted
      · simp only [Memory.set, hv, Nat.lt_irrefl, if_true, if_false]
        exact Memory.get_below hm'.2.2 (by omega)
      · simp [Memory.set, hv, Memory.get]
    · have h1 : ¬ a < b := by omega
      have h2 : a ≠ b := by omega
      have h3 : b ≠ a := by omega
      simp only [Memory.set, h1, h2, if_false, Memory.get, h3]
      exact Memory.get_set_same_from a v hm'.2.2

/-- A write is read back. -/
theorem Memory.get_set_same {m : Memory} (h : m.wf = true) (a : Nat) (v : Byte) : (m.set a v).get a = v :=
  Memory.get_set_same_from a v h

/-- A write leaves every other address as it was, in any form of memory. -/
theorem Memory.get_set_other {a i : Nat} (v : Byte) (hi : i ≠ a) : ∀ m : Memory, (m.set a v).get i = m.get i
  | [] => by
    by_cases hv : v = Memory.unlisted <;> simp [Memory.set, Memory.get, hv, hi.symm]
  | (b, u) :: m => by
    have hia : a ≠ i := hi.symm
    rcases Nat.lt_trichotomy a b with h | h | h
    · by_cases hv : v = Memory.unlisted
      · simp [Memory.set, h, hv]
      · simp [Memory.set, h, hv, Memory.get, hia]
    · subst h
      by_cases hv : v = Memory.unlisted <;> simp [Memory.set, hv, Memory.get, hia]
    · have h1 : ¬ a < b := by omega
      have h2 : a ≠ b := by omega
      simp only [Memory.set, h1, h2, if_false, Memory.get, Memory.get_set_other v hi m]

/-- A written memory, read anywhere. -/
theorem Memory.get_set {m : Memory} (h : m.wf = true) (a i : Nat) (v : Byte) :
    (m.set a v).get i = if i = a then v else m.get i := by
  by_cases hi : i = a
  · subst hi; simp [Memory.get_set_same h]
  · simp [hi, Memory.get_set_other v hi]

@[simp] theorem Memory.bytes_length (m : Memory) : ∀ (a n : Nat), (m.bytes a n).length = n
  | _, 0 => rfl
  | a, n + 1 => by simp [Memory.bytes, Memory.bytes_length m (a + 1) n]

/-- The bytes of a range, one by one. -/
theorem Memory.bytes_getElem (m : Memory) : ∀ (a n i : Nat) (h : i < (m.bytes a n).length),
    (m.bytes a n)[i] = m.get (a + i)
  | a, 0, i, h => absurd h (by simp [Memory.bytes])
  | a, n + 1, 0, _ => by simp [Memory.bytes]
  | a, n + 1, i + 1, h => by
    have h' : i < (m.bytes (a + 1) n).length := by simpa [Memory.bytes] using h
    have := Memory.bytes_getElem m (a + 1) n i h'
    simpa [Memory.bytes, Nat.add_assoc, Nat.add_comm 1 i] using this

end Sys2Proof.Machine
end

