-- ==== Sys2Proof/Laws/Ops.lean ====
section
/-! SUPPORT. For each shared operation, what it can do, said once: proofs cite these and do not unfold the operation. -/

namespace Sys2Proof.Machine

/-! ## Archive reads (R61) -/

/-- Inside the archive a read gives the byte and touches nothing. -/
theorem readArchive_inside {a : Int} {s : State} (h0 : 0 ≤ a) (h1 : a < (s.archLen : Int)) :
    readArchive a s = (s.amem.get a.toNat, s) := by
  simp [readArchive, h0, h1]

/-- Outside it a read gives 0 and raises OOR_READ. -/
theorem readArchive_outside {a : Int} {s : State} (h : a < 0 ∨ (s.archLen : Int) ≤ a) :
    readArchive a s = (0, diag .oorRead s) := by
  have : ¬ (0 ≤ a ∧ a < (s.archLen : Int)) := by omega
  simp [readArchive, this]

/-- The value of a read depends only on the archive and its length. -/
theorem readArchive_value {s t : State} (hm : t.amem = s.amem) (hl : t.archLen = s.archLen) (a : Int) :
    (readArchive a t).1 = (readArchive a s).1 := by
  unfold readArchive
  rw [hm, hl]
  split <;> rfl

/-! ## The bit cursor -/

/-- BC.INIT over an empty range (R130, corner case a). -/
theorem bcConstruct_empty (start count : Nat) (s : State) :
    bcConstruct start 0 count s =
      { s with
        bcu := { base := start, len := 0, pos := -1, buf := 0, rem := 0, sum := 0 }
        diag := (if count < 1 ∨ 8 < count then s.diag ||| DiagFlag.initlenRange.mask else s.diag)
                  ||| DiagFlag.bitUnderrun.mask } := by
  unfold bcConstruct
  split <;> rfl

/-- BC.INIT over a range with a last byte (R130): the prime. -/
theorem bcConstruct_prime {start len count : Nat} (h : len ≠ 0) (s : State) :
    bcConstruct start len count s =
      { s with
        bcu := { base := start, len := len, pos := (len : Int) - 1,
                 buf := (readArchive ((start : Int) + ((len : Int) - 1)) s).1, rem := min count 8,
                 sum := (readArchive ((start : Int) + ((len : Int) - 1)) s).1 }
        diag := (readArchive ((start : Int) + ((len : Int) - 1))
                  (if count < 1 ∨ 8 < count then diag .initlenRange s else s)).2.diag } := by
  have hv := readArchive_value (s := s) (t := if count < 1 ∨ 8 < count then diag .initlenRange s else s)
    (by split <;> rfl) (by split <;> rfl) ((start : Int) + ((len : Int) - 1))
  have hf := readArchive_cursorOnly ((start : Int) + ((len : Int) - 1))
    (if count < 1 ∨ 8 < count then diag .initlenRange s else s)
  have hz : ∀ b : Byte, (0 : Byte) ^^^ b = b := by simp
  unfold bcConstruct
  simp only [h, if_false, hv, hz]
  generalize readArchive ((start : Int) + ((len : Int) - 1))
    (if count < 1 ∨ 8 < count then diag .initlenRange s else s) = r at hf ⊢
  rw [hf]
  split <;> rfl

/-- A pull fails exactly when no byte remains (R131). -/
theorem bcPull_none {s : State} (h : s.bcu.pos ≤ 0) : bcPull s = none := by simp [bcPull, h]

/-- A pull that does not fail (R131). -/
theorem bcPull_some {s : State} (h : 0 < s.bcu.pos) :
    bcPull s = some { (readArchive ((s.bcu.base : Int) + (s.bcu.pos - 1)) s).2 with
      bcu := { s.bcu with
        pos := s.bcu.pos - 1
        buf := (readArchive ((s.bcu.base : Int) + (s.bcu.pos - 1)) s).1
        sum := s.bcu.sum ^^^ (readArchive ((s.bcu.base : Int) + (s.bcu.pos - 1)) s).1
        rem := 8 } } := by
  have : ¬ s.bcu.pos ≤ 0 := by omega
  simp [bcPull, this]

/-- The three things one bit read can do: take a bit of the buffer, pull and take, underrun (R132, R133). -/
theorem bcReadBit_cases (s : State) :
    (s.bcu.rem ≠ 0 ∧ bcReadBit s = bcTakeBit s) ∨
    (s.bcu.rem = 0 ∧ 0 < s.bcu.pos ∧ ∃ s1, bcPull s = some s1 ∧ bcReadBit s = bcTakeBit s1) ∨
    (s.bcu.rem = 0 ∧ s.bcu.pos ≤ 0 ∧ bcReadBit s = (false, bcUnderrun s)) := by
  by_cases h : s.bcu.rem = 0
  · right
    by_cases hp : s.bcu.pos ≤ 0
    · exact .inr ⟨h, hp, by simp [bcReadBit, h, bcPull_none hp]⟩
    · have hp' : 0 < s.bcu.pos := by omega
      exact .inl ⟨h, hp', _, bcPull_some hp', by simp [bcReadBit, h, bcPull_some hp']⟩
  · exact .inl ⟨h, by simp [bcReadBit, h]⟩

/-- The bytes below depend only on the archive and the range's base. -/
theorem bytesBelow_congr {s t : State} (hb : t.bcu.base = s.bcu.base) (hm : t.amem = s.amem)
    (hl : t.archLen = s.archLen) : ∀ n, bytesBelow t n = bytesBelow s n
  | 0 => rfl
  | n + 1 => by
    simp only [bytesBelow, hb, readArchive_value hm hl, bytesBelow_congr hb hm hl n]

/-- The first of the lowest bits of a byte, and the rest after a shift. -/
theorem bitsOfByte_take_succ (b : Byte) {k : Nat} (hk : k < 8) :
    (bitsOfByte b).take (k + 1) = b.getLsbD 0 :: (bitsOfByte (b >>> 1)).take k := by
  unfold bitsOfByte
  interval_cases k <;> simp

/-- Every bit of a byte, lowest first. -/
theorem bitsOfByte_cons (b : Byte) : bitsOfByte b = b.getLsbD 0 :: (bitsOfByte (b >>> 1)).take 7 :=
  bitsOfByte_take_succ b (k := 7) (by omega)

/-- The stream of a cursor whose buffer has bits. -/
theorem streamBits_buffer {s : State} {k : Nat} (h : s.bcu.rem = k + 1) (h8 : s.bcu.rem ≤ 8) :
    streamBits s = (bcTakeBit s).1 :: streamBits (bcTakeBit s).2 := by
  have hk : k < 8 := by omega
  have hb : bytesBelow (bcTakeBit s).2 s.bcu.pos.toNat = bytesBelow s s.bcu.pos.toNat :=
    bytesBelow_congr (s := s) (t := (bcTakeBit s).2) rfl rfl rfl _
  simp only [streamBits, h, bitsOfByte_take_succ s.bcu.buf hk, bcTakeBit_bcu, Nat.add_sub_cancel, hb]
  rfl

/-- One bit read delivers the head of the stream and leaves the tail; on an empty stream it is the underrun. -/
theorem bcReadBit_stream {s : State} (h8 : s.bcu.rem ≤ 8) :
    match streamBits s with
    | [] => bcReadBit s = (false, bcUnderrun s) ∧ streamBits (bcReadBit s).2 = []
    | b :: bs => (bcReadBit s).1 = b ∧ streamBits (bcReadBit s).2 = bs := by
  rcases bcReadBit_cases s with ⟨hr, he⟩ | ⟨hr, hp, s1, hs1, he⟩ | ⟨hr, hp, he⟩
  · obtain ⟨k, hk⟩ := Nat.exists_eq_succ_of_ne_zero hr
    rw [streamBits_buffer hk h8, he]
    exact ⟨rfl, rfl⟩
  · have hs : s1 = _ := (Option.some.inj ((bcPull_some hp).symm.trans hs1)).symm
    obtain ⟨n, hn⟩ : ∃ n : Nat, s.bcu.pos.toNat = n + 1 := ⟨s.bcu.pos.toNat - 1, by omega⟩
    have hpos : s.bcu.pos - 1 = (n : Int) := by omega
    have hf : CursorOnly s s1 := bcPull_cursorOnly hs1
    have hbcu : s1.bcu = { s.bcu with
        pos := (n : Int)
        buf := (readArchive ((s.bcu.base : Int) + (n : Int)) s).1
        sum := s.bcu.sum ^^^ (readArchive ((s.bcu.base : Int) + (n : Int)) s).1
        rem := 8 } := by rw [hs, hpos]
    have hstream : streamBits s = streamBits s1 := by
      have hb : bytesBelow s1 n = bytesBelow s n :=
        bytesBelow_congr (by rw [hbcu]) (by rw [hf]) (by rw [hf]) n
      have h8' : ∀ b : Byte, (bitsOfByte b).take 8 = bitsOfByte b := fun b => rfl
      simp only [streamBits, hr, hn, bytesBelow, hbcu, Int.toNat_natCast, hb, h8', List.take_zero, List.nil_append,
        List.flatMap_cons]
    have hrem : s1.bcu.rem = 7 + 1 := by rw [hbcu]
    rw [hstream, streamBits_buffer hrem (by omega), he]
    exact ⟨rfl, rfl⟩
  · have hn : s.bcu.pos.toNat = 0 := by omega
    have hnil : streamBits s = [] := by simp [streamBits, hr, hn, bytesBelow]
    rw [hnil, he]
    refine ⟨rfl, ?_⟩
    simp [streamBits, hr, bytesBelow]

/-- A bit read keeps the buffer's count in range (R25). -/
theorem bcReadBit_rem {s : State} (h8 : s.bcu.rem ≤ 8) : (bcReadBit s).2.bcu.rem ≤ 8 := by
  rcases bcReadBit_cases s with ⟨hr, he⟩ | ⟨hr, hp, s1, hs1, he⟩ | ⟨hr, hp, he⟩
  · rw [he, bcTakeBit_bcu]; dsimp only; omega
  · rw [bcPull_some hp] at hs1
    cases hs1
    rw [he, bcTakeBit_bcu]
    simp
  · rw [he]; simp [hr]

/-! ## The output assembler -/

/-- One iteration of COPYREF, its two cases named (R152). -/
theorem refByte_eq (offset : Nat) (s : State) :
    refByte offset s =
      if s.oau.wpos - 1 + offset < s.oau.len then
        writeOutput (s.oau.wpos - 1) (readOutput (s.oau.wpos - 1 + offset) s) (oaRetreat s)
      else writeOutput (s.oau.wpos - 1) 0 (diag .refOor (oaRetreat s)) := rfl

/-- A copy iteration lowers the write position by one and keeps the length. -/
theorem refByte_wpos (offset : Nat) (s : State) :
    (refByte offset s).oau.wpos = s.oau.wpos - 1 ∧ (refByte offset s).oau.len = s.oau.len := by
  rw [refByte_eq]; split <;> exact ⟨rfl, rfl⟩

/-- A raw iteration lowers the write position by one and keeps the length. -/
theorem rawByte_wpos (s : State) :
    (rawByte s).oau.wpos = s.oau.wpos - 1 ∧ (rawByte s).oau.len = s.oau.len := by
  have h := (bcRead_cursorOnly 8 (oaRetreat s)).oau
  rw [rawByte_eq]
  simp only [writeOutput_oau, h]
  exact ⟨rfl, rfl⟩

/-- Reading the output after a write (R62). -/
theorem readOutput_writeOutput {s : State} (h : Memory.wf s.oau.omem = true) (i j : Nat) (v : Byte) :
    readOutput j (writeOutput i v s) = if j = i then v else readOutput j s :=
  Memory.get_set h i j v

/-- Writing the output keeps its canonical form. -/
theorem writeOutput_wf {s : State} (h : Memory.wf s.oau.omem = true) (i : Nat) (v : Byte) :
    Memory.wf (writeOutput i v s).oau.omem = true :=
  Memory.wf_set h i v

/-- Placing a token's bits keeps the archive's canonical form. -/
theorem streamArchive_wf (bits : List Bool) {m : Memory} (h : m.wf = true) : (streamArchive bits m).wf = true :=
  Memory.wf_store (Memory.wfFrom_filter _ h) _ _

/-! ## Gates -/

/-- A command in the FAULT state is ignored (R246). -/
theorem unlessFault_fault {s : State} (h : s.fault = true) (effect : State → State) :
    unlessFault s effect = .next s := by simp [unlessFault, h]

/-- Outside it the command has its effect. -/
theorem unlessFault_run {s : State} (h : s.fault = false) (effect : State → State) :
    unlessFault s effect = .next (effect s) := by simp [unlessFault, h]

/-- A bad argument faults before any state change (R295). -/
theorem unlessBadArg_bad {bad : Bool} (h : bad = true) (k : FaultKind) (s : State) (effect : State → State) :
    unlessBadArg bad k s effect = raiseFault k s := by simp [unlessBadArg, h]

theorem unlessBadArg_good {bad : Bool} (h : bad = false) (k : FaultKind) (s : State) (effect : State → State) :
    unlessBadArg bad k s effect = effect s := by simp [unlessBadArg, h]

/-! ## The decode loop -/

/-- A loop whose test ends it does nothing. -/
theorem tduLoop_done {s : State} (h : decodeDone s = true) : ∀ n, tduLoop n s = s
  | 0 => rfl
  | n + 1 => by simp [tduLoop, h]

/-- One more iteration (R170). -/
theorem tduLoop_succ {s : State} (h : decodeDone s = false) (n : Nat) :
    tduLoop (n + 1) s = tduLoop n (decodeOneToken s) := by simp [tduLoop, h]

/-- When the loop test ends the loop no token runs. -/
theorem tokensRun_done {s : State} (h : decodeDone s = true) : ∀ n, tokensRun n s = []
  | 0 => rfl
  | n + 1 => by simp [tokensRun, h]

/-- Else the fetched token heads the sequence, and the rest is the sequence of the state the loop goes on from (R170). -/
theorem tokensRun_succ {s : State} (h : decodeDone s = false) (n : Nat) :
    tokensRun (n + 1) s =
      ((fetchToken s).1, tokenLiterals (fetchToken s).1 (fetchToken s).2) :: tokensRun n (decodeOneToken s) := by
  simp [tokensRun, decodeOneToken, h]

/-- The sequence has no more tokens than its bound. -/
theorem tokensRun_length_le : ∀ (n : Nat) (s : State), (tokensRun n s).length ≤ n
  | 0, _ => Nat.le_refl 0
  | n + 1, s => by
    cases h : decodeDone s
    · rw [tokensRun_succ h]
      exact Nat.succ_le_succ (tokensRun_length_le n _)
    · simp [tokensRun_done h]

/-- `n` literals are read where `n` are asked for. -/
theorem literalsRead_length : ∀ (n : Nat) (s : State), (literalsRead n s).length = n
  | 0, _ => rfl
  | n + 1, s => by rw [literalsRead, List.length_cons, literalsRead_length n]

/-! ## The encoder's tokens -/

@[simp] theorem rawTokens_nil : ∀ fuel, rawTokens fuel [] = []
  | 0 => rfl
  | _ + 1 => rfl

/-- A raw token of at least one literal takes at least one (R119). -/
theorem rawTake_pos {r : Nat} (h : 0 < r) : 0 < rawTake r ∧ rawTake r ≤ r := by
  unfold rawTake; split <;> omega

/-- The literals of the raw tokens, one token after another, are the literals given (R119, R261). -/
theorem rawTokens_literals : ∀ (fuel : Nat) (bs : List Byte), bs.length ≤ fuel →
    (rawTokens fuel bs).flatMap (·.2) = bs
  | 0, bs, h => by simp [List.eq_nil_of_length_eq_zero (Nat.le_zero.mp h)]
  | fuel + 1, bs, h => by
    unfold rawTokens
    split
    · next h0 => simp [List.eq_nil_of_length_eq_zero h0]
    · next h0 =>
      have ht := rawTake_pos (Nat.pos_of_ne_zero h0)
      rw [List.flatMap_cons, rawTokens_literals fuel _ (by rw [List.length_drop]; omega)]
      exact List.take_append_drop _ _

/-- A fetched token runs as an instruction as it runs in the loop. -/
theorem exec_token (t : Token) (s : State) : exec t.toInstr s = .next (runToken t s) := by
  cases t <;> rfl

/-! ## The container -/

/-- The scan ends silently when fewer than ten bytes are left (R201). -/
theorem scanLoop_short {s : State} (h : s.archLen < s.scanPos + 10) : ∀ n, scanLoop n s = s
  | 0 => rfl
  | n + 1 => by simp [scanLoop, Config.hdrLen, h]

/-- A valid header is recorded and passed (R204, R205). -/
theorem scanLoop_accept {s : State} (h : s.scanPos + 10 ≤ s.archLen)
    (hv : headerValid s.scanPos (readHeader s.scanPos s).1 = true) (n : Nat) :
    scanLoop (n + 1) s = scanLoop n (acceptHeader (readHeader s.scanPos s).1 (readHeader s.scanPos s).2) := by
  have h' : ¬ s.archLen < s.scanPos + 10 := by omega
  simp [scanLoop, Config.hdrLen, h', hv]

/-- An invalid header stops the scan with BAD_HEADER (R203). -/
theorem scanLoop_reject {s : State} (h : s.scanPos + 10 ≤ s.archLen)
    (hv : headerValid s.scanPos (readHeader s.scanPos s).1 = false) (n : Nat) :
    scanLoop (n + 1) s = diag .badHeader (readHeader s.scanPos s).2 := by
  have h' : ¬ s.archLen < s.scanPos + 10 := by omega
  simp [scanLoop, Config.hdrLen, h', hv]

/-- A header that lies inside the archive is read as its ten bytes, and nothing else happens (R202). -/
theorem readHeader_inside {h : Nat} {s : State} (hin : h + 10 ≤ s.archLen) :
    readHeader h s = (headerAt s h, s) := by
  have r : ∀ k : Nat, k < 10 → readArchive ((h + k : Nat) : Int) s = (s.amem.get (h + k), s) := by
    intro k hk
    rw [readArchive_inside (by omega) (by omega), Int.toNat_natCast]
  have r0 := r 0 (by omega)
  have rw2 : ∀ k : Nat, k < 9 →
      readArchiveBE ((h + k : Nat) : Int) s = (be16 (s.amem.get (h + k)) (s.amem.get (h + k + 1)), s) := by
    intro k hk
    have e1 := r k (by omega)
    have e2 := r (k + 1) (by omega)
    have : (((h + k : Nat) : Int) + 1) = ((h + (k + 1) : Nat) : Int) := by push_cast; ring
    simp only [readArchiveBE, e1, this, e2, Nat.add_assoc]
  simp only [Nat.add_zero] at r0
  simp only [readHeader, headerAt, r0, r 1 (by omega), rw2 2 (by omega), rw2 4 (by omega), rw2 6 (by omega),
    rw2 8 (by omega), Nat.add_assoc]

/-- The three things GETSEG's request can do (R208 to R210). -/
theorem getSegment_cases (i : Nat) (s : State) :
    (s.dtab[i]? = none ∧ getSegment i s = ([], diag .segIndex s)) ∨
    (∃ d data, s.dtab[i]? = some d ∧ memoHit s d = some data ∧ getSegment i s = (data, s)) ∨
    (∃ d, s.dtab[i]? = some d ∧ memoHit s d = none ∧
      getSegment i s =
        (outputBytes (decodeDescriptor d s),
         if s.cfg.memoize then cacheResult i (outputBytes (decodeDescriptor d s)) (decodeDescriptor d s)
         else decodeDescriptor d s)) := by
  unfold getSegment
  rcases hd : s.dtab[i]? with _ | d
  · exact .inl ⟨rfl, rfl⟩
  · rcases hm : memoHit s d with _ | data
    · exact .inr (.inr ⟨d, rfl, hm, by simp only [hm]⟩)
    · exact .inr (.inl ⟨d, data, rfl, hm, by simp only [hm]⟩)

end Sys2Proof.Machine
end

