-- ==== Sys2Proof/Laws/PerInstr.lean ====
section
/-! SUPPORT. The width of every instruction's encoding, one lemma per constructor: the `header_bits` of its row of
spec/opcode_table.json for a token, the eight bits of `CMD[7:0]` for a command. -/

namespace Sys2Proof.Laws

/-- How many bits an encoding has. -/
def encodedBits : Encoded → Nat
  | .stream bits => bits.length
  | .command _ => 8

/-- The bits of each row of the table. -/
def tableBits : Instr → Nat
  | .sraw _ => 5
  | .sref _ => 10
  | .refa _ => 12
  | .refb _ => 13
  | .refc _ _ => 23
  | .lraw _ => 11
  | .sreset => 8
  | .scan => 8
  | .count => 8
  | .getseg => 8
  | .getdesc => 8
  | .segdec => 8
  | .bcInit => 8
  | .bcRead => 8
  | .bcEof => 8
  | .oaInit => 8
  | .oaRaw => 8
  | .oaRef => 8
  | .oaEof => 8
  | .clrdiag => 8
  | .unassigned _ => 8

/-- The encoding is as wide as the table's row. -/
def EncodeWidth.Statement (i : Instr) : Prop := encodedBits (encode i) = tableBits i

theorem EncodeWidth.sraw (l : BitVec 3) : EncodeWidth.Statement (.sraw l) := rfl
theorem EncodeWidth.sref (o : BitVec 8) : EncodeWidth.Statement (.sref o) := rfl
theorem EncodeWidth.refa (o : BitVec 9) : EncodeWidth.Statement (.refa o) := rfl
theorem EncodeWidth.refb (o : BitVec 10) : EncodeWidth.Statement (.refb o) := rfl
theorem EncodeWidth.refc (l : BitVec 8) (o : BitVec 12) : EncodeWidth.Statement (.refc l o) := rfl
theorem EncodeWidth.lraw (l : BitVec 8) : EncodeWidth.Statement (.lraw l) := rfl
theorem EncodeWidth.sreset : EncodeWidth.Statement .sreset := rfl
theorem EncodeWidth.scan : EncodeWidth.Statement .scan := rfl
theorem EncodeWidth.count : EncodeWidth.Statement .count := rfl
theorem EncodeWidth.getseg : EncodeWidth.Statement .getseg := rfl
theorem EncodeWidth.getdesc : EncodeWidth.Statement .getdesc := rfl
theorem EncodeWidth.segdec : EncodeWidth.Statement .segdec := rfl
theorem EncodeWidth.bcInit : EncodeWidth.Statement .bcInit := rfl
theorem EncodeWidth.bcRead : EncodeWidth.Statement .bcRead := rfl
theorem EncodeWidth.bcEof : EncodeWidth.Statement .bcEof := rfl
theorem EncodeWidth.oaInit : EncodeWidth.Statement .oaInit := rfl
theorem EncodeWidth.oaRaw : EncodeWidth.Statement .oaRaw := rfl
theorem EncodeWidth.oaRef : EncodeWidth.Statement .oaRef := rfl
theorem EncodeWidth.oaEof : EncodeWidth.Statement .oaEof := rfl
theorem EncodeWidth.clrdiag : EncodeWidth.Statement .clrdiag := rfl
theorem EncodeWidth.unassigned (code : Byte) : EncodeWidth.Statement (.unassigned code) := rfl

end Sys2Proof.Laws
end

