-- ==== Sys2Proof/Laws/Step.lean ====
section
/-! SUPPORT. What a step can do, said once: an idle step, one host action, one iteration of the decode loop. -/

namespace Sys2Proof.Machine

/-- With no host action pending nothing changes (R322). -/
theorem step_of_idle {s : State} (hf : s.fetchFrom = .hostPort) (hh : s.host = []) : step s = .next s := by
  simp [step, hf, hh]

/-- At the host port a step is the host's next action. -/
theorem step_of_action {s : State} {a : HostAction} {rest : List HostAction} (hf : s.fetchFrom = .hostPort)
    (hh : s.host = a :: rest) : step s = hostStep a { s with host := rest } := by
  simp [step, hf, hh]

/-- In the token stream a step is one iteration of the decode loop: the loop ends, or one token runs. -/
theorem step_of_stream {s : State} (hf : s.fetchFrom = .tokenStream) :
    step s = if decodeDone s then .next { s with fetchFrom := .hostPort }
             else .next (decodeOneToken s) := by
  have : ∀ r : Token × State, exec r.1.toInstr r.2 = .next (runToken r.1 r.2) := fun r => exec_token r.1 r.2
  simp only [step, hf, tokenStep, this]
  rfl

/-- Every step that answers a next state is one of these. -/
theorem step_cases {s t : State} (h : step s = .next t) :
    (s.fetchFrom = .hostPort ∧ s.host = [] ∧ t = s) ∨
    (∃ a rest, s.fetchFrom = .hostPort ∧ s.host = a :: rest ∧ hostStep a { s with host := rest } = .next t) ∨
    (s.fetchFrom = .tokenStream ∧ decodeDone s = true ∧ t = { s with fetchFrom := .hostPort }) ∨
    (s.fetchFrom = .tokenStream ∧ decodeDone s = false ∧ t = decodeOneToken s) := by
  have hsrc : s.fetchFrom = .hostPort ∨ s.fetchFrom = .tokenStream := by cases s.fetchFrom <;> simp
  have hact : s.host = [] ∨ ∃ a rest, s.host = a :: rest := by cases s.host <;> simp
  rcases hsrc with hf | hf
  · rcases hact with hh | ⟨a, rest, hh⟩
    · rw [step_of_idle hf hh] at h
      exact .inl ⟨hf, hh, (Host.Outcome.next.inj h).symm⟩
    · rw [step_of_action hf hh] at h
      exact .inr (.inl ⟨a, rest, hf, hh, h⟩)
  · rw [step_of_stream hf] at h
    by_cases hd : decodeDone s = true
    · rw [if_pos hd] at h
      exact .inr (.inr (.inl ⟨hf, hd, (Host.Outcome.next.inj h).symm⟩))
    · rw [if_neg hd] at h
      exact .inr (.inr (.inr ⟨hf, by simpa using hd, (Host.Outcome.next.inj h).symm⟩))

end Sys2Proof.Machine
end

