-- ==== Sys2Proof/Tests/Slice0.lean ====
section
/-! SUPPORT. The model's own tests: words written out from the encodings of 30_encoding.md, single steps whose expected
values come from 95_test_vectors.md (the vector is named), and, for each statement with hypotheses, a state that meets
them, each clause at a boundary of its range. -/

namespace Sys2Proof.Tests

open Sys2Proof Sys2Proof.Machine

set_option Elab.async false

/-! ## States -/

/-- Reset, with these bytes loaded from address 0 and `ARCHLEN` their number. -/
def loaded (bytes : List Byte) : State :=
  { State.reset with amem := Memory.store [] 0 bytes, archLen := bytes.length }

/-- A state with its five arguments. -/
def withArgs (a0 a1 a2 a3 a4 : Word) (s : State) : State :=
  { s with arg0 := a0, arg1 := a1, arg2 := a2, arg3 := a3, arg4 := a4 }

/-- The state with this code as the host's one action. -/
def commanded (code : Word) (s : State) : State := { s with host := [.write 0 code] }

/-- The next state of a step; where there is none, a state no test expects. -/
def after (s : State) : State :=
  match step s with
  | .next t => t
  | .fault _ => { State.reset with faultCode := 0xEE }
  | .refused _ => { State.reset with faultCode := 0xDD }

/-- The cursor as the vectors write it: pos, buf, rem, sum. -/
def cursor (s : State) : Int × Byte × Nat × Byte := (s.bcu.pos, s.bcu.buf, s.bcu.rem, s.bcu.sum)

/-- Mid-decode: this archive read by a cursor over all of it, and this output so far. -/
def decoding (bytes : List Byte) (pos : Int) (buf : Byte) (rem : Nat) (sum : Byte) (len wpos : Nat)
    (omem : Memory) : State :=
  { loaded bytes with
    fetchFrom := .tokenStream
    bcu := { base := 0, len := bytes.length, pos := pos, buf := buf, rem := rem, sum := sum }
    oau := { len := len, wpos := wpos, omem := omem } }

/-- T42 after its SRAW: the next token is `SREF 2`. -/
def atSref : State := decoding [0x40, 0x51, 0x08, 0x90] 1 0x02 3 0xC9 4 2 [(2, 0x11), (3, 0x22)]

/-- T43 after its SRAW: the next token is `REFA 3`. -/
def atRefa : State :=
  decoding [0x00, 0x80, 0x31, 0x08, 0x99, 0x88] 2 0x01 3 0x28 6 3 [(3, 0x11), (4, 0x22), (5, 0x33)]

/-- T44 after its SRAW: the next token is `REFB 4`. -/
def atRefb : State :=
  decoding [0x03, 0x00, 0xB1, 0x08, 0x99, 0x84, 0x58] 2 0x05 3 0xFC 8 4 [(4, 0x11), (5, 0x22), (6, 0x33), (7, 0x44)]

/-- T46 after its SRAW: the next token is `REFC 7, 1`. -/
def atRefc : State := decoding [0x00, 0x00, 0x60, 0x6B, 0x40] 3 0x03 3 0x2B 8 7 [(7, 0x5A)]

/-- T40 at its start: the next token is `SRAW 0x41`. -/
def atSraw : State := decoding [0x10, 0x40] 1 0x40 8 0x40 1 1 []

/-- T48 at its start: the next token is `LRAW 9, 8, ..., 1`. -/
def atLraw : State :=
  decoding [0x04, 0x02, 0x06, 0x01, 0x05, 0x03, 0x07, 0x00, 0x84, 0x80, 0x07] 10 0x07 8 0x07 9 9 []

/-- T91's archive with the right checksum: one segment, T1's payload. -/
def oneSegment : List Byte := [0x08, 0x48, 0x12, 0x34, 0x00, 0x03, 0xAB, 0xCD, 0x00, 0x0E, 0x10, 0x48, 0x58, 0x48]

/-- The descriptor R204 gives for it. -/
def theSegment : Descriptor :=
  { index := 0, offset := 10, compressedSize := 4, decompressedSize := 3, checksum := 0x48, initialBufferLen := 8,
    unknown1 := 0x1234, unknown0 := 0xABCD, cache := none }

/-- After SCAN of it. -/
def scannedState : State := { loaded oneSegment with scanPos := 14, scanned := true, dtab := [theSegment] }

/-- After GETSEG of it: the payload is cached. -/
def cachedState : State := { scannedState with dtab := [{ theSegment with cache := some [0x41, 0x42, 0x43] }] }

/-- A build with 8-bit archive addresses, where the argument checks of R293 can fail. -/
def narrow (s : State) : State := { s with cfg := { aw := 8, omax := 65535, memoize := true } }

/-- In FAULT after a bad bit count. -/
def faulted : State := { State.reset with fault := true, faultCode := 1 }

/-! ## Well-formedness (R117, R245) -/

theorem test_wellFormed_refuses_assigned_code : (Instr.unassigned 0x30).wellFormed = false := by decide
theorem test_wellFormed_refuses_code_zero : (Instr.unassigned 0x00).wellFormed = false := by decide
theorem test_wellFormed_accepts_free_code : (Instr.unassigned 0x06).wellFormed = true := by decide

/-! ## Decoding (R104 to R109, R117): words written bit by bit from the patterns, first consumed bit first -/

theorem test_decode_sraw : decodeToken [false, false, true, false, true, true] = .ok (.sraw 5, [true]) := by decide
theorem test_decode_sref :
    decodeToken [false, true, true, false, false, false, false, false, false, true] = .ok (.sref 0x81, []) := by decide
theorem test_decode_refa :
    decodeToken [true, false, false, true, false, false, false, false, false, false, true, false] = .ok (.refa 0x102, []) := by
  decide
theorem test_decode_refb :
    decodeToken [true, false, true, true, false, false, false, false, false, false, false, true, true]
      = .ok (.refb 0x203, []) := by decide
theorem test_decode_refc :
    decodeToken [true, true, false, true, false, false, false, false, true, true, false,
      true, false, false, false, false, false, false, false, false, false, false, true] = .ok (.refc 0x86 0x801, []) := by
  decide
theorem test_decode_lraw :
    decodeToken [true, true, true, true, false, false, false, false, false, false, true] = .ok (.lraw 0x81, []) := by decide
theorem test_decode_truncated : decodeToken [true, true, false, true] = .error .truncated := by decide
theorem test_decode_housekeeping :
    decodeCommand 0x00 = .sreset ∧ decodeCommand 0x30 = .clrdiag ∧ decodeCommand 0x31 = .unassigned 0x31 := by decide
theorem test_decode_container :
    decodeCommand 0x01 = .scan ∧ decodeCommand 0x02 = .count ∧ decodeCommand 0x03 = .getseg ∧
    decodeCommand 0x04 = .getdesc ∧ decodeCommand 0x05 = .segdec := by decide
theorem test_decode_units :
    decodeCommand 0x10 = .bcInit ∧ decodeCommand 0x11 = .bcRead ∧ decodeCommand 0x12 = .bcEof ∧
    decodeCommand 0x20 = .oaInit ∧ decodeCommand 0x21 = .oaRaw ∧ decodeCommand 0x22 = .oaRef ∧
    decodeCommand 0x23 = .oaEof := by decide
/-- The table's match columns, each as the word of a row. -/
theorem test_table_words :
    decodeTableWord 16 0x100 = some (.sref 0) ∧ decodeTableWord 16 0x800 = some (.refa 0) ∧
    decodeTableWord 16 0x1400 = some (.refb 0) ∧ decodeTableWord 24 0x600000 = some (.refc 0 0) ∧
    decodeTableWord 16 0x700 = some (.lraw 0) ∧ decodeTableWord 8 0x07 = some (.sraw 7) ∧
    decodeTableWord 8 0x05 = some .segdec ∧ decodeTableWord 8 0x7F = some (.unassigned 0x7F) := by decide +kernel

/-! ## Tokens, one step each -/

/-- T40. -/
theorem test_sraw_shortest :
    outputBytes (after atSraw) = [0x41] ∧ cursor (after atSraw) = (0, 0x00, 3, 0x50) ∧ (after atSraw).diag = 0 := by
  decide +kernel
/-- T60: the token is clamped to two bytes. -/
theorem test_sraw_clamp :
    let t := after (decoding [0x10, 0x48, 0x58, 0x48] 3 0x48 8 0x48 2 2 [])
    outputBytes t = [0x42, 0x43] ∧ cursor t = (1, 0x02, 3, 0x58) ∧ t.diag = 0x0004 := by decide +kernel
/-- T42. -/
theorem test_sref_step :
    outputBytes (after atSref) = [0x11, 0x22, 0x11, 0x22] ∧ cursor (after atSref) = (0, 0x00, 1, 0x89) := by
  decide +kernel
/-- T43. -/
theorem test_refa_step :
    outputBytes (after atRefa) = [0x11, 0x22, 0x33, 0x11, 0x22, 0x33] ∧ cursor (after atRefa) = (0, 0x00, 7, 0xA8) := by
  decide +kernel
/-- T44. -/
theorem test_refb_step :
    outputBytes (after atRefb) = [0x11, 0x22, 0x33, 0x44, 0x11, 0x22, 0x33, 0x44] ∧
    cursor (after atRefb) = (0, 0x00, 6, 0xFF) := by decide +kernel
/-- T46: a run. -/
theorem test_refc_run :
    outputBytes (after atRefc) = List.replicate 8 0x5A ∧ cursor (after atRefc) = (0, 0x00, 4, 0x4B) := by decide +kernel
/-- T48. -/
theorem test_lraw_shortest :
    outputBytes (after atLraw) = [1, 2, 3, 4, 5, 6, 7, 8, 9] ∧ cursor (after atLraw) = (0, 0x00, 5, 0x03) := by
  decide +kernel

/-! ## Commands, one step each -/

/-- T97. -/
theorem test_sreset_leaves_fault : (after (commanded 0x00 faulted)).fault = false ∧
    portRead 0x07 (after (commanded 0x00 faulted)) = 0x00000018 := by decide +kernel
/-- T80's first segment, and T82. -/
theorem test_scan_one_segment :
    let t := after (commanded 0x01 (withArgs 14 0 0 0 0 (loaded oneSegment)))
    t.dtab = [theSegment] ∧ t.scanPos = 14 ∧ t.res0 = 1 ∧ t.scanned = true ∧ t.diag = 0 := by decide +kernel
theorem test_scan_bad_header :
    let t := after (commanded 0x01 (withArgs 13 0 0 0 0 (loaded [8, 0, 0, 0, 0, 4, 0, 0, 0, 9, 1, 2, 3])))
    t.dtab = [] ∧ t.scanPos = 0 ∧ t.diag = 0x0040 ∧ t.fault = false := by decide +kernel
/-- P4 line 4. -/
theorem test_count : (after (commanded 0x02 scannedState)).res0 = 1 := by decide +kernel
/-- T86. -/
theorem test_getseg_decodes :
    let t := after (commanded 0x03 scannedState)
    t.rbuf = [0x41, 0x42, 0x43] ∧ t.res0 = 3 ∧ portRead 0x28 t = 3 ∧ cursor t = (0, 0x00, 3, 0x48) ∧ t.csumOk = true := by
  decide +kernel
/-- T87. -/
theorem test_getseg_out_of_range :
    let t := after (commanded 0x03 (withArgs 2 0 0 0 0 scannedState))
    t.rbuf = [] ∧ t.res0 = 0 ∧ t.diag = 0x0100 ∧ portRead 0x28 t = 0 := by decide +kernel
/-- T86. -/
theorem test_getdesc :
    let t := after (commanded 0x04 scannedState)
    portRead 0x21 t = 10 ∧ portRead 0x26 t = 0x1234 ∧ portRead 0x27 t = 0xABCD ∧ portRead 0x28 t = 1 := by decide +kernel
/-- T1. -/
theorem test_segdec_source_example :
    let t := after (commanded 0x05 (withArgs 0 4 3 0x48 8 (loaded [0x10, 0x48, 0x58, 0x48])))
    t.rbuf = [0x41, 0x42, 0x43] ∧ cursor t = (0, 0x00, 3, 0x48) ∧ t.csumOk = true ∧ t.diag = 0 := by decide +kernel
/-- T65. -/
theorem test_segdec_checksum_mismatch :
    let t := after (commanded 0x05 (withArgs 0 4 3 0x49 8 (loaded [0x10, 0x48, 0x58, 0x48])))
    t.rbuf = [0x41, 0x42, 0x43] ∧ t.csumOk = false ∧ t.diag = 0x0020 ∧ t.fault = false := by decide +kernel
/-- T2, T28. -/
theorem test_bcInit :
    cursor (after (commanded 0x10 (withArgs 0 2 8 0 0 (loaded [0xAA, 0x55])))) = (1, 0x55, 8, 0x55) := by decide +kernel
theorem test_bcInit_zero_bits :
    let t := after (commanded 0x10 (withArgs 0 1 0 0 0 (loaded [0xA5])))
    cursor t = (0, 0xA5, 0, 0xA5) ∧ t.diag = 0x0080 ∧ bcEof t = true := by decide +kernel
/-- T13, T22. -/
theorem test_bcRead_widest :
    let t := after (commanded 0x11 { withArgs 32 0 0 0 0 (loaded [0x12, 0x34, 0x56, 0x78]) with
      bcu := { base := 0, len := 4, pos := 3, buf := 0x78, rem := 8, sum := 0x78 } })
    t.res0 = 0x1E6A2C48 ∧ cursor t = (0, 0x00, 0, 0x08) := by decide +kernel
theorem test_bcRead_underrun :
    let t := after (commanded 0x11 { withArgs 12 0 0 0 0 (loaded [0x80]) with
      bcu := { base := 0, len := 1, pos := 0, buf := 0x80, rem := 8, sum := 0x80 } })
    t.res0 = 0x010 ∧ cursor t = (-1, 0x00, 0, 0x80) ∧ t.diag = 0x0002 := by decide +kernel
/-- T99. -/
theorem test_bcEof : (after (commanded 0x12 State.reset)).res0 = 1 := by decide +kernel
/-- T30, T98. -/
theorem test_oaInit : (after (commanded 0x20 (withArgs 3 0 0 0 0 State.reset))).oau = ⟨3, 3, []⟩ := by decide +kernel
theorem test_oaInit_too_long :
    portRead 0x07 (after (commanded 0x20 (withArgs 65536 0 0 0 0 State.reset))) = 0x03000019 := by decide +kernel
/-- T31. -/
theorem test_oaRaw :
    let t := after (commanded 0x21 { withArgs 2 0 0 0 0 (loaded [0xC2, 0x82]) with
      bcu := { base := 0, len := 2, pos := 1, buf := 0x82, rem := 8, sum := 0x82 }, oau := ⟨3, 3, []⟩ })
    outputBytes t = [0x00, 0x43, 0x41] ∧ t.oau.wpos = 1 ∧ cursor t = (0, 0x00, 0, 0x40) := by decide +kernel
/-- T33: the overlap repeats. -/
theorem test_oaRef_overlap :
    let t := after (commanded 0x22 { withArgs 5 4 0 0 0 (loaded [0x08, 0xD5, 0xB3]) with
      bcu := { base := 0, len := 3, pos := 1, buf := 0x00, rem := 0, sum := 0x66 }
      oau := ⟨7, 5, [(5, 0xAB), (6, 0xCD)]⟩ })
    outputBytes t = [0xCD, 0xAB, 0xCD, 0xAB, 0xCD, 0xAB, 0xCD] ∧ cursor t = (0, 0x00, 4, 0x6E) ∧ t.diag = 0 := by
  decide +kernel
/-- T39: the offset is 2^32. -/
theorem test_oaRef_widest_offset :
    let t := after (commanded 0x22 { withArgs 1 32 0 0 0 (loaded [0xFF, 0xFF, 0xFF, 0xFF]) with
      bcu := { base := 0, len := 4, pos := 3, buf := 0xFF, rem := 8, sum := 0xFF }, oau := ⟨2, 2, []⟩ })
    outputBytes t = [0x00, 0x00] ∧ t.oau.wpos = 1 ∧ t.diag = 0x0010 := by decide +kernel
/-- T99. -/
theorem test_oaEof : (after (commanded 0x23 State.reset)).res0 = 1 := by decide +kernel
/-- P4 line 10. -/
theorem test_clrdiag : (after (commanded 0x30 { State.reset with diag := 0x0100 })).diag = 0 := by decide +kernel
/-- T97. -/
theorem test_unassigned :
    portRead 0x07 (after (commanded 0x7F State.reset)) = 0x02000019 ∧
    (after (commanded 0x7F faulted)).faultCode = 1 := by decide +kernel

/-! ## The reference encoder and both packings (T50, T102, R266) -/

theorem test_encode_source_example : encodePayload [0x41, 0x42, 0x43] = [0x10, 0x48, 0x58, 0x48] := by decide +kernel
/-- T102's buffer: the list its encoder emits, and the list a decode of T1's payload runs (R268 item 4). -/
theorem test_emitted_tokens : emittedTokens [0x41, 0x42, 0x43] = [(.sraw 2, [0x43, 0x42, 0x41])] := by decide
theorem test_decoded_tokens :
    decodedTokens 0 4 3 8 (loaded [0x10, 0x48, 0x58, 0x48]) = [(.sraw 2, [0x43, 0x42, 0x41])] := by decide +kernel
theorem test_pack_native :
    packNative (assemble [.sraw [0x43, 0x42, 0x41]]) = [0x82, 0x42, 0xC2, 0x08] ∧
    nativeCount (assemble [.sraw [0x43, 0x42, 0x41]]) = 5 := by decide +kernel
theorem test_container_bytes :
    containerBytes [([0x41, 0x42, 0x43], 0x1234, 0xABCD)] [] = oneSegment := by decide +kernel

/-! ## Witnesses: states and operands that meet the hypotheses of the statements -/

theorem witness_DecodeEncodeAgree :
    (Instr.unassigned 0xFF).wellFormed = true ∧ encode (.unassigned 0xFF) = .command 0xFF ∧
    (Instr.refc 0xFF 0xFFF).wellFormed = true ∧ encode (.refc 0xFF 0xFFF) = .stream (true :: true :: false :: List.replicate 20 true) := by
  decide

theorem witness_DecodedBitsEncodeBack : decodeToken [false, false, false, false, false] = .ok (.sraw 0, []) := by decide

theorem witness_TokenCodeIsCompletePrefixCode :
    23 ≤ (List.replicate 23 true).length ∧
    encodeToken (.sraw 7) ++ [true] = encodeToken (.sraw 7) ++ [true] := by decide

/-- The first clause with bits left in the buffer, the second at the end of the output. -/
theorem witness_StepRunsDecodedToken :
    (atSref.fetchFrom = .tokenStream ∧ atSref.bcu.rem ≤ 8 ∧ decodeDone atSref = false ∧
      decodeToken (nextBits 23 atSref) = .ok (.sref 1, List.replicate 13 false)) ∧
    (after atSref).fetchFrom = .tokenStream ∧ decodeDone (after atSref) = true := by decide +kernel

theorem witness_StepRunsWrittenCommand :
    (commanded 0xFFFFFF05 State.reset).fetchFrom = .hostPort ∧
    (commanded 0xFFFFFF05 State.reset).host = .write 0x00 0xFFFFFF05 :: [] ∧ Instr.segdec.wellFormed = true ∧
    encode .segdec = .command ((0xFFFFFF05 : Word).setWidth 8) := by decide

theorem witness_FetchReadsTheStream : atRefc.bcu.rem ≤ 8 := by decide

/-- One state per clause: idle, the five argument registers, the first register whose write is ignored, a read, the last
address that exists, the first that does not, a reset. -/
theorem witness_HostActionsEffect :
    State.reset.fetchFrom = .hostPort ∧ State.reset.host = [] ∧
    (∀ a ∈ ([.write 1 0, .write 2 0, .write 3 0, .write 4 0, .write 5 0, .write 6 0, .read 0, .load (2 ^ 32 - 1) 0xFF,
        .load (2 ^ 32) 0xFF, .hardReset] : List HostAction), ({ State.reset with host := [a] } : State).host = a :: []) ∧
    2 ^ 32 - 1 < 2 ^ State.reset.cfg.aw ∧ 2 ^ State.reset.cfg.aw ≤ 2 ^ 32 ∧ 6 ≤ 6 := by decide

/-- The widest value the port shows, BC_POS at -1, at 0 and at its largest, and each edge of the reserved numbers. -/
theorem witness_PortReads :
    let s := { State.reset with archLen := 2 ^ 32 - 1, scanPos := 2 ^ 32 - 1,
                                bcu := { State.reset.bcu with base := 2 ^ 32 - 1, len := 2 ^ 32 - 1 },
                                oau := ⟨65535, 65535, []⟩, latch := { DescLatch.clear with offset := 2 ^ 32 - 1 } }
    s.archLen < 2 ^ 32 ∧ s.scanPos < 2 ^ 32 ∧ s.dtab.length < 2 ^ 32 ∧ s.bcu.base < 2 ^ 32 ∧ s.bcu.len < 2 ^ 32 ∧
    s.bcu.pos = -1 ∧ s.bcu.rem ≤ 8 ∧ s.oau.len < 2 ^ 32 ∧ s.oau.wpos < 2 ^ 32 ∧ s.latch.index < 2 ^ 32 ∧
    s.latch.offset < 2 ^ 32 ∧ 0 ≤ atSraw.bcu.pos ∧ atSraw.bcu.pos < 2 ^ 32 := by decide

/-- The ends of the counts and widths, the longest scan that finds nothing, the longest buffer, the largest arguments. -/
theorem witness_CommandsStraightAfterReset :
    1 ≤ (1 : Word).toNat ∧ (1 : Word).toNat ≤ 32 ∧ 1 ≤ (32 : Word).toNat ∧ (32 : Word).toNat ≤ 32 ∧
    (0 : Word).toNat < 10 ∧ (9 : Word).toNat < 10 ∧ (65535 : Word).toNat ≤ 65535 ∧ 1 ≤ (0xFFFFFFFF : Word).toNat := by
  decide

theorem witness_ArchiveReadFallback :
    (0 ≤ (0 : Int) ∧ (0 : Int) < ((loaded [0xA5]).archLen : Int)) ∧ (-1 : Int) < 0 ∧
    ((loaded [0xA5]).archLen : Int) ≤ 1 := by decide

theorem witness_MemoryReadAfterWrite : Memory.wf [(0, 0x11), (3, 0x22)] = true ∧ (3 : Nat) ≠ 0 := by decide

/-- An empty range, a range of one byte, and each bound of the argument check at its edge. -/
theorem witness_BcInitEffect :
    let e := narrow (withArgs 511 0 0 0 0 State.reset)
    let p := narrow (withArgs 511 255 9 0 0 State.reset)
    let q := narrow (withArgs 512 256 8 0 0 State.reset)
    (e.fault = false ∧ e.arg0.toNat < 2 ^ (e.cfg.aw + 1) ∧ e.arg1.toNat < 2 ^ e.cfg.aw ∧ e.arg1.toNat = 0) ∧
    (p.fault = false ∧ p.arg0.toNat < 2 ^ (p.cfg.aw + 1) ∧ p.arg1.toNat < 2 ^ p.cfg.aw ∧ 1 ≤ p.arg1.toNat) ∧
    q.fault = false ∧ 2 ^ (q.cfg.aw + 1) ≤ q.arg0.toNat ∧ 2 ^ q.cfg.aw ≤ q.arg1.toNat := by decide

/-- Both ends of the legal counts, and the two counts just outside. -/
theorem witness_BcReadEffect :
    let s := fun n => { atSref with arg0 := n }
    (s 1).fault = false ∧ (s 1).bcu.rem ≤ 8 ∧ 1 ≤ (s 1).arg0.toNat ∧ (s 32).arg0.toNat ≤ 32 ∧ (s 0).arg0.toNat = 0 ∧
    32 < (s 33).arg0.toNat := by decide

theorem witness_OneBitRead :
    atSref.bcu.rem ≠ 0 ∧
    (let s := { atSref with bcu := { atSref.bcu with rem := 0 } }; s.bcu.rem = 0 ∧ 0 < s.bcu.pos) ∧
    (let s := { atSref with bcu := { atSref.bcu with rem := 0, pos := 0 } }; s.bcu.rem = 0 ∧ s.bcu.pos ≤ 0) := by decide

theorem witness_ByteReadReverses :
    atSraw.bcu.rem = 8 ∧ (let s := { atSraw with bcu := { atSraw.bcu with rem := 0 } }; s.bcu.rem = 0 ∧ 0 < s.bcu.pos) := by
  decide

/-- A range of one byte and a range of two, the first and the last stream bit of each part. -/
theorem witness_StreamOrder :
    1 ≤ 1 ∧ 0 < min 8 8 ∧ (min 3 8 ≤ 3 ∧ 3 < min 3 8 + 8 * (2 - 1)) ∧ (min 3 8 ≤ 10 ∧ 10 < min 3 8 + 8 * (2 - 1)) ∧
    atSref.bcu.rem ≤ 8 := by decide

theorem witness_ChecksumLaw :
    checksumLaw atSref = true ∧ atSref.bcu.pos + 1 ≤ (atSref.bcu.len : Int) ∧
    checksumLaw atSraw = true ∧ atSraw.bcu.pos + 1 ≤ (atSraw.bcu.len : Int) := by decide +kernel

theorem witness_EofCommandsEffect : State.reset.fault = false := by decide

/-- The longest buffer, its last index and the first beyond it, and the first length that faults. -/
theorem witness_OaInitEffect :
    let s := fun n => withArgs n 0 0 0 0 State.reset
    (s 65535).fault = false ∧ (s 65535).arg0.toNat ≤ (s 65535).cfg.omax ∧
    65534 < (s 65535).arg0.toNat ∧ (s 65535).arg0.toNat ≤ 65535 ∧ (s 65536).cfg.omax < (s 65536).arg0.toNat := by
  decide

theorem witness_OaRawEffect : atSref.fault = false ∧ atSref.bcu.rem ≤ 8 ∧ atSref.oau.omem.wf = true := by decide

theorem witness_OaRefEffect :
    let s := fun w => { atSref with arg0 := 2, arg1 := w }
    (s 1).fault = false ∧ (s 1).bcu.rem ≤ 8 ∧ (s 1).oau.omem.wf = true ∧ 1 ≤ (s 1).arg1.toNat ∧ (s 32).arg1.toNat ≤ 32 ∧
    (s 0).arg1.toNat = 0 ∧ 32 < (s 33).arg1.toNat := by decide

theorem witness_RawTokensExecute : atLraw.bcu.rem ≤ 8 ∧ atLraw.oau.omem.wf = true := by decide

theorem witness_BackReferenceTokensExecute : atRefa.oau.omem.wf = true := by decide

/-- A state in front of each token. -/
theorem witness_RawTokensStep :
    (atSraw.fetchFrom = .tokenStream ∧ atSraw.bcu.rem ≤ 8 ∧ atSraw.oau.omem.wf = true ∧ decodeDone atSraw = false ∧
      nextBits 5 atSraw = encodeToken (.sraw 0)) ∧
    (atLraw.fetchFrom = .tokenStream ∧ atLraw.bcu.rem ≤ 8 ∧ atLraw.oau.omem.wf = true ∧ decodeDone atLraw = false ∧
      nextBits 11 atLraw = encodeToken (.lraw 0)) := by decide +kernel

theorem witness_BackReferenceTokensStep :
    (atSref.fetchFrom = .tokenStream ∧ atSref.bcu.rem ≤ 8 ∧ atSref.oau.omem.wf = true ∧ decodeDone atSref = false ∧
      nextBits 10 atSref = encodeToken (.sref 1)) ∧
    (atRefa.fetchFrom = .tokenStream ∧ atRefa.bcu.rem ≤ 8 ∧ atRefa.oau.omem.wf = true ∧ decodeDone atRefa = false ∧
      nextBits 12 atRefa = encodeToken (.refa 2)) ∧
    (atRefb.fetchFrom = .tokenStream ∧ atRefb.bcu.rem ≤ 8 ∧ atRefb.oau.omem.wf = true ∧ decodeDone atRefb = false ∧
      nextBits 13 atRefb = encodeToken (.refb 3)) ∧
    (atRefc.fetchFrom = .tokenStream ∧ atRefc.bcu.rem ≤ 8 ∧ atRefc.oau.omem.wf = true ∧ decodeDone atRefc = false ∧
      nextBits 23 atRefc = encodeToken (.refc 6 0)) := by decide +kernel

/-- T46's run, and the last offset that stays inside the buffer; both ends of the copied bytes. -/
theorem witness_OverlapRepeats :
    atRefc.oau.omem.wf = true ∧ atRefc.oau.wpos + (0 : BitVec 12).toNat < atRefc.oau.len ∧
    atSref.oau.wpos + (1 : BitVec 12).toNat < atSref.oau.len ∧
    1 ≤ min ((6 : BitVec 8).toNat + 1) atRefc.oau.wpos ∧ 7 ≤ min ((6 : BitVec 8).toNat + 1) atRefc.oau.wpos := by
  decide

theorem witness_TokensMakeProgress : decodeDone atRefb = false ∧ atRefb.oau.wpos ≤ 4 := by decide +kernel

/-- T1's arguments, and each bound of the argument check at its edge. -/
theorem witness_SegdecEffect :
    let s := withArgs 0 4 3 0x48 8 (loaded [0x10, 0x48, 0x58, 0x48])
    let e := narrow (withArgs 511 255 65535 0 0 State.reset)
    let q := narrow (withArgs 512 256 65536 0 0 State.reset)
    (s.fault = false ∧ s.arg0.toNat < 2 ^ (s.cfg.aw + 1) ∧ s.arg1.toNat < 2 ^ s.cfg.aw ∧ s.arg2.toNat ≤ s.cfg.omax) ∧
    (e.fault = false ∧ e.arg0.toNat < 2 ^ (e.cfg.aw + 1) ∧ e.arg1.toNat < 2 ^ e.cfg.aw ∧ e.arg2.toNat ≤ e.cfg.omax) ∧
    q.fault = false ∧ 2 ^ (q.cfg.aw + 1) ≤ q.arg0.toNat ∧ 2 ^ q.cfg.aw ≤ q.arg1.toNat ∧ q.cfg.omax < q.arg2.toNat := by
  decide

theorem witness_DecodeIsARunOfTokenSteps :
    let s := withArgs 0 4 3 0x48 8 (loaded [0x10, 0x48, 0x58, 0x48])
    s.fault = false ∧ segdecBadArg s = false ∧ exec .segdec s = .next (segdecEffect s) := by
  refine ⟨by decide, by decide, rfl⟩

/-- Two archives that differ outside the range and outside the archive. -/
theorem witness_DecodeIsPure :
    let s := loaded [0x10, 0x48, 0x58, 0x48, 0xFF]
    let t := { s with amem := (s.amem.set 4 0xEE).set 9 0x77 }
    s.archLen = t.archLen ∧ s.amem ≠ t.amem ∧
    (∀ a, a < 0 + 4 → 0 ≤ a → a < s.archLen → s.amem.get a = t.amem.get a) := by decide

theorem witness_BytesIgnoreDeclaredChecksum :
    let s := withArgs 0 4 3 0x48 8 (loaded [0x10, 0x48, 0x58, 0x48])
    s.fault = false ∧ segdecBadArg s = false := by decide

theorem witness_PackingsReplayTheirBits :
    (let s := loaded (packTail [true, false, true])
     (packTail [true, false, true]).length ≤ s.archLen ∧ s.amem.get 0 = (packTail [true, false, true])[0]!) ∧
    (let s := loaded (packNative [true, false, true])
     (packNative [true, false, true]).length ≤ s.archLen ∧ s.amem.get 0 = (packNative [true, false, true])[0]!) := by
  decide

/-- T1's buffer, and the empty one. -/
theorem witness_EncodeDecodeRoundTrip :
    (let s := withArgs 0 4 3 0x48 8 (loaded [0x10, 0x48, 0x58, 0x48])
     s.fault = false ∧ segdecBadArg s = false ∧ encodePayload [0x41, 0x42, 0x43] = [0x10, 0x48, 0x58, 0x48] ∧
     s.archLen = 4 ∧ s.amem.bytes 0 4 = [0x10, 0x48, 0x58, 0x48] ∧
     s.arg3.setWidth 8 = encodeChecksum [0x41, 0x42, 0x43] ∧ s.arg4 = 8) ∧
    (let s := withArgs 0 0 0 0 8 State.reset
     s.fault = false ∧ segdecBadArg s = false ∧ encodePayload [] = [] ∧ s.arg3.setWidth 8 = encodeChecksum [] ∧ s.arg4 = 8) := by
  decide +kernel

/-- T1's buffer, and the empty one. -/
theorem witness_DecodedTokensAreTheEmittedOnes :
    (let s := loaded [0x10, 0x48, 0x58, 0x48]
     encodePayload [0x41, 0x42, 0x43] = [0x10, 0x48, 0x58, 0x48] ∧ s.archLen = 4 ∧
     s.amem.bytes 0 4 = [0x10, 0x48, 0x58, 0x48] ∧ ([0x41, 0x42, 0x43] : List Byte) ≠ []) ∧
    encodePayload [] = [] := by decide +kernel

/-- One segment and three trailing bytes; trailing bytes that are a header of size 9. -/
theorem witness_ContainerRoundTrip :
    let segs : List (List Byte × Half × Half) := [([0x41, 0x42, 0x43], 0x1234, 0xABCD)]
    let s := withArgs 17 0 0 0 0 (loaded (containerBytes segs [0xDE, 0xAD, 0xBE]))
    s.fault = false ∧ (∀ g ∈ segs, encodable g.1 = true) ∧ endsScan [0xDE, 0xAD, 0xBE] = true ∧
    endsScan [8, 0, 0, 0, 0, 4, 0, 0, 0, 9] = true ∧
    s.arg0.toNat = (containerBytes segs [0xDE, 0xAD, 0xBE]).length ∧ s.arg0.toNat < 2 ^ s.cfg.aw ∧
    s.amem.bytes 0 17 = containerBytes segs [0xDE, 0xAD, 0xBE] := by decide +kernel

theorem witness_ScanBuildsTable :
    (let s := narrow (withArgs 255 0 0 0 0 (loaded oneSegment)); s.fault = false ∧ s.arg0.toNat < 2 ^ s.cfg.aw) ∧
    (let s := narrow (withArgs 256 0 0 0 0 (loaded oneSegment)); s.fault = false ∧ 2 ^ s.cfg.aw ≤ s.arg0.toNat) := by decide

theorem witness_CountEffect : scannedState.fault = false := by decide

theorem witness_GetdescEffect :
    (scannedState.fault = false ∧ scannedState.dtab[scannedState.arg0.toNat]? = some theSegment) ∧
    (let s := { scannedState with arg0 := 1 }; s.dtab.length ≤ s.arg0.toNat) := by decide

/-- The first index out of range, a cached segment, one not yet decoded. -/
theorem witness_GetsegEffect :
    (let s := { scannedState with arg0 := 1 }; s.fault = false ∧ s.dtab.length ≤ s.arg0.toNat) ∧
    (cachedState.fault = false ∧ cachedState.cfg.memoize = true ∧
      cachedState.dtab[cachedState.arg0.toNat]? = some { theSegment with cache := some [0x41, 0x42, 0x43] }) ∧
    (scannedState.fault = false ∧ scannedState.dtab[scannedState.arg0.toNat]? = some theSegment ∧
      theSegment.cache = none) := by decide

/-- GETSEG, then BC_INIT, OA_INIT or CLRDIAG on the state it leaves, with arguments of their own, then GETSEG again. -/
theorem witness_GetsegTwiceIsOnce :
    let t := after (commanded 0x03 scannedState)
    let v := after (commanded 0x10 (withArgs 0 4 8 0 0 t))
    scannedState.cfg.memoize = true ∧ scannedState.fault = false ∧
    scannedState.arg0.toNat < scannedState.dtab.length ∧
    (v.fault = false ∧ v.cfg = t.cfg ∧ v.dtab = t.dtab ∧ v.arg0 = scannedState.arg0) ∧
    exec .bcInit (withArgs 0 4 8 0 0 t) = .next v ∧ v.bcu ≠ t.bcu ∧
    (after (commanded 0x20 (withArgs 5 4 8 0 0 t))).fault = false ∧
    (after (commanded 0x30 (withArgs 5 4 8 0 0 t))).fault = false := by
  refine ⟨rfl, rfl, by decide, ⟨rfl, rfl, rfl, rfl⟩, rfl, by decide +kernel, rfl, rfl⟩

theorem witness_MemoizeDoesNotChangeBytes :
    cachedState.fault = false ∧
    cachedState.dtab[cachedState.arg0.toNat]? = some { theSegment with cache := some [0x41, 0x42, 0x43] } ∧
    some (outputBytes (decodeDescriptor { theSegment with cache := some [0x41, 0x42, 0x43] } cachedState))
      = some [0x41, 0x42, 0x43] := by decide +kernel

theorem witness_UnassignedCodeFaults : State.reset.fault = false ∧ (Instr.unassigned 0x06).wellFormed = true := by decide

/-- Each of the three faults. -/
theorem witness_FaultEntryIsPrecise :
    State.reset.fault = false ∧
    ((after (commanded 0x7F State.reset)).fault = true ∧ (after (commanded 0x7F State.reset)).faultCode = 2) ∧
    ((after (commanded 0x11 State.reset)).fault = true ∧ (after (commanded 0x11 State.reset)).faultCode = 1) ∧
    ((after (commanded 0x20 (withArgs 65536 0 0 0 0 State.reset))).fault = true ∧
      (after (commanded 0x20 (withArgs 65536 0 0 0 0 State.reset))).faultCode = 3) := by decide +kernel

theorem witness_FaultIgnoresCommands :
    faulted.fault = true ∧ encode .scan = .command 0x01 ∧ (0x01 : Byte) ≠ 0x00 := by decide

/-- Both exits. -/
theorem witness_OnlyResetLeavesFault :
    faulted.fault = true ∧
    ((after (commanded 0x00 faulted)).fault = false ∧ (after (commanded 0x00 faulted)).faultCode = 0) ∧
    ((after { faulted with host := [.hardReset] }).fault = false ∧
      (after { faulted with host := [.hardReset] }).faultCode = 0) := by decide +kernel

theorem witness_ClrdiagEffect : State.reset.fault = false := by decide

/-- Steps of each kind that answer a next state: a token, a command, a load, a reset. -/
theorem witness_whole_machine_steps :
    step atSref = .next (after atSref) ∧
    step (commanded 0x30 State.reset) = .next (after (commanded 0x30 State.reset)) ∧
    step { State.reset with host := [.load 5 1] } = .next (after { State.reset with host := [.load 5 1] }) ∧
    step { State.reset with host := [.hardReset] } = .next (after { State.reset with host := [.hardReset] }) := by
  refine ⟨rfl, rfl, rfl, rfl⟩

/-- A load and an argument write at the host port, and a reset. -/
theorem witness_ArchiveAndArgumentsBelongToHost :
    let l := { scannedState with host := [.load 5 1] }
    let w := { scannedState with host := [.write 0x05 7] }
    (l.fetchFrom = .hostPort ∧ 5 < 2 ^ l.cfg.aw ∧
      step l = .next { l with host := [], amem := l.amem.set 5 1 }) ∧
    step w = .next { w with host := [], arg4 := 7 } ∧
    (after (commanded 0x00 (withArgs 1 2 3 4 5 scannedState))).arg4 = 0 := by
  refine ⟨⟨rfl, by decide, rfl⟩, rfl, rfl⟩

theorem witness_InvariantKept : Inv scannedState = true ∧ Inv atSref = true ∧
    step (commanded 0x03 scannedState) = .next (after (commanded 0x03 scannedState)) := by
  refine ⟨by decide +kernel, by decide +kernel, rfl⟩

end Sys2Proof.Tests
end

/-! PROOFS. The statements of 10_state.md: the invariant and its parts, the descriptor table, the host's actions and the
register file. First what the two units and DIAG keep, operation by operation in the order of the model. -/

namespace Sys2Proof.Machine

/-! ## The diagnostics register

Every flag lies in the nine bits that DIAG has, so raising one keeps the reserved bits 0 (R39). -/

theorem DiagFlag.mask_reserved (f : DiagFlag) : f.mask &&& diagFlagBits = f.mask := by
  cases f <;> rfl

theorem reserved_or_mask {d : BitVec 16} (h : d &&& diagFlagBits = d) (f : DiagFlag) :
    (d ||| f.mask) &&& diagFlagBits = d ||| f.mask := by
  rw [BitVec.and_or_distrib_right, h, f.mask_reserved]

/-! ## The bit cursor's registers (R27) -/

theorem Bcu.ok_iff {cfg : Config} {b : Bcu} :
    b.ok cfg = true ↔
      b.rem ≤ 8 ∧ -1 ≤ b.pos ∧ b.pos + 1 ≤ (b.len : Int) ∧ (b.pos = -1 → b.rem = 0 ∧ b.buf = 0) ∧
        b.base < 2 ^ (cfg.aw + 1) ∧ b.len < max (2 ^ cfg.aw) 65526 := by
  have himp : (b.pos = -1 → b.rem = 0 ∧ b.buf = 0) ↔ (¬ b.pos = -1 ∨ b.rem = 0 ∧ b.buf = 0) := imp_iff_not_or
  rw [himp]
  simp only [Bcu.ok, Bool.and_eq_true, Bool.or_eq_true, decide_eq_true_eq, bne_iff_ne, beq_iff_eq, ne_eq, and_assoc]

/-- The cursor over an empty range (R130, corner case a). -/
theorem Bcu.ok_empty {cfg : Config} {base : Nat} (hbase : base < 2 ^ (cfg.aw + 1)) :
    Bcu.ok cfg { base := base, len := 0, pos := -1, buf := 0, rem := 0, sum := 0 } = true := by
  rw [Bcu.ok_iff]
  exact ⟨by simp, by simp, by simp, by simp, hbase, by simp⟩

/-- The cursor primed with the last byte of its range (R130). -/
theorem Bcu.ok_primed {cfg : Config} {base len : Nat} (hbase : base < 2 ^ (cfg.aw + 1)) (hlen : len ≠ 0)
    (hmax : len < max (2 ^ cfg.aw) 65526) (count : Nat) (buf sum : Byte) :
    Bcu.ok cfg { base := base, len := len, pos := (len : Int) - 1, buf := buf, rem := min count 8, sum := sum }
      = true := by
  rw [Bcu.ok_iff]
  refine ⟨?_, ?_, ?_, ?_, hbase, hmax⟩ <;> dsimp only <;> omega

/-- The exhausted cursor of an underrun (R133). -/
theorem Bcu.ok_exhausted {cfg : Config} {b : Bcu} (h : b.ok cfg = true) (hrem : b.rem = 0) :
    Bcu.ok cfg { b with pos := -1, buf := 0 } = true := by
  rw [Bcu.ok_iff] at h ⊢
  obtain ⟨h8, -, -, -, hbase, hmax⟩ := h
  exact ⟨h8, by simp, by simp, by simp [hrem], hbase, hmax⟩

/-- The cursor after one bit of its buffer (R132). -/
theorem Bcu.ok_taken {cfg : Config} {b : Bcu} (h : b.ok cfg = true) (hrem : b.rem ≠ 0) :
    Bcu.ok cfg { b with buf := b.buf >>> 1, rem := b.rem - 1 } = true := by
  rw [Bcu.ok_iff] at h ⊢
  obtain ⟨h8, hlow, hlen, hend, hbase, hmax⟩ := h
  exact ⟨by dsimp only; omega, hlow, hlen, fun hp => absurd (hend hp).1 hrem, hbase, hmax⟩

/-- The cursor after a pull (R131). -/
theorem Bcu.ok_pulled {cfg : Config} {b : Bcu} (h : b.ok cfg = true) (hpos : 0 < b.pos) (buf sum : Byte) :
    Bcu.ok cfg { b with pos := b.pos - 1, buf := buf, sum := sum, rem := 8 } = true := by
  rw [Bcu.ok_iff] at h ⊢
  obtain ⟨-, -, hlen, -, hbase, hmax⟩ := h
  refine ⟨by simp, ?_, ?_, ?_, hbase, hmax⟩ <;> dsimp only <;> omega

/-! ## The output assembler's registers (R31) -/

/-- A narrower interval of addresses lies in a wider one. -/
theorem Memory.within_mono {lo lo' hi : Nat} {m : Memory} (hlo : lo' ≤ lo) (h : m.within lo hi = true) :
    m.within lo' hi = true := by
  simp only [Memory.within, List.all_eq_true, Bool.and_eq_true, decide_eq_true_eq] at h ⊢
  exact fun c hc => ⟨hlo.trans (h c hc).1, (h c hc).2⟩

/-- A write lists no address but its own. -/
theorem Memory.mem_set {a : Nat} {v : Byte} {c : Host.Cell} : ∀ {m : Memory}, c ∈ m.set a v → c.1 = a ∨ c ∈ m
  | [], h => by
    simp only [Memory.set] at h
    split_ifs at h
    · exact absurd h List.not_mem_nil
    · exact .inl (congrArg Prod.fst (List.mem_singleton.mp h))
  | (b, u) :: m, h => by
    simp only [Memory.set] at h
    split_ifs at h
    · exact .inr h
    · exact (List.mem_cons.mp h).imp_left (congrArg Prod.fst)
    · exact .inr (List.mem_cons_of_mem _ h)
    · exact (List.mem_cons.mp h).imp (congrArg Prod.fst) (List.mem_cons_of_mem _)
    · rcases List.mem_cons.mp h with h | h
      · exact .inr (h ▸ List.mem_cons_self)
      · exact (Memory.mem_set h).imp_right (List.mem_cons_of_mem _)

/-- A write inside an interval keeps the listed addresses inside it. -/
theorem Memory.within_set {lo hi a : Nat} {m : Memory} (hlo : lo ≤ a) (hhi : a < hi) (h : m.within lo hi = true)
    (v : Byte) : (m.set a v).within lo hi = true := by
  simp only [Memory.within, List.all_eq_true, Bool.and_eq_true, decide_eq_true_eq] at h ⊢
  intro c hc
  rcases Memory.mem_set hc with hca | hcm
  · rw [hca]; exact ⟨hlo, hhi⟩
  · exact h c hcm

theorem Oau.ok_iff {cfg : Config} {o : Oau} :
    o.ok cfg = true ↔
      o.wpos ≤ o.len ∧ o.len ≤ cfg.omax ∧ Memory.wf o.omem = true ∧ Memory.within o.wpos o.len o.omem = true := by
  simp only [Oau.ok, Bool.and_eq_true, decide_eq_true_eq, and_assoc]

/-- The assembler as OA.INIT leaves it (R150). -/
theorem Oau.ok_constructed {cfg : Config} {n : Nat} (h : n ≤ cfg.omax) :
    Oau.ok cfg { len := n, wpos := n, omem := [] } = true :=
  Oau.ok_iff.mpr ⟨Nat.le_refl n, h, rfl, rfl⟩

theorem Oau.ok_retreated {cfg : Config} {o : Oau} (h : o.ok cfg = true) :
    Oau.ok cfg { o with wpos := o.wpos - 1 } = true := by
  rw [Oau.ok_iff] at h ⊢
  obtain ⟨hw, hlen, hwf, hin⟩ := h
  exact ⟨(Nat.sub_le _ _).trans hw, hlen, hwf, Memory.within_mono (Nat.sub_le _ _) hin⟩

/-- A byte stored at the write position, which must be an index of the buffer. -/
theorem Oau.ok_written {cfg : Config} {o : Oau} (h : o.ok cfg = true) (hw : o.wpos < o.len) (v : Byte) :
    Oau.ok cfg { o with omem := o.omem.set o.wpos v } = true := by
  rw [Oau.ok_iff] at h ⊢
  obtain ⟨hle, hlen, hwf, hin⟩ := h
  exact ⟨hle, hlen, Memory.wf_set hwf _ v, Memory.within_set (Nat.le_refl _) hw hin v⟩

/-! ## The two units and DIAG together: what a bit read, a copy, a token and a decode keep -/

/-- The part of the invariant that a token can touch: both units in their ranges, the reserved bits of DIAG 0. -/
structure UnitsOk (s : State) : Prop where
  bcu : s.bcu.ok s.cfg = true
  oau : s.oau.ok s.cfg = true
  diag : s.diag &&& diagFlagBits = s.diag

theorem UnitsOk.raise {s : State} (h : UnitsOk s) (f : DiagFlag) : UnitsOk (Machine.diag f s) :=
  ⟨h.bcu, h.oau, reserved_or_mask h.diag f⟩

theorem UnitsOk.setBcu {s : State} (h : UnitsOk s) {b : Bcu} (hb : b.ok s.cfg = true) :
    UnitsOk { s with bcu := b } :=
  ⟨hb, h.oau, h.diag⟩

theorem UnitsOk.setOau {s : State} (h : UnitsOk s) {o : Oau} (ho : o.ok s.cfg = true) :
    UnitsOk { s with oau := o } :=
  ⟨h.bcu, ho, h.diag⟩

/-- An archive read leaves the state as it is, or raises OOR_READ (R61). -/
theorem readArchive_state (a : Int) (s : State) :
    (readArchive a s).2 = s ∨ (readArchive a s).2 = diag .oorRead s := by
  by_cases h : 0 ≤ a ∧ a < (s.archLen : Int)
  · exact .inl (by rw [readArchive_inside h.1 h.2])
  · exact .inr (by rw [readArchive_outside (by omega)])

theorem UnitsOk.readArchive {s : State} (h : UnitsOk s) (a : Int) : UnitsOk (readArchive a s).2 := by
  rcases readArchive_state a s with he | he <;> rw [he]
  · exact h
  · exact h.raise _

/-- BC.INIT with arguments in range (R130, R236). -/
theorem UnitsOk.bcConstruct {s : State} (h : UnitsOk s) {start len : Nat} (hs : start < 2 ^ (s.cfg.aw + 1))
    (hl : len < max (2 ^ s.cfg.aw) 65526) (count : Nat) : UnitsOk (bcConstruct start len count s) := by
  have hflag : UnitsOk (if count < 1 ∨ 8 < count then Machine.diag .initlenRange s else s) := by
    split
    · exact h.raise _
    · exact h
  by_cases hz : len = 0
  · subst hz
    rw [bcConstruct_empty]
    refine ⟨Bcu.ok_empty hs, h.oau, reserved_or_mask ?_ _⟩
    split
    · exact reserved_or_mask h.diag _
    · exact h.diag
  · rw [bcConstruct_prime hz]
    exact ⟨Bcu.ok_primed hs hz hl count _ _, h.oau, (hflag.readArchive _).diag⟩

theorem UnitsOk.bcPull {s t : State} (h : UnitsOk s) (hp : 0 < s.bcu.pos) (ht : bcPull s = some t) : UnitsOk t := by
  rw [bcPull_some hp] at ht
  cases ht
  have hcfg := (readArchive_cursorOnly ((s.bcu.base : Int) + (s.bcu.pos - 1)) s).datapath.cfg
  exact (h.readArchive _).setBcu (by rw [hcfg]; exact Bcu.ok_pulled h.bcu hp _ _)

theorem UnitsOk.bcTakeBit {s : State} (h : UnitsOk s) (hr : s.bcu.rem ≠ 0) : UnitsOk (bcTakeBit s).2 :=
  h.setBcu (Bcu.ok_taken h.bcu hr)

/-- After a pull the buffer is full. -/
theorem bcPull_rem {s t : State} (hp : 0 < s.bcu.pos) (ht : bcPull s = some t) : t.bcu.rem = 8 := by
  rw [bcPull_some hp] at ht
  cases ht
  rfl

theorem UnitsOk.bcReadBit {s : State} (h : UnitsOk s) : UnitsOk (bcReadBit s).2 := by
  rcases bcReadBit_cases s with ⟨hr, he⟩ | ⟨-, hp, t, ht, he⟩ | ⟨hr, -, he⟩ <;> rw [he]
  · exact h.bcTakeBit hr
  · exact (h.bcPull hp ht).bcTakeBit (by rw [bcPull_rem hp ht]; decide)
  · exact (h.setBcu (Bcu.ok_exhausted h.bcu hr)).raise _

theorem UnitsOk.bcReadFrom : ∀ (n acc : Nat) {s : State}, UnitsOk s → UnitsOk (bcReadFrom n acc s).2
  | 0, _, _, h => h
  | n + 1, _, _, h => by
    rw [bcReadFrom_succ]
    exact UnitsOk.bcReadFrom n _ h.bcReadBit

theorem UnitsOk.bcRead {s : State} (h : UnitsOk s) (n : Nat) : UnitsOk (bcRead n s).2 := h.bcReadFrom n 0

theorem UnitsOk.fetchToken {s : State} (h : UnitsOk s) : UnitsOk (fetchToken s).2 :=
  decodeTokenWith_induct (R := fun s t => UnitsOk s → UnitsOk t) (fun hab hbc ha => hbc (hab ha))
    (fun n _ hs => hs.bcRead n) s h

/-- A store at the write position, when that is an index of the buffer. -/
theorem UnitsOk.writeOutput {s : State} (h : UnitsOk s) (hw : s.oau.wpos < s.oau.len) (v : Byte) :
    UnitsOk (writeOutput s.oau.wpos v s) :=
  h.setOau (Oau.ok_written h.oau hw v)

theorem UnitsOk.oaRetreat {s : State} (h : UnitsOk s) : UnitsOk (oaRetreat s) :=
  h.setOau (Oau.ok_retreated h.oau)

/-- While the buffer is not full the position below the cursor is one of its indices. -/
theorem UnitsOk.retreat_lt {s : State} (h : UnitsOk s) (hw : 0 < s.oau.wpos) : s.oau.wpos - 1 < s.oau.len := by
  obtain ⟨hle, -⟩ := Oau.ok_iff.mp h.oau
  omega

theorem UnitsOk.rawByte {s : State} (h : UnitsOk s) (hw : 0 < s.oau.wpos) : UnitsOk (rawByte s) := by
  have hoau := (bcRead_cursorOnly 8 (Machine.oaRetreat s)).oau
  rw [rawByte_eq]
  exact (h.oaRetreat.bcRead 8).writeOutput (by rw [hoau]; exact h.retreat_lt hw) _

theorem UnitsOk.refByte {s : State} (h : UnitsOk s) (hw : 0 < s.oau.wpos) (offset : Nat) :
    UnitsOk (refByte offset s) := by
  rw [refByte_eq]
  split
  · exact h.oaRetreat.writeOutput (h.retreat_lt hw) _
  · exact (h.oaRetreat.raise _).writeOutput (h.retreat_lt hw) _

theorem UnitsOk.rawBytes : ∀ (n : Nat) {s : State}, UnitsOk s → n ≤ s.oau.wpos → UnitsOk (rawBytes n s)
  | 0, _, h, _ => h
  | n + 1, s, h, hn => by
    have hw := (rawByte_wpos s).1
    exact UnitsOk.rawBytes n (h.rawByte (by omega)) (by omega)

theorem UnitsOk.refBytes (offset : Nat) :
    ∀ (n : Nat) {s : State}, UnitsOk s → n ≤ s.oau.wpos → UnitsOk (refBytes offset n s)
  | 0, _, h, _ => h
  | n + 1, s, h, hn => by
    have hw := (refByte_wpos offset s).1
    exact UnitsOk.refBytes offset n (h.refByte (by omega) offset) (by omega)

/-- The clamp keeps a raw copy inside the buffer (R151). -/
theorem UnitsOk.copyRaw {s : State} (h : UnitsOk s) (n : Nat) : UnitsOk (copyRaw n s) := by
  unfold Machine.copyRaw
  split
  · exact UnitsOk.rawBytes _ (h.raise _) (Nat.le_refl _)
  · exact UnitsOk.rawBytes n h (by omega)

/-- The clamp keeps a back-reference copy inside the buffer (R152). -/
theorem UnitsOk.copyRef {s : State} (h : UnitsOk s) (n offset : Nat) : UnitsOk (copyRef n offset s) := by
  unfold Machine.copyRef
  split
  · exact UnitsOk.refBytes offset _ (h.raise _) (Nat.le_refl _)
  · exact UnitsOk.refBytes offset n h (by omega)

theorem UnitsOk.copyBackReference {s : State} (h : UnitsOk s) (n w : Nat) : UnitsOk (copyBackReference n w s) := by
  rw [copyBackReference_eq]
  exact (h.bcRead w).copyRef _ _

theorem UnitsOk.runToken {s : State} (h : UnitsOk s) (t : Token) : UnitsOk (runToken t s) := by
  cases t with
  | sraw l => exact h.copyRaw _
  | sref o => exact h.copyRef _ _
  | refa o => exact h.copyRef _ _
  | refb o => exact h.copyRef _ _
  | refc l o => exact h.copyRef _ _
  | lraw l => exact h.copyRaw _

theorem UnitsOk.decodeOneToken {s : State} (h : UnitsOk s) : UnitsOk (decodeOneToken s) := by
  rw [decodeOneToken_eq]
  exact h.fetchToken.runToken _

/-- Whatever one token keeps, the decode loop keeps. -/
theorem tduLoop_induct {P : State → Prop} (htoken : ∀ s, P s → P (decodeOneToken s)) :
    ∀ (n : Nat) {s : State}, P s → P (tduLoop n s)
  | 0, _, h => h
  | n + 1, s, h => by
    cases hd : decodeDone s with
    | true => rwa [tduLoop_done hd]
    | false =>
      rw [tduLoop_succ hd]
      exact tduLoop_induct htoken n (htoken s h)

theorem UnitsOk.verifyChecksum {s : State} (h : UnitsOk s) (x : Byte) : UnitsOk (verifyChecksum x s) := by
  unfold Machine.verifyChecksum
  split
  · exact ⟨h.bcu, h.oau, h.diag⟩
  · exact ⟨h.bcu, h.oau, reserved_or_mask h.diag _⟩

/-- A whole decode with arguments in range (R170, R235). -/
theorem UnitsOk.segDecode {s : State} (h : UnitsOk s) {o c d : Nat} (ho : o < 2 ^ (s.cfg.aw + 1))
    (hc : c < max (2 ^ s.cfg.aw) 65526) (hd : d ≤ s.cfg.omax) (x : Byte) (b : Nat) :
    UnitsOk (segDecode o c d x b s) := by
  have hcfg := (bcConstruct_cursorOnly o c b s).datapath.cfg
  have hunits : UnitsOk (oaConstruct d (Machine.bcConstruct o c b s)) :=
    (h.bcConstruct ho hc b).setOau (Oau.ok_constructed (by rw [hcfg]; exact hd))
  rw [segDecode_eq]
  exact (tduLoop_induct (fun _ hs => hs.decodeOneToken) d hunits).verifyChecksum x

/-! ## A decode keeps the length of the output buffer it constructs -/

theorem rawBytes_len : ∀ (n : Nat) (s : State), (rawBytes n s).oau.len = s.oau.len
  | 0, _ => rfl
  | n + 1, s => (rawBytes_len n _).trans (rawByte_wpos s).2

theorem refBytes_len (offset : Nat) : ∀ (n : Nat) (s : State), (refBytes offset n s).oau.len = s.oau.len
  | 0, _ => rfl
  | n + 1, s => (refBytes_len offset n _).trans (refByte_wpos offset s).2

theorem copyRaw_len (n : Nat) (s : State) : (copyRaw n s).oau.len = s.oau.len := by
  unfold copyRaw
  split <;> exact rawBytes_len _ _

theorem copyRef_len (n offset : Nat) (s : State) : (copyRef n offset s).oau.len = s.oau.len := by
  unfold copyRef
  split <;> exact refBytes_len _ _ _

theorem runToken_len (t : Token) (s : State) : (runToken t s).oau.len = s.oau.len := by
  cases t with
  | sraw l => exact copyRaw_len _ _
  | sref o => exact copyRef_len _ _ _
  | refa o => exact copyRef_len _ _ _
  | refb o => exact copyRef_len _ _ _
  | refc l o => exact copyRef_len _ _ _
  | lraw l => exact copyRaw_len _ _

theorem decodeOneToken_len (s : State) : (decodeOneToken s).oau.len = s.oau.len := by
  rw [decodeOneToken_eq, runToken_len, (fetchToken_cursorOnly s).oau]

theorem verifyChecksum_oau (x : Byte) (s : State) : (verifyChecksum x s).oau = s.oau := by
  rw [verifyChecksum_frame]

theorem segDecode_len (o c d : Nat) (x : Byte) (b : Nat) (s : State) : (segDecode o c d x b s).oau.len = d := by
  rw [segDecode_eq, verifyChecksum_oau]
  exact tduLoop_induct (P := fun t => t.oau.len = d) (fun t ht => (decodeOneToken_len t).trans ht) d rfl

@[simp] theorem outputBytes_length (s : State) : (outputBytes s).length = s.oau.len :=
  Memory.bytes_length _ _ _

end Sys2Proof.Machine

namespace Sys2Proof.Machine

/-! ## The descriptor table (R35 to R38) -/

theorem tableOk_cons {a p i h : Nat} {d : Descriptor} {ds : List Descriptor} :
    tableOk a p i h (d :: ds) = true ↔
      (d.index = i ∧ d.offset = h + 10 ∧ h + 10 ≤ a ∧ d.compressedSize.toNat ≤ 65525 ∧ d.cacheOk = true) ∧
        tableOk a p (i + 1) (h + 10 + d.compressedSize.toNat) ds = true := by
  simp only [tableOk, Bool.and_eq_true, beq_iff_eq, decide_eq_true_eq, and_assoc]

/-- Every descriptor of the table starts inside the archive, and its cache has the declared length. -/
theorem tableOk_getElem? {a p : Nat} {d : Descriptor} : ∀ {ds : List Descriptor} {i h k : Nat},
    tableOk a p i h ds = true → ds[k]? = some d →
      d.offset ≤ a ∧ d.compressedSize.toNat ≤ 65525 ∧ d.cacheOk = true
  | [], _, _, _, _, hk => by simp at hk
  | e :: ds, i, h, k, ht, hk => by
    obtain ⟨⟨-, hoff, hin, hsize, hcache⟩, hrest⟩ := tableOk_cons.mp ht
    cases k with
    | zero =>
      obtain rfl : e = d := by simpa using hk
      exact ⟨by omega, hsize, hcache⟩
    | succ k => exact tableOk_getElem? hrest (by simpa using hk)

/-- A descriptor with a payload in its cache. -/
def Descriptor.withCache (data : List Byte) (d : Descriptor) : Descriptor := { d with cache := some data }

theorem cacheResult_dtab_withCache (i : Nat) (data : List Byte) (s : State) :
    (cacheResult i data s).dtab = s.dtab.modify i (Descriptor.withCache data) := rfl

/-- A payload of the declared length put into a cache keeps the table (R208). -/
theorem tableOk_modify_cache {a p : Nat} {d : Descriptor} {data : List Byte}
    (hlen : data.length = d.decompressedSize.toNat) : ∀ {ds : List Descriptor} {i h k : Nat},
    tableOk a p i h ds = true → ds[k]? = some d →
      tableOk a p i h (ds.modify k (Descriptor.withCache data)) = true
  | [], _, _, _, _, hk => by simp at hk
  | e :: ds, i, h, k, ht, hk => by
    obtain ⟨⟨hidx, hoff, hin, hsize, hcache⟩, hrest⟩ := tableOk_cons.mp ht
    cases k with
    | zero =>
      obtain rfl : e = d := by simpa using hk
      exact tableOk_cons.mpr
        ⟨⟨hidx, hoff, hin, hsize, by simp [Descriptor.withCache, Descriptor.cacheOk, hlen]⟩, hrest⟩
    | succ k =>
      exact tableOk_cons.mpr
        ⟨⟨hidx, hoff, hin, hsize, hcache⟩, tableOk_modify_cache hlen hrest (by simpa using hk)⟩

/-- The descriptor of a valid header at `SCANPOS` continues the table (R204, R205). -/
theorem tableOk_append {a p : Nat} {hdr : Header} (hin : p + 10 ≤ a) (hmin : 10 ≤ hdr.totalSegmentSize.toNat) :
    ∀ {ds : List Descriptor} {i h : Nat}, tableOk a p i h ds = true →
      tableOk a (p + hdr.totalSegmentSize.toNat) i h (ds ++ [descriptorOf (i + ds.length) p hdr]) = true
  | [], i, h, ht => by
    have hp : h = p := by simpa [tableOk] using ht
    have hmax := hdr.totalSegmentSize.isLt
    have hsize : (descriptorOf i p hdr).compressedSize.toNat = hdr.totalSegmentSize.toNat - 10 := by
      simp only [descriptorOf, Config.hdrLen, BitVec.toNat_ofNat]
      omega
    subst hp
    refine tableOk_cons.mpr ⟨⟨rfl, rfl, hin, by rw [List.length_nil, Nat.add_zero, hsize]; omega, rfl⟩, ?_⟩
    simp only [tableOk, beq_iff_eq, List.length_nil, Nat.add_zero, hsize]
    omega
  | d :: ds, i, h, ht => by
    obtain ⟨hd, hrest⟩ := tableOk_cons.mp ht
    have hlen : i + (d :: ds).length = i + 1 + ds.length := by simp only [List.length_cons]; omega
    rw [hlen]
    exact tableOk_cons.mpr ⟨hd, tableOk_append hin hmin hrest⟩

/-- A valid header declares at least ten bytes (R203). -/
theorem headerValid_min {h : Nat} {hdr : Header} (hv : headerValid h hdr = true) :
    10 ≤ hdr.totalSegmentSize.toNat := by
  simp only [headerValid, Config.minTotal, Bool.and_eq_true, decide_eq_true_eq] at hv
  obtain ⟨⟨-, hmin⟩, -⟩ := hv
  exact of_decide_eq_true hmin

/-- Whatever an accepted header and a rejected one keep, the scan keeps (R201 to R205). -/
theorem scanLoop_induct {P : State → Prop}
    (haccept : ∀ s, P s → s.scanPos + 10 ≤ s.archLen → 10 ≤ (headerAt s s.scanPos).totalSegmentSize.toNat →
      P (acceptHeader (headerAt s s.scanPos) s))
    (hreject : ∀ s, P s → P (diag .badHeader s)) : ∀ (n : Nat) {s : State}, P s → P (scanLoop n s)
  | 0, _, h => h
  | n + 1, s, h => by
    by_cases hshort : s.archLen < s.scanPos + 10
    · rwa [scanLoop_short hshort]
    · have hin : s.scanPos + 10 ≤ s.archLen := Nat.le_of_not_lt hshort
      have hread := readHeader_inside hin
      cases hv : headerValid s.scanPos (readHeader s.scanPos s).1 with
      | true =>
        rw [scanLoop_accept hin hv, hread]
        rw [hread] at hv
        exact scanLoop_induct haccept hreject n (haccept s h hin (headerValid_min hv))
      | false =>
        rw [scanLoop_reject hin hv, hread]
        exact hreject s h

/-! ## The whole invariant, part by part -/

/-- The conjuncts of `Inv`, named. -/
structure InvParts (s : State) : Prop where
  cfg : s.cfg.ok = true
  amemWf : Memory.wf s.amem = true
  amemWithin : Memory.within 0 (2 ^ s.cfg.aw) s.amem = true
  archLen : s.archLen < 2 ^ s.cfg.aw
  table : tableOk s.archLen s.scanPos 0 0 s.dtab = true
  memo : memoOk s = true
  bcu : s.bcu.ok s.cfg = true
  oau : s.oau.ok s.cfg = true
  rbuf : s.rbuf.length ≤ s.cfg.omax
  latch : s.latch.ok = true
  diag : s.diag &&& diagFlagBits = s.diag
  fault : faultOk s = true

theorem inv_iff {s : State} : Inv s = true ↔ InvParts s := by
  simp only [Inv, Bool.and_eq_true, decide_eq_true_eq, beq_iff_eq]
  constructor
  · rintro ⟨⟨⟨⟨⟨⟨⟨⟨⟨⟨⟨hcfg, hwf⟩, hin⟩, harch⟩, htable⟩, hmemo⟩, hbcu⟩, hoau⟩, hrbuf⟩, hlatch⟩, hdiag⟩, hfault⟩
    exact ⟨hcfg, hwf, hin, harch, htable, hmemo, hbcu, hoau, hrbuf, hlatch, hdiag, hfault⟩
  · rintro ⟨hcfg, hwf, hin, harch, htable, hmemo, hbcu, hoau, hrbuf, hlatch, hdiag, hfault⟩
    exact ⟨⟨⟨⟨⟨⟨⟨⟨⟨⟨⟨hcfg, hwf⟩, hin⟩, harch⟩, htable⟩, hmemo⟩, hbcu⟩, hoau⟩, hrbuf⟩, hlatch⟩, hdiag⟩, hfault⟩

theorem memoOk_iff {s : State} : memoOk s = true ↔ (s.cfg.memoize = false → ∀ d ∈ s.dtab, d.cache = none) := by
  cases hm : s.cfg.memoize <;> simp [memoOk, hm]

theorem InvParts.units {s : State} (h : InvParts s) : UnitsOk s := ⟨h.bcu, h.oau, h.diag⟩

/-- What touches only the two units and DIAG has to keep only their part of the invariant. -/
theorem InvParts.ofDatapath {s t : State} (h : InvParts s) (hframe : DatapathOnly s t) (ht : UnitsOk t) :
    InvParts t := by
  unfold DatapathOnly at hframe
  generalize t.bcu = b, t.oau = o, t.diag = d at hframe
  subst hframe
  exact { h with bcu := ht.bcu, oau := ht.oau, diag := ht.diag }

theorem InvParts.raise {s : State} (h : InvParts s) (f : DiagFlag) : InvParts (Machine.diag f s) :=
  h.ofDatapath (diag_cursorOnly f s).datapath (h.units.raise f)

theorem InvParts.setRes0 {s : State} (h : InvParts s) (v : Nat) : InvParts (setRes0 v s) := { h with }

theorem InvParts.deliver {s : State} (h : InvParts s) {data : List Byte} (hlen : data.length ≤ s.cfg.omax) :
    InvParts (deliver data s) :=
  { h with rbuf := hlen }

/-- The latch holds a descriptor or is all 0 (R233, R234). -/
theorem InvParts.loadLatch {s : State} (h : InvParts s) (i : Nat) : InvParts (loadLatch i s) := by
  unfold Machine.loadLatch
  split
  · exact { h with latch := rfl }
  · exact { h with latch := rfl }

/-- FAULTCODE takes one of the three codes as STATUS.FAULT is set (R41, R295). -/
theorem InvParts.raiseFault {s : State} (h : InvParts s) (k : FaultKind) : InvParts (raiseFault k s) :=
  { h with fault := by cases k <;> rfl }

/-- Every register at its reset value (R46), over any parameters, archive and host that are themselves in order. -/
theorem InvParts.atReset {cfg : Config} {amem : Memory} (hcfg : cfg.ok = true) (hwf : amem.wf = true)
    (hin : amem.within 0 (2 ^ cfg.aw) = true) (host : List HostAction) :
    InvParts { State.reset with cfg := cfg, amem := amem, host := host } where
  cfg := hcfg
  amemWf := hwf
  amemWithin := hin
  archLen := Nat.two_pow_pos _
  table := rfl
  memo := memoOk_iff.mpr fun _ _ hd => absurd hd List.not_mem_nil
  bcu := Bcu.ok_empty (Nat.two_pow_pos _)
  oau := Oau.ok_constructed (Nat.zero_le _)
  rbuf := Nat.zero_le _
  latch := rfl
  diag := BitVec.zero_and
  fault := rfl

theorem InvParts.resetMachine {s : State} (h : InvParts s) : InvParts (resetMachine s) :=
  InvParts.atReset h.cfg h.amemWf h.amemWithin s.host

/-- `OMAX` holds whatever a 16-bit field declares (R6). -/
theorem InvParts.half_le_omax {s : State} (h : InvParts s) (v : Half) : v.toNat ≤ s.cfg.omax := by
  have hok : 65535 ≤ s.cfg.omax := by simpa [Config.ok] using h.cfg
  have hv := v.isLt
  omega

/-! ## The container's operations keep the invariant -/

theorem InvParts.acceptHeader {s : State} {hdr : Header} (h : InvParts s) (hin : s.scanPos + 10 ≤ s.archLen)
    (hmin : 10 ≤ hdr.totalSegmentSize.toNat) : InvParts (acceptHeader hdr s) :=
  { h with
    table := by simpa [State.segCount] using tableOk_append hin hmin h.table
    memo := by
      refine memoOk_iff.mpr fun hm d hd => ?_
      rw [acceptHeader_dtab, List.mem_append, List.mem_singleton] at hd
      rcases hd with hd | rfl
      · exact memoOk_iff.mp h.memo hm d hd
      · rfl }

/-- A scan of an archive whose length the address width holds (R200). -/
theorem InvParts.scanArchive {s : State} (h : InvParts s) {n : Nat} (hn : n < 2 ^ s.cfg.aw) :
    InvParts (scanArchive n s) := by
  have hstart : InvParts { s with archLen := n, scanPos := 0, dtab := [] } :=
    { h with
      archLen := hn
      table := rfl
      memo := memoOk_iff.mpr fun _ _ hd => absurd hd List.not_mem_nil }
  have hloop := scanLoop_induct (P := InvParts) (fun _ hs hin hmin => hs.acceptHeader hin hmin)
    (fun _ hs => hs.raise _) (n / Config.hdrLen) hstart
  exact { hloop with }

theorem InvParts.segDecode {s : State} (h : InvParts s) {o c d : Nat} (ho : o < 2 ^ (s.cfg.aw + 1))
    (hc : c < max (2 ^ s.cfg.aw) 65526) (hd : d ≤ s.cfg.omax) (x : Byte) (b : Nat) :
    InvParts (segDecode o c d x b s) := by
  have hunits := h.units.segDecode ho hc hd x b
  have hframe := segDecode_frame o c d x b s
  generalize Machine.segDecode o c d x b s = t at hunits hframe ⊢
  generalize t.bcu = bcu, t.oau = oau, t.diag = diag, t.csumOk = ok at hframe
  subst hframe
  exact { h with bcu := hunits.bcu, oau := hunits.oau, diag := hunits.diag }

/-- The decode of a descriptor of the table (R208): its offset and sizes are in range. -/
theorem InvParts.decodeDescriptor {s : State} (h : InvParts s) {i : Nat} {d : Descriptor}
    (hd : s.dtab[i]? = some d) : InvParts (decodeDescriptor d s) := by
  obtain ⟨hoff, hsize, -⟩ := tableOk_getElem? h.table hd
  have harch := h.archLen
  have hpow : 2 ^ (s.cfg.aw + 1) = 2 * 2 ^ s.cfg.aw := Nat.pow_succ'
  exact h.segDecode (by omega) (by omega) (h.half_le_omax _) _ _

theorem decodeDescriptor_dtab (d : Descriptor) (s : State) : (decodeDescriptor d s).dtab = s.dtab := by
  unfold decodeDescriptor; rw [segDecode_frame]

theorem decodeDescriptor_cfg (d : Descriptor) (s : State) : (decodeDescriptor d s).cfg = s.cfg := by
  unfold decodeDescriptor; rw [segDecode_frame]

/-- A decode gives as many bytes as its descriptor declares (R180). -/
theorem outputBytes_decodeDescriptor_length (d : Descriptor) (s : State) :
    (outputBytes (decodeDescriptor d s)).length = d.decompressedSize.toNat := by
  rw [outputBytes_length]
  exact segDecode_len _ _ _ _ _ _

theorem InvParts.cacheResult {s : State} (h : InvParts s) (hm : s.cfg.memoize = true) {i : Nat} {d : Descriptor}
    (hd : s.dtab[i]? = some d) {data : List Byte} (hlen : data.length = d.decompressedSize.toNat) :
    InvParts (cacheResult i data s) :=
  { h with
    table := tableOk_modify_cache hlen h.table hd
    memo := memoOk_iff.mpr fun hf => absurd (hm.symm.trans hf) (by decide) }

/-- A payload that answers a request from the cache is the descriptor's cache (R208, R209). -/
theorem memoHit_eq_some {s : State} {d : Descriptor} {data : List Byte} (h : memoHit s d = some data) :
    d.cache = some data := by
  unfold memoHit at h
  split at h
  · exact h
  · cases h

/-- GETSEG's request keeps the invariant, and its bytes fit the result buffer (R208 to R210). -/
theorem InvParts.getSegment {s : State} (h : InvParts s) (i : Nat) :
    InvParts (getSegment i s).2 ∧ (getSegment i s).1.length ≤ (getSegment i s).2.cfg.omax := by
  rcases getSegment_cases i s with ⟨-, he⟩ | ⟨d, data, hd, hhit, he⟩ | ⟨d, hd, -, he⟩ <;> rw [he]
  · exact ⟨h.raise _, Nat.zero_le _⟩
  · obtain ⟨-, -, hcache⟩ := tableOk_getElem? h.table hd
    have hlen : data.length = d.decompressedSize.toNat := by
      simpa [Descriptor.cacheOk, memoHit_eq_some hhit] using hcache
    exact ⟨h, hlen ▸ h.half_le_omax _⟩
  · have hdec := h.decodeDescriptor hd
    have hlen := outputBytes_decodeDescriptor_length d s
    have hfit : (outputBytes (Machine.decodeDescriptor d s)).length ≤ s.cfg.omax := hlen ▸ h.half_le_omax _
    have hcfg := decodeDescriptor_cfg d s
    dsimp only
    split
    · next hm =>
      exact ⟨hdec.cacheResult (by rw [hcfg]; exact hm) (by rw [decodeDescriptor_dtab]; exact hd) hlen,
        by rw [cacheResult_cfg, hcfg]; exact hfit⟩
    · exact ⟨hdec, by rw [hcfg]; exact hfit⟩

/-! ## What each command is

Its effect behind the FAULT gate (R246), with the argument check where it has one (R292, R293). -/

theorem exec_sreset (s : State) : exec .sreset s = .next (resetMachine s) := rfl

theorem exec_scan (s : State) : exec .scan s =
    unlessFault s fun s => unlessBadArg (badLength s s.arg0.toNat) .ctorArg s scanEffect := rfl

theorem exec_count (s : State) : exec .count s = unlessFault s fun s => setRes0 s.segCount s := rfl

theorem exec_getseg (s : State) : exec .getseg s =
    unlessFault s fun s =>
      loadLatch s.arg0.toNat (deliver (getSegment s.arg0.toNat s).1 (getSegment s.arg0.toNat s).2) := rfl

theorem exec_getdesc (s : State) : exec .getdesc s =
    unlessFault s fun s => loadLatch s.arg0.toNat (if s.arg0.toNat < s.segCount then s else diag .segIndex s) := rfl

theorem exec_segdec (s : State) : exec .segdec s =
    unlessFault s fun s => unlessBadArg (segdecBadArg s) .ctorArg s segdecEffect := rfl

theorem exec_bcInit (s : State) : exec .bcInit s =
    unlessFault s fun s =>
      unlessBadArg (bcInitBadArg s) .ctorArg s (bcConstruct s.arg0.toNat s.arg1.toNat s.arg2.toNat) := rfl

theorem exec_bcRead (s : State) : exec .bcRead s =
    unlessFault s fun s => unlessBadArg (badBitCount s.arg0.toNat) .bitcountRange s bcReadEffect := rfl

theorem exec_bcEof (s : State) : exec .bcEof s = unlessFault s fun s => setRes0 (bcEof s).toNat s := rfl

theorem exec_oaInit (s : State) : exec .oaInit s =
    unlessFault s fun s => unlessBadArg (badOutputLength s s.arg0.toNat) .ctorArg s (oaConstruct s.arg0.toNat) := rfl

theorem exec_oaRaw (s : State) : exec .oaRaw s = unlessFault s fun s => copyRaw s.arg0.toNat s := rfl

theorem exec_oaRef (s : State) : exec .oaRef s =
    unlessFault s fun s =>
      unlessBadArg (badBitCount s.arg1.toNat) .bitcountRange s (copyBackReference s.arg0.toNat s.arg1.toNat) := rfl

theorem exec_oaEof (s : State) : exec .oaEof s = unlessFault s fun s => setRes0 (oaEof s).toNat s := rfl

theorem exec_clrdiag (s : State) : exec .clrdiag s = unlessFault s fun s => { s with diag := 0 } := rfl

theorem exec_unassigned (code : Byte) (s : State) : exec (.unassigned code) s =
    unlessFault s (raiseFault .badCommand) := rfl

/-! ## Every instruction keeps it -/

/-- What holds before a command and after its effect holds after the gated command (R246). -/
theorem unlessFault_induct {P : State → Prop} {s t : State} {effect : State → State}
    (h : unlessFault s effect = .next t) (hs : P s) (he : P (effect s)) : P t := by
  obtain rfl := Host.Outcome.next.inj h
  split
  · exact hs
  · exact he

/-- What holds after the fault and after the effect of an accepted argument holds after the checked command (R297). -/
theorem unlessBadArg_induct {P : State → Prop} {bad : Bool} {k : FaultKind} {s : State} {effect : State → State}
    (hbad : P (raiseFault k s)) (hgood : bad = false → P (effect s)) : P (unlessBadArg bad k s effect) := by
  cases bad with
  | true => exact hbad
  | false => exact hgood rfl

theorem badLength_eq_false {s : State} {n : Nat} : badLength s n = false ↔ n < 2 ^ s.cfg.aw := by
  simp [badLength]

theorem badOffset_eq_false {s : State} {n : Nat} : badOffset s n = false ↔ n < 2 ^ (s.cfg.aw + 1) := by
  simp [badOffset]

theorem badOutputLength_eq_false {s : State} {n : Nat} : badOutputLength s n = false ↔ n ≤ s.cfg.omax := by
  simp [badOutputLength]

theorem InvParts.scanEffect {s : State} (h : InvParts s) (hn : s.arg0.toNat < 2 ^ s.cfg.aw) :
    InvParts (scanEffect s) := by
  have hscan := h.scanArchive hn
  exact { hscan with rbuf := Nat.zero_le _, latch := rfl }

theorem InvParts.segdecEffect {s : State} (h : InvParts s) (hbad : segdecBadArg s = false) :
    InvParts (segdecEffect s) := by
  simp only [segdecBadArg, Bool.or_eq_false_iff, badOffset_eq_false, badLength_eq_false,
    badOutputLength_eq_false] at hbad
  obtain ⟨⟨hoff, hlen⟩, hout⟩ := hbad
  have hdec := h.segDecode hoff (lt_max_of_lt_left hlen) hout (s.arg3.setWidth 8) s.arg4.toNat
  refine { hdec with rbuf := ?_ }
  have hcfg : (Machine.segDecode s.arg0.toNat s.arg1.toNat s.arg2.toNat (s.arg3.setWidth 8) s.arg4.toNat s).cfg
      = s.cfg := by rw [segDecode_frame]
  simpa only [Machine.segdecEffect, outputBytes_length, segDecode_len, hcfg] using hout

theorem InvParts.bcInitEffect {s : State} (h : InvParts s) (hbad : bcInitBadArg s = false) :
    InvParts (bcConstruct s.arg0.toNat s.arg1.toNat s.arg2.toNat s) := by
  simp only [bcInitBadArg, Bool.or_eq_false_iff, badOffset_eq_false, badLength_eq_false] at hbad
  obtain ⟨hoff, hlen⟩ := hbad
  exact h.ofDatapath (bcConstruct_cursorOnly _ _ _ s).datapath
    (h.units.bcConstruct hoff (lt_max_of_lt_left hlen) _)

theorem InvParts.bcReadEffect {s : State} (h : InvParts s) : InvParts (bcReadEffect s) :=
  (h.ofDatapath (bcRead_cursorOnly _ s).datapath (h.units.bcRead _)).setRes0 _

theorem InvParts.oaConstruct {s : State} (h : InvParts s) {n : Nat} (hn : n ≤ s.cfg.omax) :
    InvParts (oaConstruct n s) :=
  { h with oau := Oau.ok_constructed hn }

theorem InvParts.runToken {s : State} (h : InvParts s) (t : Token) : InvParts (runToken t s) :=
  h.ofDatapath (runToken_datapathOnly t s) (h.units.runToken t)

/-- The state a token instruction answers is the one the token leaves. -/
theorem exec_token_next {s t : State} {tok : Token} (ht : exec tok.toInstr s = .next t) : t = runToken tok s := by
  rw [exec_token] at ht
  exact (Host.Outcome.next.inj ht).symm

theorem InvParts.execToken {s t : State} (h : InvParts s) (tok : Token) (ht : exec tok.toInstr s = .next t) :
    InvParts t :=
  exec_token_next ht ▸ h.runToken tok

/-- Every instruction keeps the invariant. -/
theorem InvParts.exec {s t : State} {i : Instr} (h : InvParts s) (ht : exec i s = .next t) : InvParts t := by
  cases i with
  | sraw l => exact h.execToken (.sraw l) ht
  | sref o => exact h.execToken (.sref o) ht
  | refa o => exact h.execToken (.refa o) ht
  | refb o => exact h.execToken (.refb o) ht
  | refc l o => exact h.execToken (.refc l o) ht
  | lraw l => exact h.execToken (.lraw l) ht
  | sreset =>
    rw [exec_sreset] at ht
    exact Host.Outcome.next.inj ht ▸ h.resetMachine
  | scan =>
    rw [exec_scan] at ht
    exact unlessFault_induct ht h
      (unlessBadArg_induct (h.raiseFault _) fun hgood => h.scanEffect (badLength_eq_false.mp hgood))
  | count =>
    rw [exec_count] at ht
    exact unlessFault_induct ht h (h.setRes0 _)
  | getseg =>
    rw [exec_getseg] at ht
    obtain ⟨hseg, hfit⟩ := h.getSegment s.arg0.toNat
    exact unlessFault_induct ht h ((hseg.deliver hfit).loadLatch _)
  | getdesc =>
    rw [exec_getdesc] at ht
    refine unlessFault_induct ht h (InvParts.loadLatch ?_ _)
    split
    · exact h
    · exact h.raise _
  | segdec =>
    rw [exec_segdec] at ht
    exact unlessFault_induct ht h (unlessBadArg_induct (h.raiseFault _) h.segdecEffect)
  | bcInit =>
    rw [exec_bcInit] at ht
    exact unlessFault_induct ht h (unlessBadArg_induct (h.raiseFault _) h.bcInitEffect)
  | bcRead =>
    rw [exec_bcRead] at ht
    exact unlessFault_induct ht h (unlessBadArg_induct (h.raiseFault _) fun _ => h.bcReadEffect)
  | bcEof =>
    rw [exec_bcEof] at ht
    exact unlessFault_induct ht h (h.setRes0 _)
  | oaInit =>
    rw [exec_oaInit] at ht
    exact unlessFault_induct ht h
      (unlessBadArg_induct (h.raiseFault _) fun hgood => h.oaConstruct (badOutputLength_eq_false.mp hgood))
  | oaRaw =>
    rw [exec_oaRaw] at ht
    exact unlessFault_induct ht h (h.ofDatapath (copyRaw_datapathOnly _ s) (h.units.copyRaw _))
  | oaRef =>
    rw [exec_oaRef] at ht
    exact unlessFault_induct ht h
      (unlessBadArg_induct (h.raiseFault _) fun _ =>
        h.ofDatapath (copyBackReference_datapathOnly _ _ s) (h.units.copyBackReference _ _))
  | oaEof =>
    rw [exec_oaEof] at ht
    exact unlessFault_induct ht h (h.setRes0 _)
  | clrdiag =>
    rw [exec_clrdiag] at ht
    exact unlessFault_induct ht h { h with diag := BitVec.zero_and }
  | unassigned code =>
    rw [exec_unassigned] at ht
    exact unlessFault_induct ht h (h.raiseFault _)

/-! ## Every step keeps it -/

theorem portWrite_cases (reg : Nat) (v : Word) (s : State) :
    portWrite reg v s = { s with arg0 := v } ∨ portWrite reg v s = { s with arg1 := v } ∨
      portWrite reg v s = { s with arg2 := v } ∨ portWrite reg v s = { s with arg3 := v } ∨
      portWrite reg v s = { s with arg4 := v } ∨ portWrite reg v s = s := by
  unfold portWrite
  split <;> simp

theorem InvParts.portWrite {s : State} (h : InvParts s) (reg : Nat) (v : Word) : InvParts (portWrite reg v s) := by
  rcases portWrite_cases reg v s with he | he | he | he | he | he <;> rw [he]
  · exact { h with }
  · exact { h with }
  · exact { h with }
  · exact { h with }
  · exact { h with }
  · exact h

theorem hostLoad_inside {a : Nat} {s : State} (h : a < 2 ^ s.cfg.aw) (v : Byte) :
    hostLoad a v s = .next { s with amem := s.amem.set a v } := if_pos h

theorem hostLoad_outside {a : Nat} {s : State} (h : 2 ^ s.cfg.aw ≤ a) (v : Byte) :
    hostLoad a v s = .fault (.noSuchAddress a) := if_neg (Nat.not_lt.mpr h)

/-- A load that answers a next state wrote an address that exists. -/
theorem hostLoad_next {a : Nat} {v : Byte} {s t : State} (h : hostLoad a v s = .next t) :
    a < 2 ^ s.cfg.aw ∧ t = { s with amem := s.amem.set a v } := by
  by_cases ha : a < 2 ^ s.cfg.aw
  · rw [hostLoad_inside ha] at h
    exact ⟨ha, (Host.Outcome.next.inj h).symm⟩
  · rw [hostLoad_outside (Nat.le_of_not_lt ha)] at h
    cases h

/-- Every host action keeps the invariant. -/
theorem InvParts.hostStep {s t : State} {a : HostAction} (h : InvParts s) (ht : hostStep a s = .next t) :
    InvParts t := by
  cases a with
  | write reg v =>
    by_cases hreg : reg = 0
    · exact h.exec (i := fetchCommand v) (by simpa only [Machine.hostStep, hreg, if_true] using ht)
    · simp only [Machine.hostStep, hreg, if_false] at ht
      exact Host.Outcome.next.inj ht ▸ h.portWrite reg v
  | read reg => exact Host.Outcome.next.inj ht ▸ h
  | load addr v =>
    obtain ⟨haddr, rfl⟩ := hostLoad_next ht
    exact { h with
      amemWf := Memory.wf_set h.amemWf _ _
      amemWithin := Memory.within_set (Nat.zero_le _) haddr h.amemWithin _ }
  | hardReset => exact Host.Outcome.next.inj ht ▸ h.resetMachine

theorem InvParts.step {s t : State} (h : InvParts s) (ht : step s = .next t) : InvParts t := by
  rcases step_cases ht with ⟨-, -, rfl⟩ | ⟨a, rest, -, -, ha⟩ | ⟨-, -, rfl⟩ | ⟨-, -, rfl⟩
  · exact h
  · have hs : InvParts { s with host := rest } := { h with }
    exact hs.hostStep ha
  · exact { h with }
  · exact h.ofDatapath (decodeOneToken_datapathOnly s) h.units.decodeOneToken

/-- Settles O58: the invariant's parts are kept by the instructions, by the host's other actions and so by every step. -/
theorem invariantKept : Obligations.InvariantKept :=
  fun _ _ hs ht => inv_iff.mpr ((inv_iff.mp hs).step ht)

/-- Settles O59: the reset state is a reset with the default parameters and nothing loaded. -/
theorem invariantAtReset : Obligations.InvariantAtReset :=
  inv_iff.mpr (InvParts.atReset (cfg := Config.default) (by decide) rfl rfl [])

end Sys2Proof.Machine

namespace Sys2Proof.Machine

/-! ## The descriptor table between two SCANs (R36, R38) -/

/-- Which command a code stands for, and nothing else, is the code of that command (R117). -/
theorem encode_decodeCommand (code : Byte) : encode (decodeCommand code) = .command code := by
  unfold decodeCommand
  split
  case h_15 => rfl
  all_goals next hcode => exact congrArg Encoded.command (BitVec.eq_of_toNat_eq hcode.symm)

/-- `t`'s table is `s`'s but for caches that were absent; with MEMOIZE a present cache stays (R81, R204). -/
structure TableKept (s t : State) : Prop where
  fixed : t.dtab.map Descriptor.fixed = s.dtab.map Descriptor.fixed
  cached : s.cfg.memoize = true → ∀ (i : Nat) (d : Descriptor) (data : List Byte),
    s.dtab[i]? = some d → d.cache = some data → t.dtab[i]? = some d

theorem TableKept.of_eq {s t : State} (h : t.dtab = s.dtab) : TableKept s t :=
  ⟨by rw [h], fun _ _ _ _ hd _ => by rw [h]; exact hd⟩

theorem TableKept.refl (s : State) : TableKept s s := .of_eq rfl

/-- Putting a payload into a cache changes no fixed field. -/
theorem map_fixed_modify_withCache (data : List Byte) : ∀ (ds : List Descriptor) (i : Nat),
    (ds.modify i (Descriptor.withCache data)).map Descriptor.fixed = ds.map Descriptor.fixed
  | [], _ => by simp
  | _ :: _, 0 => rfl
  | d :: ds, i + 1 => by simp [map_fixed_modify_withCache data ds i]

/-- GETSEG fills a cache only where none is present (R208). -/
theorem getSegment_tableKept (i : Nat) (s : State) : TableKept s (getSegment i s).2 := by
  rcases getSegment_cases i s with ⟨-, he⟩ | ⟨_, _, -, -, he⟩ | ⟨d, hd, hmiss, he⟩ <;> rw [he]
  · exact .of_eq rfl
  · exact .refl s
  · have hdtab := decodeDescriptor_dtab d s
    dsimp only
    split
    · next hm =>
      have habsent : d.cache = none := by simpa [memoHit, hm] using hmiss
      refine ⟨?_, fun _ j e data hj he => ?_⟩
      · rw [cacheResult_dtab_withCache, map_fixed_modify_withCache, hdtab]
      · have hne : i ≠ j := by
          rintro rfl
          obtain rfl : d = e := Option.some.inj (hd.symm.trans hj)
          simp [habsent] at he
        rw [cacheResult_dtab_withCache, hdtab, List.getElem?_modify_ne _ _ hne, hj]
    · exact .of_eq hdtab

theorem loadLatch_dtab (i : Nat) (s : State) : (loadLatch i s).dtab = s.dtab := by
  unfold loadLatch; split <;> rfl

theorem segdecEffect_dtab (s : State) : (segdecEffect s).dtab = s.dtab := by
  unfold segdecEffect; dsimp only; rw [segDecode_frame]

theorem bcReadEffect_dtab (s : State) : (bcReadEffect s).dtab = s.dtab := by
  rw [bcReadEffect, setRes0_dtab, (bcRead_cursorOnly _ s).datapath.dtab]

/-- A checked command whose effect keeps the table keeps it. -/
theorem unlessBadArg_dtab {bad : Bool} {k : FaultKind} {s : State} {effect : State → State}
    (h : (effect s).dtab = s.dtab) : (unlessBadArg bad k s effect).dtab = s.dtab :=
  unlessBadArg_induct (P := fun t => t.dtab = s.dtab) (raiseFault_dtab k s) fun _ => h

/-- A gated command whose effect keeps the table keeps it. -/
theorem unlessFault_dtab {s t : State} {effect : State → State} (ht : unlessFault s effect = .next t)
    (h : (effect s).dtab = s.dtab) : t.dtab = s.dtab :=
  unlessFault_induct (P := fun t => t.dtab = s.dtab) ht rfl h

theorem execToken_dtab {s t : State} (tok : Token) (ht : exec tok.toInstr s = .next t) : t.dtab = s.dtab :=
  exec_token_next ht ▸ (runToken_datapathOnly tok s).dtab

/-- Which instructions can touch the table at all. -/
theorem exec_dtab {s t : State} {i : Instr} (ht : exec i s = .next t) :
    t.dtab = s.dtab ∨ i = .getseg ∨ i = .scan ∨ i = .sreset := by
  cases i with
  | scan => exact .inr (.inr (.inl rfl))
  | sreset => exact .inr (.inr (.inr rfl))
  | getseg => exact .inr (.inl rfl)
  | sraw l => exact .inl (execToken_dtab (.sraw l) ht)
  | sref o => exact .inl (execToken_dtab (.sref o) ht)
  | refa o => exact .inl (execToken_dtab (.refa o) ht)
  | refb o => exact .inl (execToken_dtab (.refb o) ht)
  | refc l o => exact .inl (execToken_dtab (.refc l o) ht)
  | lraw l => exact .inl (execToken_dtab (.lraw l) ht)
  | count => rw [exec_count] at ht; exact .inl (unlessFault_dtab ht rfl)
  | getdesc =>
    rw [exec_getdesc] at ht
    exact .inl (unlessFault_dtab ht (by rw [loadLatch_dtab]; split <;> rfl))
  | segdec => rw [exec_segdec] at ht; exact .inl (unlessFault_dtab ht (unlessBadArg_dtab (segdecEffect_dtab s)))
  | bcInit =>
    rw [exec_bcInit] at ht
    exact .inl (unlessFault_dtab ht (unlessBadArg_dtab (bcConstruct_cursorOnly _ _ _ s).datapath.dtab))
  | bcRead => rw [exec_bcRead] at ht; exact .inl (unlessFault_dtab ht (unlessBadArg_dtab (bcReadEffect_dtab s)))
  | bcEof => rw [exec_bcEof] at ht; exact .inl (unlessFault_dtab ht rfl)
  | oaInit => rw [exec_oaInit] at ht; exact .inl (unlessFault_dtab ht (unlessBadArg_dtab rfl))
  | oaRaw => rw [exec_oaRaw] at ht; exact .inl (unlessFault_dtab ht (copyRaw_datapathOnly _ s).dtab)
  | oaRef =>
    rw [exec_oaRef] at ht
    exact .inl (unlessFault_dtab ht (unlessBadArg_dtab (copyBackReference_datapathOnly _ _ s).dtab))
  | oaEof => rw [exec_oaEof] at ht; exact .inl (unlessFault_dtab ht rfl)
  | clrdiag => rw [exec_clrdiag] at ht; exact .inl (unlessFault_dtab ht rfl)
  | unassigned code => rw [exec_unassigned] at ht; exact .inl (unlessFault_dtab ht rfl)

theorem execGetseg_tableKept {s t : State} (ht : exec .getseg s = .next t) : TableKept s t := by
  rw [exec_getseg] at ht
  have hseg := getSegment_tableKept s.arg0.toNat s
  refine unlessFault_induct ht (.refl s) ⟨?_, ?_⟩ <;> rw [loadLatch_dtab, deliver_dtab]
  · exact hseg.fixed
  · exact hseg.cached

/-- Every instruction but SCAN and SRESET keeps the table. -/
theorem exec_tableKept {s t : State} {i : Instr} (ht : exec i s = .next t) (hscan : i ≠ .scan)
    (hreset : i ≠ .sreset) : TableKept s t := by
  rcases exec_dtab ht with h | rfl | h | h
  · exact .of_eq h
  · exact execGetseg_tableKept ht
  · exact absurd h hscan
  · exact absurd h hreset

/-- The code of a CMD write is the code of the command it is decoded to. -/
theorem encode_fetchCommand (v : Word) : encode (fetchCommand v) = .command (v.setWidth 8) :=
  encode_decodeCommand _

theorem code_of_fetchCommand {v : Word} {i : Instr} {code : Byte} (h : fetchCommand v = i)
    (hi : encode i = .command code) : v.setWidth 8 = code := by
  rw [← h, encode_fetchCommand] at hi
  exact Encoded.command.inj hi

/-- A write to CMD at the host port either keeps the table or is the write of SCAN or SRESET. -/
theorem commandWrite_tableKept {s t : State} {v : Word} {rest : List HostAction} (hf : s.fetchFrom = .hostPort)
    (hh : s.host = .write 0 v :: rest) (ht : exec (fetchCommand v) { s with host := rest } = .next t) :
    TableKept s t ∨ nextCommand s 0x01 ∨ nextReset s := by
  by_cases hscan : fetchCommand v = .scan
  · exact .inr (.inl ⟨v, rest, hf, hh, code_of_fetchCommand hscan rfl⟩)
  by_cases hreset : fetchCommand v = .sreset
  · exact .inr (.inr (.inl ⟨v, rest, hf, hh, code_of_fetchCommand hreset rfl⟩))
  have hkept := exec_tableKept ht hscan hreset
  exact .inl ⟨hkept.fixed, hkept.cached⟩

theorem portWrite_dtab (reg : Nat) (v : Word) (s : State) : (portWrite reg v s).dtab = s.dtab := by
  rcases portWrite_cases reg v s with he | he | he | he | he | he <;> rw [he]

/-- Settles O57, by what the step was: only a CMD write or a hardware reset can touch the table. -/
theorem descriptorsAreImmutable : Obligations.DescriptorsAreImmutable := by
  intro s t ht
  suffices h : TableKept s t ∨ nextCommand s 0x01 ∨ nextReset s from
    h.imp_left fun hkept => ⟨hkept.fixed, hkept.cached⟩
  rcases step_cases ht with ⟨-, -, rfl⟩ | ⟨a, rest, hf, hh, ha⟩ | ⟨-, -, rfl⟩ | ⟨-, -, rfl⟩
  · exact .inl (.refl t)
  · cases a with
    | write reg v =>
      by_cases hreg : reg = 0
      · subst hreg
        exact commandWrite_tableKept hf hh (by simpa only [hostStep, if_true] using ha)
      · simp only [hostStep, hreg, if_false] at ha
        exact .inl (.of_eq (Host.Outcome.next.inj ha ▸ portWrite_dtab reg v _))
    | read reg => exact .inl (.of_eq (Host.Outcome.next.inj ha ▸ rfl))
    | load addr v =>
      obtain ⟨-, rfl⟩ := hostLoad_next ha
      exact .inl (.of_eq rfl)
    | hardReset => exact .inr (.inr (.inr ⟨rest, hf, hh⟩))
  · exact .inl (.of_eq rfl)
  · exact .inl (.of_eq (decodeOneToken_datapathOnly s).dtab)

end Sys2Proof.Machine

namespace Sys2Proof.Machine

/-! ## The host's actions -/

/-- A write to a register number with no writable register changes nothing (R43). -/
theorem portWrite_ignored {reg : Nat} (h : 6 ≤ reg) (v : Word) (s : State) : portWrite reg v s = s := by
  unfold portWrite
  split
  case h_6 => rfl
  all_goals omega

/-- A step at a write to a register other than CMD. -/
theorem step_of_write {s : State} {reg : Nat} {v : Word} {rest : List HostAction} (hf : s.fetchFrom = .hostPort)
    (hh : s.host = .write reg v :: rest) (hreg : reg ≠ 0) :
    step s = .next (portWrite reg v { s with host := rest }) := by
  rw [step_of_action hf hh]
  exact if_neg hreg

/-- Settles O9, action by action. -/
theorem hostActionsEffect : Obligations.HostActionsEffect := by
  intro s hf
  refine ⟨step_of_idle hf, fun v rest hh => ?_, fun v rest hh => ?_, fun v rest hh => ?_, fun v rest hh => ?_,
    fun v rest hh => ?_, fun reg v rest hreg hh => ?_, fun reg rest hh => ?_, fun a v rest hh ha => ?_,
    fun a v rest hh ha => ?_, fun rest hh => ?_⟩
  · exact step_of_write hf hh (by decide)
  · exact step_of_write hf hh (by decide)
  · exact step_of_write hf hh (by decide)
  · exact step_of_write hf hh (by decide)
  · exact step_of_write hf hh (by decide)
  · rw [step_of_write hf hh (by omega), portWrite_ignored hreg]
  · rw [step_of_action hf hh]; rfl
  · rw [step_of_action hf hh]; exact hostLoad_inside (s := { s with host := rest }) ha v
  · rw [step_of_action hf hh]; exact hostLoad_outside (s := { s with host := rest }) ha v
  · rw [step_of_action hf hh]; rfl

/-! ## The register file (R43) -/

/-- A value that fits the port reads as it is. -/
theorem portNat_toNat {v : Nat} (h : v < 2 ^ 32) : (portNat v).toNat = v := by
  rw [portNat, if_pos h, BitVec.toNat_ofNat, Nat.mod_eq_of_lt h]

/-- The register numbers of R43 end at 0x28 and leave gaps; a number outside them reads 0. -/
theorem portRead_reserved {reg : Nat} (s : State)
    (h : 0x0C ≤ reg ∧ reg ≤ 0x0F ∨ 0x16 ≤ reg ∧ reg ≤ 0x17 ∨ 0x1A ≤ reg ∧ reg ≤ 0x1F ∨ 0x29 ≤ reg) :
    portRead reg s = 0 := by
  unfold portRead
  split
  case h_30 => rfl
  all_goals omega

/-- The five bits of STATUS as a number (R40). -/
def statusBits (s : State) : Nat :=
  s.fault.toNat + 2 * s.scanned.toNat + 4 * s.csumOk.toNat + 8 * (bcEof s).toNat + 16 * (oaEof s).toNat

theorem statusBits_lt (s : State) : statusBits s < 32 := by
  have h0 := s.fault.toNat_le
  have h1 := s.scanned.toNat_le
  have h2 := s.csumOk.toNat_le
  have h3 := (bcEof s).toNat_le
  have h4 := (oaEof s).toNat_le
  unfold statusBits
  omega

theorem statusHalf_toNat (s : State) : (statusHalf s).toNat = statusBits s := by
  have h := statusBits_lt s
  exact (BitVec.toNat_ofNat _ _).trans (Nat.mod_eq_of_lt (by unfold statusBits at h; omega))

/-- STATUS as the host reads it: the five bits, and FAULTCODE in the top byte (R40, R43). -/
theorem statusWord_toNat (s : State) : (statusWord s).toNat = statusBits s + 2 ^ 24 * s.faultCode.toNat := by
  have hlow : statusBits s < 2 ^ 16 := (statusBits_lt s).trans (by decide)
  rw [statusWord, BitVec.toNat_append, BitVec.toNat_append, statusHalf_toNat, ← Nat.shiftLeft_add_eq_or_of_lt hlow]
  simp only [Nat.shiftLeft_eq, BitVec.ofNat_eq_ofNat, BitVec.toNat_ofNat, Nat.zero_mod, Nat.or_zero]
  omega

/-- DIAG as the host reads it: its nine flags (R39). -/
theorem diagRead_toNat (s : State) : (diagRead s).toNat = s.diag.toNat % 2 ^ 9 := by
  rw [diagRead, BitVec.toNat_and]
  exact Nat.and_two_pow_sub_one_eq_mod _ 9

theorem descFlags_lt (l : DescLatch) : descFlags l < 4 := by
  have hv := l.valid.toNat_le
  have hc := l.cached.toNat_le
  unfold descFlags
  omega

/-- BC_POS reads sign-extended: -1 as all ones. -/
theorem portRead_pos_exhausted {s : State} (h : s.bcu.pos = -1) : portRead 0x12 s = 0xFFFFFFFF := by
  have hneg : s.bcu.pos < 0 := by omega
  exact (if_pos hneg).trans (by rw [h]; rfl)

theorem portRead_pos_toNat {s : State} (h0 : 0 ≤ s.bcu.pos) (hmax : s.bcu.pos < 2 ^ 32) :
    ((portRead 0x12 s).toNat : Int) = s.bcu.pos := by
  have hread : portRead 0x12 s = portNat s.bcu.pos.toNat := if_neg (by omega)
  rw [hread, portNat_toNat (by omega), Int.toNat_of_nonneg h0]

theorem portRead_flags_toNat (s : State) : (portRead 0x28 s).toNat = descFlags s.latch :=
  (BitVec.toNat_ofNat _ _).trans (Nat.mod_eq_of_lt ((descFlags_lt s.latch).trans (by decide)))

theorem portRead_diag_toNat (s : State) : (portRead 0x08 s).toNat = s.diag.toNat % 2 ^ 9 :=
  (BitVec.toNat_setWidth_of_le (by decide)).trans (diagRead_toNat s)

/-- Settles O10, register by register in the order of the map. -/
theorem portReads : Obligations.PortReads := by
  intro s
  exact ⟨rfl, rfl, rfl, rfl, rfl, rfl, rfl, statusWord_toNat s, portRead_diag_toNat s,
    portNat_toNat, portNat_toNat, portNat_toNat, portNat_toNat, portNat_toNat,
    portRead_pos_exhausted, portRead_pos_toNat, BitVec.toNat_setWidth_of_le (by decide),
    fun hrem => portNat_toNat (by omega), BitVec.toNat_setWidth_of_le (by decide),
    portNat_toNat, portNat_toNat, portNat_toNat, portNat_toNat,
    BitVec.toNat_setWidth_of_le (by decide), BitVec.toNat_setWidth_of_le (by decide),
    BitVec.toNat_setWidth_of_le (by decide), BitVec.toNat_setWidth_of_le (by decide),
    BitVec.toNat_setWidth_of_le (by decide), BitVec.toNat_setWidth_of_le (by decide),
    portRead_flags_toNat s, fun _ => portRead_reserved s⟩

/-! ## STATUS and DIAG bit by bit -/

/-- STATUS[4:0], one bit per condition (R40). -/
theorem statusBits_testBit (s : State) :
    (statusBits s).testBit 0 = s.fault ∧ (statusBits s).testBit 1 = s.scanned ∧
      (statusBits s).testBit 2 = s.csumOk ∧ (statusBits s).testBit 3 = bcEof s ∧
      (statusBits s).testBit 4 = oaEof s := by
  unfold statusBits
  generalize s.fault = fault, s.scanned = scanned, s.csumOk = csumOk, bcEof s = bcEnd, oaEof s = oaEnd
  revert fault scanned csumOk bcEnd oaEnd
  decide

/-- Below bit 24 STATUS shows its conditions, from there on FAULTCODE. -/
theorem portRead_status_getLsbD (s : State) (i : Nat) :
    (portRead 0x07 s).getLsbD i = if i < 24 then (statusBits s).testBit i else s.faultCode.getLsbD (i - 24) := by
  have hlow : statusBits s < 2 ^ 24 := (statusBits_lt s).trans (by decide)
  have hread : (portRead 0x07 s).toNat = 2 ^ 24 * s.faultCode.toNat + statusBits s :=
    (statusWord_toNat s).trans (Nat.add_comm _ _)
  rw [← BitVec.testBit_toNat, hread, Nat.testBit_two_pow_mul_add _ hlow, BitVec.testBit_toNat]

theorem portRead_diag_getLsbD (s : State) (i : Nat) :
    (portRead 0x08 s).getLsbD i = (decide (i < 9) && s.diag.getLsbD i) := by
  rw [← BitVec.testBit_toNat, portRead_diag_toNat, Nat.testBit_mod_two_pow, BitVec.testBit_toNat]

theorem bcEof_eq_decide (s : State) : bcEof s = decide (s.bcu.rem = 0 ∧ s.bcu.pos ≤ 0) := by
  rw [bcEof, Bool.decide_and, beq_eq_decide]

/-- Settles O11: the conditions' own bits, the gap above them, FAULTCODE, and the nine flags of DIAG. -/
theorem statusAndDiagWords : Obligations.StatusAndDiagWords := by
  intro s
  obtain ⟨hfault, hscanned, hcsum, hbc, hoa⟩ := statusBits_testBit s
  have hcond : ∀ i, i < 24 → (portRead 0x07 s).getLsbD i = (statusBits s).testBit i := fun i hi => by
    rw [portRead_status_getLsbD, if_pos hi]
  refine ⟨(hcond 0 (by decide)).trans hfault, (hcond 1 (by decide)).trans hscanned,
    (hcond 2 (by decide)).trans hcsum, ((hcond 3 (by decide)).trans hbc).trans (bcEof_eq_decide s),
    (hcond 4 (by decide)).trans hoa, fun i h5 h24 => ?_, fun i h8 => ?_, fun i h9 => ?_, fun i h9 => ?_⟩
  · rw [hcond i h24]
    exact Nat.testBit_lt_two_pow ((statusBits_lt s).trans_le (Nat.pow_le_pow_right (n := 2) (by decide) h5))
  · rw [portRead_status_getLsbD, if_neg (by omega), Nat.add_sub_cancel_left]
  · rw [portRead_diag_getLsbD, decide_eq_true h9, Bool.true_and]
  · rw [portRead_diag_getLsbD, decide_eq_false (Nat.not_lt.mpr h9), Bool.false_and]

/-! ## Reset -/

/-- Every register of the map but STATUS and BC_POS reads 0 after reset (R46). -/
theorem portRead_reset {reg : Nat} (hstatus : reg ≠ 0x07) (hpos : reg ≠ 0x12) : portRead reg State.reset = 0 := by
  unfold portRead
  split
  case h_8 => exact absurd rfl hstatus
  case h_15 => exact absurd rfl hpos
  all_goals rfl

/-- Settles O12; after reset STATUS shows the two end tests. -/
theorem resetValues : Obligations.ResetValues :=
  ⟨fun _ => portRead_reset, portRead_pos_exhausted rfl, by decide, rfl, rfl, rfl, rfl, rfl, rfl⟩

end Sys2Proof.Machine

/-! PROOFS. The statements of 20_memory.md: the bytes of a memory, the archive's fallback, the 16-bit reads of the BIU, and
who writes the archive and the argument registers. -/

namespace Sys2Proof.Machine

/-! ## Memories (R61, R62) -/

/-- Settles O14: the mask of OOR_READ is bit 0. -/
theorem archiveReadFallback : Obligations.ArchiveReadFallback :=
  fun _ _ => ⟨readArchive_inside, readArchive_outside⟩

/-- Settles O15, from the laws of a write. -/
theorem memoryReadAfterWrite : Obligations.MemoryReadAfterWrite :=
  fun m a v h => ⟨Memory.wf_set h a v, Memory.get_set_same h a v, fun _ hb => Memory.get_set_other v hb m⟩

/-! ## The 16-bit reads of the BIU (R66) -/

theorem be16_toNat (hi lo : Byte) : (be16 hi lo).toNat = hi.toNat * 2 ^ 8 + lo.toNat := by
  rw [be16, BitVec.toNat_append, ← Nat.shiftLeft_add_eq_or_of_lt lo.isLt, Nat.shiftLeft_eq]

/-- A number that two bytes spell, as the 16-bit value of the pair. -/
theorem ofNat_eq_be16 {n : Nat} {hi lo : Byte} (h : n = hi.toNat * 2 ^ 8 + lo.toNat) :
    BitVec.ofNat 16 n = be16 hi lo := by
  rw [h, ← be16_toNat, BitVec.ofNat_toNat, BitVec.setWidth_eq]

theorem bigEndian_pair (a b : Byte) : bigEndian [a, b] = a.toNat * 2 ^ 8 + b.toNat := by
  simp [bigEndian]

theorem littleEndian_pair (a b : Byte) : littleEndian [a, b] = b.toNat * 2 ^ 8 + a.toNat := by
  simp only [littleEndian]
  omega

/-- Two successive byte reads are archive reads at the cursor and one past it (R65). -/
theorem readBytesHere_two (w : Window) (s : State) :
    readBytesHere 2 w s =
      { value := [(readArchive w.cursor s).1, (readArchive (w.cursor + 1) (readArchive w.cursor s).2).1]
        window := { w with cursor := w.cursor + 2 }
        state := (readArchive (w.cursor + 1) (readArchive w.cursor s).2).2 } := by
  have hcursor : w.cursor + 2 = w.cursor + 1 + 1 := by omega
  rw [hcursor]
  rfl

/-- The big-endian read from the absolute address `c` takes the first byte as the more significant. -/
theorem readWordBE_at {w : Window} {pos : Option Int} {c : Int} (hc : repositioned w pos = { w with cursor := c })
    (s : State) :
    readWordBE w pos s =
      { value := be16 (readArchive c s).1 (readArchive (c + 1) (readArchive c s).2).1
        window := { w with cursor := c + 2 }
        state := (readArchive (c + 1) (readArchive c s).2).2 } := by
  simp only [readWordBE, hc, readBytesHere_two, ofNat_eq_be16 (bigEndian_pair _ _)]

/-- The little-endian read from the absolute address `c` takes the second byte as the more significant. -/
theorem readWordLE_at {w : Window} {pos : Option Int} {c : Int} (hc : repositioned w pos = { w with cursor := c })
    (s : State) :
    readWordLE w pos s =
      { value := be16 (readArchive (c + 1) (readArchive c s).2).1 (readArchive c s).1
        window := { w with cursor := c + 2 }
        state := (readArchive (c + 1) (readArchive c s).2).2 } := by
  simp only [readWordLE, hc, readBytesHere_two, ofNat_eq_be16 (littleEndian_pair _ _)]

/-- Settles O16: without a position the window stands where it is, with one it is first moved there. -/
theorem biuWordReads : Obligations.BiuWordReads := by
  intro w pos s
  cases pos with
  | none => exact ⟨readWordBE_at (c := w.cursor) rfl s, readWordLE_at (c := w.cursor) rfl s⟩
  | some p =>
    exact ⟨readWordBE_at (c := w.hiddenOffset + p) rfl s, readWordLE_at (c := w.hiddenOffset + p) rfl s⟩

/-! ## The host's side of the state: parameters, archive, argument registers (R6, R60, R43) -/

/-- What no unit and no command but the resets writes. -/
structure HostSide where
  cfg : Config
  amem : Memory
  arg0 : Word
  arg1 : Word
  arg2 : Word
  arg3 : Word
  arg4 : Word

/-- The host's side of a state. -/
def State.hostSide (s : State) : HostSide :=
  { cfg := s.cfg, amem := s.amem, arg0 := s.arg0, arg1 := s.arg1, arg2 := s.arg2, arg3 := s.arg3, arg4 := s.arg4 }

/-- Equal host sides, register by register. -/
theorem hostSide_eq_iff {s t : State} :
    t.hostSide = s.hostSide ↔
      t.cfg = s.cfg ∧ t.amem = s.amem ∧
        t.arg0 = s.arg0 ∧ t.arg1 = s.arg1 ∧ t.arg2 = s.arg2 ∧ t.arg3 = s.arg3 ∧ t.arg4 = s.arg4 := by
  simp only [State.hostSide, HostSide.mk.injEq]

theorem DatapathOnly.hostSide {s t : State} (h : DatapathOnly s t) : t.hostSide = s.hostSide := by rw [h]; rfl

theorem loadLatch_hostSide (i : Nat) (s : State) : (loadLatch i s).hostSide = s.hostSide := by
  unfold loadLatch; split <;> rfl

theorem decodeDescriptor_hostSide (d : Descriptor) (s : State) : (decodeDescriptor d s).hostSide = s.hostSide := by
  unfold decodeDescriptor; rw [segDecode_frame]; rfl

theorem getSegment_hostSide (i : Nat) (s : State) : (getSegment i s).2.hostSide = s.hostSide := by
  rcases getSegment_cases i s with ⟨-, he⟩ | ⟨_, _, -, -, he⟩ | ⟨d, -, -, he⟩ <;> rw [he]
  · rfl
  · have hdec := decodeDescriptor_hostSide d s
    dsimp only
    split
    · exact hdec
    · exact hdec

theorem scanEffect_hostSide (s : State) : (scanEffect s).hostSide = s.hostSide :=
  scanLoop_induct (P := fun t => t.hostSide = s.hostSide) (fun _ h _ _ => h) (fun _ h => h)
    (s.arg0.toNat / Config.hdrLen) (s := { s with archLen := s.arg0.toNat, scanPos := 0, dtab := [] }) rfl

theorem segdecEffect_hostSide (s : State) : (segdecEffect s).hostSide = s.hostSide := by
  unfold segdecEffect; dsimp only; rw [segDecode_frame]; rfl

theorem bcReadEffect_hostSide (s : State) : (bcReadEffect s).hostSide = s.hostSide :=
  (bcRead_cursorOnly _ s).datapath.hostSide

/-- A gated command keeps the host's side when its effect does. -/
theorem unlessFault_hostSide {s t : State} {effect : State → State} (ht : unlessFault s effect = .next t)
    (h : (effect s).hostSide = s.hostSide) : t.hostSide = s.hostSide :=
  unlessFault_induct (P := fun t => t.hostSide = s.hostSide) ht rfl h

/-- A checked command keeps the host's side when its effect does. -/
theorem unlessBadArg_hostSide {bad : Bool} {k : FaultKind} {s : State} {effect : State → State}
    (h : (effect s).hostSide = s.hostSide) : (unlessBadArg bad k s effect).hostSide = s.hostSide :=
  unlessBadArg_induct (P := fun t => t.hostSide = s.hostSide) rfl fun _ => h

theorem execToken_hostSide {s t : State} (tok : Token) (ht : exec tok.toInstr s = .next t) :
    t.hostSide = s.hostSide :=
  exec_token_next ht ▸ (runToken_datapathOnly tok s).hostSide

/-- Every instruction but SRESET keeps the host's side. -/
theorem exec_hostSide {s t : State} {i : Instr} (ht : exec i s = .next t) (hreset : i ≠ .sreset) :
    t.hostSide = s.hostSide := by
  cases i with
  | sreset => exact absurd rfl hreset
  | sraw l => exact execToken_hostSide (.sraw l) ht
  | sref o => exact execToken_hostSide (.sref o) ht
  | refa o => exact execToken_hostSide (.refa o) ht
  | refb o => exact execToken_hostSide (.refb o) ht
  | refc l o => exact execToken_hostSide (.refc l o) ht
  | lraw l => exact execToken_hostSide (.lraw l) ht
  | scan =>
    rw [exec_scan] at ht
    exact unlessFault_hostSide ht (unlessBadArg_hostSide (scanEffect_hostSide s))
  | count =>
    rw [exec_count] at ht
    exact unlessFault_hostSide ht rfl
  | getseg =>
    rw [exec_getseg] at ht
    exact unlessFault_hostSide ht ((loadLatch_hostSide _ _).trans (getSegment_hostSide _ s))
  | getdesc =>
    rw [exec_getdesc] at ht
    exact unlessFault_hostSide ht ((loadLatch_hostSide _ _).trans (by split <;> rfl))
  | segdec =>
    rw [exec_segdec] at ht
    exact unlessFault_hostSide ht (unlessBadArg_hostSide (segdecEffect_hostSide s))
  | bcInit =>
    rw [exec_bcInit] at ht
    exact unlessFault_hostSide ht (unlessBadArg_hostSide (bcConstruct_cursorOnly _ _ _ s).datapath.hostSide)
  | bcRead =>
    rw [exec_bcRead] at ht
    exact unlessFault_hostSide ht (unlessBadArg_hostSide (bcReadEffect_hostSide s))
  | bcEof =>
    rw [exec_bcEof] at ht
    exact unlessFault_hostSide ht rfl
  | oaInit =>
    rw [exec_oaInit] at ht
    exact unlessFault_hostSide ht (unlessBadArg_hostSide rfl)
  | oaRaw =>
    rw [exec_oaRaw] at ht
    exact unlessFault_hostSide ht (copyRaw_datapathOnly _ s).hostSide
  | oaRef =>
    rw [exec_oaRef] at ht
    exact unlessFault_hostSide ht (unlessBadArg_hostSide (copyBackReference_datapathOnly _ _ s).hostSide)
  | oaEof =>
    rw [exec_oaEof] at ht
    exact unlessFault_hostSide ht rfl
  | clrdiag =>
    rw [exec_clrdiag] at ht
    exact unlessFault_hostSide ht rfl
  | unassigned code =>
    rw [exec_unassigned] at ht
    exact unlessFault_hostSide ht rfl

/-- A write to CMD at the host port keeps the host's side or is the write of SRESET. -/
theorem commandWrite_hostSide {s t : State} {v : Word} {rest : List HostAction} (hf : s.fetchFrom = .hostPort)
    (hh : s.host = .write 0 v :: rest) (ht : exec (fetchCommand v) { s with host := rest } = .next t) :
    t.hostSide = s.hostSide ∨ (nextReset s ∧ t = resetMachine { s with host := rest }) := by
  by_cases hreset : fetchCommand v = .sreset
  · rw [hreset, exec_sreset] at ht
    exact .inr ⟨.inl ⟨v, rest, hf, hh, code_of_fetchCommand hreset rfl⟩, (Host.Outcome.next.inj ht).symm⟩
  · have hkept := exec_hostSide ht hreset
    exact .inl hkept

/-- What a step does to the host's side: nothing, a reset, a load of the archive, or a write to a register other than
CMD. -/
theorem step_hostSide {s t : State} (ht : step s = .next t) :
    t.hostSide = s.hostSide ∨
    (nextReset s ∧ ∃ rest, t = resetMachine { s with host := rest }) ∨
    (∃ a v rest, s.fetchFrom = .hostPort ∧ s.host = .load a v :: rest ∧ a < 2 ^ s.cfg.aw ∧
      t = { s with host := rest, amem := s.amem.set a v }) ∨
    ∃ reg v rest, s.fetchFrom = .hostPort ∧ s.host = .write reg v :: rest ∧
      t = portWrite reg v { s with host := rest } := by
  rcases step_cases ht with ⟨-, -, rfl⟩ | ⟨a, rest, hf, hh, ha⟩ | ⟨-, -, rfl⟩ | ⟨-, -, rfl⟩
  · exact .inl rfl
  · cases a with
    | write reg v =>
      by_cases hreg : reg = 0
      · subst hreg
        simp only [hostStep, if_true] at ha
        exact (commandWrite_hostSide hf hh ha).imp_right fun ⟨hreset, ht⟩ => .inl ⟨hreset, rest, ht⟩
      · simp only [hostStep, hreg, if_false] at ha
        exact .inr (.inr (.inr ⟨reg, v, rest, hf, hh, (Host.Outcome.next.inj ha).symm⟩))
    | read reg =>
      obtain rfl := Host.Outcome.next.inj ha
      exact .inl rfl
    | load addr v =>
      obtain ⟨haddr, rfl⟩ := hostLoad_next ha
      exact .inr (.inr (.inl ⟨addr, v, rest, hf, hh, haddr, rfl⟩))
    | hardReset =>
      obtain rfl := Host.Outcome.next.inj ha
      exact .inr (.inl ⟨.inr ⟨rest, hf, hh⟩, rest, rfl⟩)
  · exact .inl rfl
  · exact .inl (decodeOneToken_datapathOnly s).hostSide

/-- A write to the port changes the argument register of that number, and nothing else; where there is none, nothing
(R43). -/
theorem portWrite_by_register (reg : Nat) (v : Word) (s : State) :
    (reg = 1 ∧ portWrite reg v s = { s with arg0 := v }) ∨ (reg = 2 ∧ portWrite reg v s = { s with arg1 := v }) ∨
      (reg = 3 ∧ portWrite reg v s = { s with arg2 := v }) ∨ (reg = 4 ∧ portWrite reg v s = { s with arg3 := v }) ∨
      (reg = 5 ∧ portWrite reg v s = { s with arg4 := v }) ∨ portWrite reg v s = s := by
  unfold portWrite
  split <;> simp

theorem portWrite_amem_cfg (reg : Nat) (v : Word) (s : State) :
    (portWrite reg v s).amem = s.amem ∧ (portWrite reg v s).cfg = s.cfg := by
  rcases portWrite_cases reg v s with he | he | he | he | he | he <;> rw [he] <;> exact ⟨rfl, rfl⟩

/-- Settles O56, by what the step did to the host's side. -/
theorem archiveAndArgumentsBelongToHost : Obligations.ArchiveAndArgumentsBelongToHost := by
  intro s t ht
  rcases step_hostSide ht with hkept | ⟨hreset, _, rfl⟩ | ⟨a, v, rest, hf, hh, ha, rfl⟩ | ⟨reg, v, rest, hf, hh, rfl⟩
  · obtain ⟨hcfg, hamem, hargs⟩ := hostSide_eq_iff.mp hkept
    exact ⟨.inl hamem, .inl hargs, hcfg⟩
  · exact ⟨.inl rfl, .inr (.inl ⟨hreset, rfl, rfl, rfl, rfl, rfl⟩), rfl⟩
  · exact ⟨.inr ⟨a, v, rest, hf, hh, ha, rfl⟩, .inl ⟨rfl, rfl, rfl, rfl, rfl⟩, rfl⟩
  · obtain ⟨hamem, hcfg⟩ := portWrite_amem_cfg reg v { s with host := rest }
    refine ⟨.inl hamem, ?_, hcfg⟩
    rcases portWrite_by_register reg v { s with host := rest } with
      ⟨rfl, he⟩ | ⟨rfl, he⟩ | ⟨rfl, he⟩ | ⟨rfl, he⟩ | ⟨rfl, he⟩ | he <;> rw [he]
    · exact .inr (.inr ⟨v, rest, hf, .inl ⟨hh, rfl⟩⟩)
    · exact .inr (.inr ⟨v, rest, hf, .inr (.inl ⟨hh, rfl⟩)⟩)
    · exact .inr (.inr ⟨v, rest, hf, .inr (.inr (.inl ⟨hh, rfl⟩))⟩)
    · exact .inr (.inr ⟨v, rest, hf, .inr (.inr (.inr (.inl ⟨hh, rfl⟩)))⟩)
    · exact .inr (.inr ⟨v, rest, hf, .inr (.inr (.inr (.inr ⟨hh, rfl⟩)))⟩)
    · exact .inl ⟨rfl, rfl, rfl, rfl, rfl⟩

end Sys2Proof.Machine

/-! PROOFS. The statements of 30_encoding.md. The one idea: whatever delivers the bits, those that the selector tree of R103
consumes are the encoding of the token it answers (`decodeTokenWith_consumes`). It serves the decoder of bit lists and the
fetch from the bit cursor alike; for the cursor it is joined with the closed form of a read (`bcRead_eq`). -/

namespace Sys2Proof

/-! ## Bits and numbers (R8) -/

@[simp] theorem natToBits_length : ∀ w v : Nat, (natToBits w v).length = w
  | 0, _ => rfl
  | w + 1, v => congrArg Nat.succ (natToBits_length w v)

theorem bitsToNatFrom_append : ∀ (acc : Nat) (xs ys : List Bool),
    bitsToNatFrom acc (xs ++ ys) = bitsToNatFrom (bitsToNatFrom acc xs) ys
  | _, [], _ => rfl
  | _, _ :: xs, ys => bitsToNatFrom_append _ xs ys

theorem bitsToNatFrom_eq : ∀ (acc : Nat) (bs : List Bool),
    bitsToNatFrom acc bs = acc * 2 ^ bs.length + bitsToNat bs
  | _, [] => by simp [bitsToNatFrom, bitsToNat]
  | acc, b :: bs => by
    simp only [bitsToNat, bitsToNatFrom, List.length_cons]
    rw [bitsToNatFrom_eq (2 * acc + b.toNat) bs, bitsToNatFrom_eq (2 * 0 + b.toNat) bs]
    ring

@[simp] theorem bitsToNat_nil : bitsToNat [] = 0 := rfl

/-- The first bit is the most significant. -/
theorem bitsToNat_cons (b : Bool) (bs : List Bool) : bitsToNat (b :: bs) = b.toNat * 2 ^ bs.length + bitsToNat bs := by
  rw [bitsToNat, bitsToNatFrom, bitsToNatFrom_eq, Nat.mul_zero, Nat.zero_add]

theorem bitsToNat_append (xs ys : List Bool) : bitsToNat (xs ++ ys) = bitsToNat xs * 2 ^ ys.length + bitsToNat ys := by
  rw [bitsToNat, bitsToNatFrom_append, bitsToNatFrom_eq, ← bitsToNat]

theorem bitsToNat_lt : ∀ bs : List Bool, bitsToNat bs < 2 ^ bs.length
  | [] => Nat.one_pos
  | b :: bs => by
    have hb := b.toNat_le
    have ih := bitsToNat_lt bs
    rw [bitsToNat_cons, List.length_cons, pow_succ]
    nlinarith

theorem bitsToNat_natToBits_mod : ∀ w v : Nat, bitsToNat (natToBits w v) = v % 2 ^ w
  | 0, v => by simp [natToBits, Nat.mod_one]
  | w + 1, v => by
    rw [natToBits, bitsToNat_cons, bitsToNat_natToBits_mod w v, natToBits_length, Nat.toNat_testBit, Nat.mod_pow_succ]
    ring

theorem bitsToNat_natToBits {w v : Nat} (h : v < 2 ^ w) : bitsToNat (natToBits w v) = v := by
  rw [bitsToNat_natToBits_mod, Nat.mod_eq_of_lt h]

/-- A field's value is what its bits spell. -/
@[simp] theorem bitsToNat_field {w : Nat} (x : BitVec w) : bitsToNat (natToBits w x.toNat) = x.toNat :=
  bitsToNat_natToBits x.isLt

/-- Bit lists of one length that spell one number are equal. -/
theorem bitsToNat_inj : ∀ {xs ys : List Bool}, xs.length = ys.length → bitsToNat xs = bitsToNat ys → xs = ys
  | [], [], _, _ => rfl
  | x :: xs, y :: ys, hlen, h => by
    have hlen' : xs.length = ys.length := Nat.succ.inj hlen
    have hx := bitsToNat_lt xs
    have hy := bitsToNat_lt ys
    rw [bitsToNat_cons, bitsToNat_cons, hlen'] at h
    rw [hlen'] at hx
    have hxy : x = y := by
      cases x <;> cases y <;> simp at h ⊢ <;> omega
    subst hxy
    rw [bitsToNat_inj hlen' (Nat.add_left_cancel h)]

/-- The bits of the number that a bit list spells are that list. -/
theorem natToBits_bitsToNat (bs : List Bool) : natToBits bs.length (bitsToNat bs) = bs :=
  bitsToNat_inj (natToBits_length _ _) (bitsToNat_natToBits (bitsToNat_lt bs))

/-! ## Reads from a bit list -/

/-- A read of as many bits as the first part of a list has. -/
theorem readBits_append {n : Nat} {xs : List Bool} (h : xs.length = n) (ys : List Bool) :
    readBits n (some (xs ++ ys)) = (bitsToNat xs, some ys) := by
  subst h
  simp [readBits]

/-- A read gives back the number whose bits come next. -/
theorem readBits_natToBits {w v : Nat} (h : v < 2 ^ w) (bs : List Bool) :
    readBits w (some (natToBits w v ++ bs)) = (v, some bs) := by
  rw [readBits_append (natToBits_length _ _), bitsToNat_natToBits h]

/-- A read of a field gives its value (R104 to R109). -/
theorem readBits_field {w : Nat} (x : BitVec w) (bs : List Bool) :
    readBits w (some (natToBits w x.toNat ++ bs)) = (x.toNat, some bs) :=
  readBits_natToBits x.isLt bs

/-- A list too short for a read runs out. -/
theorem readBits_short {n : Nat} {bs : List Bool} (h : bs.length < n) : readBits n (some bs) = (0, none) := by
  simp [readBits, Nat.not_le.mpr h]

/-! ## Tokens -/

/-- Only a token is encoded in the stream (R100). -/
theorem token_of_encode_eq_stream {i : Instr} {bits : List Bool} (h : encode i = .stream bits) :
    ∃ t : Token, i = t.toInstr ∧ bits = encodeToken t := by
  cases i with
  | sraw l => exact ⟨.sraw l, rfl, (Encoded.stream.inj h).symm⟩
  | sref o => exact ⟨.sref o, rfl, (Encoded.stream.inj h).symm⟩
  | refa o => exact ⟨.refa o, rfl, (Encoded.stream.inj h).symm⟩
  | refb o => exact ⟨.refb o, rfl, (Encoded.stream.inj h).symm⟩
  | refc l o => exact ⟨.refc l o, rfl, (Encoded.stream.inj h).symm⟩
  | lraw l => exact ⟨.lraw l, rfl, (Encoded.stream.inj h).symm⟩
  | _ => cases h

/-- The longest header is REFC's (R102). -/
theorem encodeToken_length_le (t : Token) : (encodeToken t).length ≤ 23 := by
  cases t <;> simp [encodeToken]

/-! Each header as the reads of R103 take it: the first bit, the rest of the selector, then the fields. -/

theorem encodeToken_sraw (l : BitVec 3) :
    encodeToken (.sraw l) = natToBits 1 0 ++ (natToBits 1 0 ++ natToBits 3 l.toNat) := rfl

theorem encodeToken_sref (o : BitVec 8) :
    encodeToken (.sref o) = natToBits 1 0 ++ (natToBits 1 1 ++ natToBits 8 o.toNat) := rfl

theorem encodeToken_refa (o : BitVec 9) :
    encodeToken (.refa o) = natToBits 1 1 ++ (natToBits 2 0 ++ natToBits 9 o.toNat) := rfl

theorem encodeToken_refb (o : BitVec 10) :
    encodeToken (.refb o) = natToBits 1 1 ++ (natToBits 2 1 ++ natToBits 10 o.toNat) := rfl

theorem encodeToken_refc (l : BitVec 8) (o : BitVec 12) :
    encodeToken (.refc l o) = natToBits 1 1 ++ (natToBits 2 2 ++ (natToBits 8 l.toNat ++ natToBits 12 o.toNat)) := rfl

theorem encodeToken_lraw (l : BitVec 8) :
    encodeToken (.lraw l) = natToBits 1 1 ++ (natToBits 2 3 ++ natToBits 8 l.toNat) := rfl

/-- A token's header decodes to the token, whatever follows it (R103 to R109). -/
theorem decodeToken_encodeToken_append (t : Token) (rest : List Bool) :
    decodeToken (encodeToken t ++ rest) = .ok (t, rest) := by
  have h1 : ∀ v < 2, ∀ bs, readBits 1 (some (natToBits 1 v ++ bs)) = (v, some bs) := fun _ h => readBits_natToBits h
  have h2 : ∀ v < 4, ∀ bs, readBits 2 (some (natToBits 2 v ++ bs)) = (v, some bs) := fun _ h => readBits_natToBits h
  unfold decodeToken decodeTokenWith
  cases t with
  | sraw l => simp [encodeToken_sraw, h1, readBits_field]
  | sref o => simp [encodeToken_sref, h1, readBits_field]
  | refa o => simp [encodeToken_refa, h1, h2, readBits_field]
  | refb o => simp [encodeToken_refb, h1, h2, readBits_field]
  | refc l o => simp [encodeToken_refc, h1, h2, readBits_field]
  | lraw l => simp [encodeToken_lraw, h1, h2, readBits_field]

theorem decodeToken_encodeToken (t : Token) : decodeToken (encodeToken t) = .ok (t, []) := by
  simpa using decodeToken_encodeToken_append t []

/-- The bits that the selector tree consumes are the header of the token it answers, for every reader and every account
`Took` of the bits taken that adds up over successive reads (R103 to R109, R325). -/
theorem decodeTokenWith_consumes {σ : Type} {rd : Nat → σ → Nat × σ} {Took : List Bool → σ → σ → Prop}
    (htrans : ∀ {xs ys a b c}, Took xs a b → Took ys b c → Took (xs ++ ys) a c)
    (hlt : ∀ n s, (rd n s).1 < 2 ^ n) (hrd : ∀ n s, Took (natToBits n (rd n s).1) s (rd n s).2) (s : σ) :
    Took (encodeToken (decodeTokenWith rd s).1) s (decodeTokenWith rd s).2 := by
  have hfield : ∀ n s, Took (natToBits n (BitVec.ofNat n (rd n s).1).toNat) s (rd n s).2 := fun n s => by
    rw [BitVec.toNat_ofNat, Nat.mod_eq_of_lt (hlt n s)]; exact hrd n s
  unfold decodeTokenWith
  have h1 := hrd 1 s
  have b1 := hlt 1 s
  rcases e1 : rd 1 s with ⟨v1, s1⟩
  rw [e1] at h1 b1
  rcases v1 with _ | _ | v1
  · have h2 := hrd 1 s1
    have b2 := hlt 1 s1
    rcases e2 : rd 1 s1 with ⟨v2, s2⟩
    rw [e2] at h2 b2
    rcases v2 with _ | _ | v2
    · simp only [e2, encodeToken_sraw]; exact htrans h1 (htrans h2 (hfield 3 s2))
    · simp only [e2, encodeToken_sref]; exact htrans h1 (htrans h2 (hfield 8 s2))
    · dsimp only at b2; omega
  · have h2 := hrd 2 s1
    have b2 := hlt 2 s1
    rcases e2 : rd 2 s1 with ⟨v2, s2⟩
    rw [e2] at h2 b2
    rcases v2 with _ | _ | _ | _ | v2
    · simp only [e2, encodeToken_refa]; exact htrans h1 (htrans h2 (hfield 9 s2))
    · simp only [e2, encodeToken_refb]; exact htrans h1 (htrans h2 (hfield 10 s2))
    · simp only [e2, encodeToken_refc]; exact htrans h1 (htrans h2 (htrans (hfield 8 s2) (hfield 12 _)))
    · simp only [e2, encodeToken_lraw]; exact htrans h1 (htrans h2 (hfield 8 s2))
    · dsimp only at b2; omega
  · dsimp only at b1; omega

/-- A reader of bit lists went from `a` to `b` over the bits `xs`: they are what was taken off `a`, and the list runs
out only when it is shorter than them. -/
def ListTook (xs : List Bool) (a b : Option (List Bool)) : Prop :=
  (∀ rest, b = some rest → a = some (xs ++ rest)) ∧ (∀ bs, a = some bs → b = none → bs.length < xs.length)

theorem ListTook.trans {xs ys : List Bool} {a b c : Option (List Bool)} (h : ListTook xs a b) (k : ListTook ys b c) :
    ListTook (xs ++ ys) a c := by
  obtain ⟨htake, hshort⟩ := h
  obtain ⟨ktake, kshort⟩ := k
  refine ⟨fun rest hc => ?_, fun bs ha hc => ?_⟩
  · rw [htake _ (ktake rest hc), List.append_assoc]
  · rw [List.length_append]
    cases b with
    | none => exact Nat.lt_add_right _ (hshort bs ha rfl)
    | some rest =>
      have hbs : bs = xs ++ rest := Option.some.inj (ha.symm.trans (htake rest rfl))
      rw [hbs, List.length_append]
      exact Nat.add_lt_add_left (kshort rest rfl hc) _

theorem readBits_lt (n : Nat) (a : Option (List Bool)) : (readBits n a).1 < 2 ^ n := by
  cases a with
  | none => exact Nat.two_pow_pos n
  | some bs =>
    by_cases h : n ≤ bs.length
    · rw [readBits, if_pos h]
      exact (bitsToNat_lt _).trans_eq (by rw [List.length_take_of_le h])
    · rw [readBits_short (Nat.lt_of_not_le h)]
      exact Nat.two_pow_pos n

theorem listTook_readBits (n : Nat) (a : Option (List Bool)) :
    ListTook (natToBits n (readBits n a).1) a (readBits n a).2 := by
  cases a with
  | none => exact ⟨fun _ h => (nomatch h), fun _ h _ => (nomatch h)⟩
  | some bs =>
    by_cases h : n ≤ bs.length
    · have hbits : natToBits n (bitsToNat (bs.take n)) = bs.take n := by
        simpa only [List.length_take_of_le h] using natToBits_bitsToNat (bs.take n)
      rw [readBits, if_pos h, hbits]
      refine ⟨fun rest hrest => ?_, fun _ _ hnone => nomatch hnone⟩
      rw [← Option.some.inj hrest, List.take_append_drop]
    · have hlen : bs.length < n := Nat.lt_of_not_le h
      rw [readBits_short hlen]
      refine ⟨fun _ hrest => (nomatch hrest), fun cs hcs _ => ?_⟩
      rw [← Option.some.inj hcs, natToBits_length]
      exact hlen

/-- What the decoder takes off a bit list is the header of its token. -/
theorem listTook_decodeTokenWith (bs : List Bool) :
    ListTook (encodeToken (decodeTokenWith readBits (some bs)).1) (some bs) (decodeTokenWith readBits (some bs)).2 :=
  decodeTokenWith_consumes ListTook.trans readBits_lt listTook_readBits (some bs)

theorem decodeToken_ok_iff {bs rest : List Bool} {t : Token} :
    decodeToken bs = .ok (t, rest) ↔ decodeTokenWith readBits (some bs) = (t, some rest) := by
  unfold decodeToken
  rcases decodeTokenWith readBits (some bs) with ⟨u, _ | r⟩ <;> simp

/-- The decoder inverts the encoder: it answers exactly when the list starts with the token's header. -/
theorem decodeToken_eq_ok {bs rest : List Bool} {t : Token} :
    decodeToken bs = .ok (t, rest) ↔ encodeToken t ++ rest = bs := by
  constructor
  · intro h
    have htook := (listTook_decodeTokenWith bs).1
    rw [decodeToken_ok_iff.mp h] at htook
    exact (Option.some.inj (htook rest rfl)).symm
  · rintro rfl
    exact decodeToken_encodeToken_append t rest

/-- 23 bits always hold a whole header (R112). -/
theorem decodeToken_total {bs : List Bool} (h : 23 ≤ bs.length) : ∃ t rest, decodeToken bs = .ok (t, rest) := by
  have htook := (listTook_decodeTokenWith bs).2 bs rfl
  rcases e : decodeTokenWith readBits (some bs) with ⟨t, _ | rest⟩
  · rw [e] at htook
    have hlt := htook rfl
    have hle := encodeToken_length_le t
    dsimp only at hlt
    omega
  · exact ⟨t, rest, decodeToken_ok_iff.mpr e⟩

/-! ## Commands (R117, R245) -/

/-- Every code is one of R117's or stands for the unassigned command that carries it. -/
theorem decodeCommand_cases (code : Byte) :
    (code ∈ assignedCodes ∧ ∀ c, decodeCommand code ≠ .unassigned c) ∨
      (code ∉ assignedCodes ∧ decodeCommand code = .unassigned code) := by
  unfold decodeCommand
  split
  case h_15 => exact .inr ⟨by simp_all [assignedCodes, ← BitVec.toNat_inj], rfl⟩
  all_goals exact .inl ⟨by simp_all [assignedCodes, ← BitVec.toNat_inj], by simp⟩

theorem wellFormed_unassigned {code : Byte} : (Instr.unassigned code).wellFormed = true ↔ code ∉ assignedCodes := by
  simp [Instr.wellFormed]

theorem decodeCommand_wellFormed (code : Byte) : (decodeCommand code).wellFormed = true := by
  rcases decodeCommand_cases code with ⟨-, hne⟩ | ⟨hnot, he⟩
  · cases hi : decodeCommand code with
    | unassigned c => exact absurd hi (hne c)
    | _ => rfl
  · rw [he, wellFormed_unassigned]
    exact hnot

/-- A command's code decodes to the command (R117). -/
theorem decodeCommand_of_encode {i : Instr} {code : Byte} (hwf : i.wellFormed = true) (h : encode i = .command code) :
    decodeCommand code = i := by
  cases i with
  | unassigned c =>
    obtain rfl : c = code := Encoded.command.inj h
    rcases decodeCommand_cases c with ⟨hin, -⟩ | ⟨-, he⟩
    · exact absurd hin (wellFormed_unassigned.mp hwf)
    · exact he
  | sraw | sref | refa | refb | refc | lraw => cases h
  | _ => rw [← Encoded.command.inj h]; rfl

end Sys2Proof

namespace Sys2Proof.Machine

/-- Settles O1, space by space. -/
theorem decodeEncodeAgree : Obligations.DecodeEncodeAgree := by
  intro i hwf
  refine ⟨fun bits h rest => ?_, fun code h => ?_⟩
  · obtain ⟨t, rfl, rfl⟩ := token_of_encode_eq_stream h
    rw [decode, decodeToken_encodeToken_append]
  · rw [decode, decodeCommand_of_encode hwf h]

/-- Settles O2: the bits the decoder takes off are the header of the token it answers. -/
theorem decodedBitsEncodeBack : Obligations.DecodedBitsEncodeBack :=
  ⟨fun _ _ _ => decodeToken_eq_ok.mp, fun code => ⟨encode_decodeCommand code, decodeCommand_wellFormed code⟩⟩

/-- Settles O3: two equal streams decode to one answer. -/
theorem tokenCodeIsCompletePrefixCode : Obligations.TokenCodeIsCompletePrefixCode := by
  refine ⟨fun _ => decodeToken_total, fun t u rest rest' h => ?_⟩
  have hsame : decodeToken (encodeToken u ++ rest') = .ok (t, rest) := decodeToken_eq_ok.mpr h
  rw [decodeToken_encodeToken_append] at hsame
  simpa [eq_comm] using hsame

/-- Settles O4: in each header the selector stands above the fields by their widths. -/
theorem headerFieldPlaces : Obligations.HeaderFieldPlaces := by
  refine ⟨fun l => ?_, fun o => ?_, fun o => ?_, fun o => ?_, fun l o => ?_, fun l => ?_⟩ <;>
    simp [encodeToken, bitsToNat_append, bitsToNat_cons] <;> omega

/-- Settles O5: each word is its token's header, or its command's code. -/
theorem sampleWordsDecode : Obligations.SampleWordsDecode :=
  ⟨decodeToken_encodeToken (.sraw 2), decodeToken_encodeToken (.sref 1), decodeToken_encodeToken (.refa 258),
    decodeToken_encodeToken (.refb 515), decodeToken_encodeToken (.refc 6 1), decodeToken_encodeToken (.lraw 255),
    rfl, rfl, rfl, rfl⟩

/-- Settles O7: the low byte of the write decodes to the command whose code it is. -/
theorem stepRunsWrittenCommand : Obligations.StepRunsWrittenCommand := by
  intro i s v rest hf hh hwf hcode
  have hfetch : fetchCommand v = i := decodeCommand_of_encode hwf hcode
  rw [step_of_action hf hh, ← hfetch]
  rfl

/-! ## Reads of the bit cursor add up (R132) -/

theorem bcReadFrom_add : ∀ (m n acc : Nat) (s : State),
    bcReadFrom (m + n) acc s = bcReadFrom n (bcReadFrom m acc s).1 (bcReadFrom m acc s).2
  | 0, n, acc, s => by rw [Nat.zero_add, bcReadFrom]
  | m + 1, n, acc, s => by
    rw [Nat.add_right_comm, bcReadFrom_succ, bcReadFrom_add m n, bcReadFrom_succ m]

/-- What a read has gathered before only stands above what it gathers. -/
theorem bcReadFrom_eq : ∀ (n acc : Nat) (s : State),
    bcReadFrom n acc s = (acc * 2 ^ n + (bcRead n s).1, (bcRead n s).2)
  | 0, acc, s => by simp [bcRead, bcReadFrom]
  | n + 1, acc, s => by
    rw [bcRead, bcReadFrom_succ, bcReadFrom_succ, bcReadFrom_eq n (2 * acc + _), bcReadFrom_eq n (2 * 0 + _)]
    refine Prod.ext ?_ rfl
    dsimp only
    ring

/-- Two reads one after the other are one read of both counts together (R137). -/
theorem bcRead_add (m n : Nat) (s : State) :
    bcRead (m + n) s =
      ((bcRead m s).1 * 2 ^ n + (bcRead n (bcRead m s).2).1, (bcRead n (bcRead m s).2).2) := by
  rw [bcRead, bcReadFrom_add, bcReadFrom_eq n, ← bcRead]

theorem bcRead_one (s : State) : bcRead 1 s = ((bcReadBit s).1.toNat, (bcReadBit s).2) := by
  simp [bcRead, bcReadFrom]

/-- A read of `n` more bits after one bit. -/
theorem bcRead_succ (n : Nat) (s : State) :
    bcRead (n + 1) s =
      ((bcReadBit s).1.toNat * 2 ^ n + (bcRead n (bcReadBit s).2).1, (bcRead n (bcReadBit s).2).2) := by
  rw [Nat.add_comm, bcRead_add, bcRead_one]

/-! ## The value of a read (R132, R133) -/

/-- The next bits, one by one. -/
theorem nextBits_succ {s : State} (h8 : s.bcu.rem ≤ 8) (n : Nat) :
    nextBits (n + 1) s = (bcReadBit s).1 :: nextBits n (bcReadBit s).2 := by
  have hbit := bcReadBit_stream h8
  unfold nextBits
  cases hs : streamBits s with
  | nil =>
    rw [hs] at hbit
    rw [hbit.2, hbit.1]
    rfl
  | cons b bs =>
    rw [hs] at hbit
    rw [hbit.2, hbit.1, List.replicate_succ', ← List.append_assoc, List.take_append_of_le_length (by simp)]
    rfl

@[simp] theorem nextBits_length (n : Nat) (s : State) : (nextBits n s).length = n := by
  simp [nextBits]

/-- Fewer of the next bits are the first of them. -/
theorem nextBits_take {k n : Nat} (h : k ≤ n) (s : State) : (nextBits n s).take k = nextBits k s := by
  rw [nextBits, nextBits, List.take_take, Nat.min_eq_left h, List.take_append, List.take_append, List.take_replicate,
    List.take_replicate]
  congr 2
  omega

/-- A read gives the number that the next bits spell. -/
theorem bcRead_value : ∀ (n : Nat) {s : State}, s.bcu.rem ≤ 8 → (bcRead n s).1 = bitsToNat (nextBits n s)
  | 0, _, _ => rfl
  | n + 1, s, h8 => by
    rw [bcRead_succ, nextBits_succ h8, bitsToNat_cons, nextBits_length, ← bcRead_value n (bcReadBit_rem h8)]

theorem bcRead_lt : ∀ (n : Nat) (s : State), (bcRead n s).1 < 2 ^ n
  | 0, _ => Nat.one_pos
  | n + 1, s => by
    have hb := (bcReadBit s).1.toNat_le
    have ih := bcRead_lt n (bcReadBit s).2
    rw [bcRead_succ, pow_succ]
    dsimp only
    nlinarith

/-! ## The state after a read in closed form

The three things a bit read can do, and the three forms of `cursorAfter`, in terms of the number `p` of bytes pulled and
the number `k` of bits left in the buffer. -/

/-- `s` with `n` more bits consumed (R131 to R133); `bcRead_state` says that a read leaves just this. -/
def afterBits (n : Nat) (s : State) : State :=
  { s with bcu := cursorAfter n s, diag := s.diag ||| readDiag n s }

theorem bcReadBit_buffered {s : State} (h : s.bcu.rem ≠ 0) :
    (bcReadBit s).2 = { s with bcu := { s.bcu with buf := s.bcu.buf >>> 1, rem := s.bcu.rem - 1 } } := by
  rw [bcReadBit, if_neg h]
  rfl

/-- A bit read that pulls the byte at logical index `q`. -/
theorem bcReadBit_pulled {s : State} {q : Nat} (hr : s.bcu.rem = 0) (hp : s.bcu.pos = (q : Int) + 1) :
    (bcReadBit s).2 =
      { s with
        bcu := { s.bcu with pos := q, buf := rangeByte s q >>> 1, rem := 7, sum := s.bcu.sum ^^^ rangeByte s q }
        diag := s.diag ||| flagIf (decide ((s.archLen : Int) ≤ s.bcu.base + q)) .oorRead } := by
  have hq : s.bcu.pos - 1 = (q : Int) := by omega
  rw [bcReadBit, if_pos hr, bcPull_some (by omega), hq]
  by_cases hin : (s.archLen : Int) ≤ s.bcu.base + q
  · simp [readArchive_outside (.inr hin), rangeByte, flagIf, hin, bcTakeBit, diag]
  · have hread := readArchive_inside (a := (s.bcu.base : Int) + q) (s := s) (by omega) (by omega)
    simp [hread, rangeByte, flagIf, hin, bcTakeBit]

theorem bcReadBit_underrun {s : State} (hr : s.bcu.rem = 0) (hp : s.bcu.pos ≤ 0) : (bcReadBit s).2 = bcUnderrun s := by
  rw [bcReadBit, if_pos hr, bcPull_none hp]

theorem cursorAfter_buffered {n : Nat} {s : State} (h : n ≤ s.bcu.rem) :
    cursorAfter n s = { s.bcu with buf := s.bcu.buf >>> n, rem := s.bcu.rem - n } :=
  if_pos h

theorem cursorAfter_pulled {n p k : Nat} {s : State} (hn : n + k = s.bcu.rem + 8 * p) (hk : k < 8) (hp : 1 ≤ p)
    (hpos : p ≤ s.bcu.pos.toNat) :
    cursorAfter n s =
      { s.bcu with
        pos := ((s.bcu.pos.toNat - p : Nat) : Int), buf := rangeByte s (s.bcu.pos.toNat - p) >>> (8 - k), rem := k
        sum := s.bcu.sum ^^^ sumOfRange s (s.bcu.pos.toNat - p) p } := by
  have hpulls : pullsFor n s = p := by unfold pullsFor; omega
  have hleft : 8 * p - (n - s.bcu.rem) = k := by omega
  rw [cursorAfter, hpulls, if_neg (by omega), if_pos hpos, hleft]

theorem cursorAfter_exhausted {n : Nat} {s : State} (h : s.bcu.rem + 8 * s.bcu.pos.toNat < n) :
    cursorAfter n s =
      { s.bcu with pos := -1, buf := 0, rem := 0, sum := s.bcu.sum ^^^ sumOfRange s 0 s.bcu.pos.toNat } := by
  have hpulls : ¬ pullsFor n s ≤ s.bcu.pos.toNat := by unfold pullsFor; omega
  rw [cursorAfter, if_neg (by omega), if_neg hpulls]

/-- The cursor with its buffer empty and a byte below: the next bit pulls. -/
theorem cursorAfter_boundary {n p : Nat} {s : State} (hn : n = s.bcu.rem + 8 * p) (hpos : p < s.bcu.pos.toNat) :
    ∃ buf, cursorAfter n s =
      { s.bcu with
        pos := ((s.bcu.pos.toNat - p : Nat) : Int), buf := buf, rem := 0
        sum := s.bcu.sum ^^^ sumOfRange s (s.bcu.pos.toNat - p) p } := by
  rcases Nat.eq_zero_or_pos p with rfl | hp
  · have hposEq : ((s.bcu.pos.toNat - 0 : Nat) : Int) = s.bcu.pos := by omega
    refine ⟨s.bcu.buf >>> n, ?_⟩
    rw [cursorAfter_buffered (by omega), hposEq]
    simp [sumOfRange, hn]
  · exact ⟨_, cursorAfter_pulled (k := 0) (by omega) (by omega) hp hpos.le⟩

/-- The cursor with nothing left: the next bit is an underrun. -/
theorem cursorAfter_spent {n : Nat} {s : State} (h : s.bcu.rem + 8 * s.bcu.pos.toNat ≤ n) :
    ∃ pos buf, pos ≤ 0 ∧ cursorAfter n s =
      { s.bcu with pos := pos, buf := buf, rem := 0, sum := s.bcu.sum ^^^ sumOfRange s 0 s.bcu.pos.toNat } := by
  rcases h.lt_or_eq with hlt | heq
  · exact ⟨-1, 0, by decide, cursorAfter_exhausted hlt⟩
  rcases Nat.eq_zero_or_pos s.bcu.pos.toNat with hz | hp
  · refine ⟨s.bcu.pos, s.bcu.buf >>> n, by omega, ?_⟩
    rw [cursorAfter_buffered (by omega)]
    simp [sumOfRange, hz, ← heq]
  · have hpulled := cursorAfter_pulled (s := s) (n := n) (k := 0) (by omega) (by omega) hp le_rfl
    rw [Nat.sub_self] at hpulled
    exact ⟨_, _, le_rfl, hpulled⟩

theorem cursorAfter_base (n : Nat) (s : State) : (cursorAfter n s).base = s.bcu.base := by
  unfold cursorAfter
  split_ifs <;> rfl

/-! ### The diagnostics of a read -/

theorem flagIf_or (a b : Bool) (f : DiagFlag) : flagIf a f ||| flagIf b f = flagIf (a || b) f := by
  cases a <;> cases b <;> simp [flagIf]

/-- A bit that is there raises nothing, but for the first one past the buffer, which pulls. -/
theorem readDiag_succ_buffered {n : Nat} {s : State} (hleft : n + 1 ≤ s.bcu.rem + 8 * s.bcu.pos.toNat)
    (hfirst : n ≠ s.bcu.rem) : readDiag (n + 1) s = readDiag n s := by
  unfold readDiag bitsLeft
  congr 3 <;> exact propext (by omega)

/-- The pull at logical index `q` raises OOR_READ when its byte lies beyond the archive, as then every pull before it
did. -/
theorem readDiag_succ_pulled {n p q : Nat} {s : State} (hn : n = s.bcu.rem + 8 * p) (hq : s.bcu.pos.toNat - p = q + 1) :
    readDiag n s ||| flagIf (decide ((s.archLen : Int) ≤ s.bcu.base + q)) .oorRead = readDiag (n + 1) s := by
  unfold readDiag bitsLeft
  rw [BitVec.or_assoc, BitVec.or_comm (flagIf _ .bitUnderrun), ← BitVec.or_assoc, flagIf_or, ← Bool.decide_or]
  congr 3 <;> exact propext (by omega)

/-- An underrun raises BIT_UNDERRUN. -/
theorem readDiag_succ_underrun {n : Nat} {s : State} (hn : s.bcu.rem + 8 * s.bcu.pos.toNat ≤ n) :
    readDiag n s ||| DiagFlag.bitUnderrun.mask = readDiag (n + 1) s := by
  have hmask : DiagFlag.bitUnderrun.mask = flagIf (decide (s.bcu.rem + 8 * s.bcu.pos.toNat ≤ n)) .bitUnderrun := by
    simp [flagIf, hn]
  unfold readDiag bitsLeft
  rw [hmask, BitVec.or_assoc, flagIf_or, ← Bool.decide_or]
  congr 3 <;> exact propext (by omega)

/-! ### One bit more -/

theorem afterBits_zero (s : State) : afterBits 0 s = s := by
  have hdiag : readDiag 0 s = 0 := by simp [readDiag, flagIf]
  rw [afterBits, cursorAfter_buffered (Nat.zero_le _), hdiag]
  simp

/-- The bytes of the range are the same wherever the cursor stands. -/
theorem rangeByte_afterBits (n : Nat) (s : State) (p : Nat) : rangeByte (afterBits n s) p = rangeByte s p := by
  have hbase : (afterBits n s).bcu.base = s.bcu.base := cursorAfter_base n s
  rw [rangeByte, rangeByte, hbase]
  exact readArchive_value (s := s) (t := afterBits n s) rfl rfl _

theorem bcReadBit_afterBits_buffered {n p k : Nat} {s : State} (hn : n + k + 1 = s.bcu.rem + 8 * p) (hk : k < 7)
    (hp : 1 ≤ p) (hpos : p ≤ s.bcu.pos.toNat) : (bcReadBit (afterBits n s)).2 = afterBits (n + 1) s := by
  have hbefore := cursorAfter_pulled (s := s) (n := n) (k := k + 1) hn (by omega) hp hpos
  have hafter := cursorAfter_pulled (s := s) (n := n + 1) (k := k) (by omega) (by omega) hp hpos
  have hshift : 8 - (k + 1) + 1 = 8 - k := by omega
  rw [bcReadBit_buffered (by rw [afterBits, hbefore]; exact Nat.succ_ne_zero k)]
  simp only [afterBits, hbefore, hafter, ← BitVec.shiftRight_add, hshift, Nat.add_sub_cancel,
    readDiag_succ_buffered (show n + 1 ≤ s.bcu.rem + 8 * s.bcu.pos.toNat by omega) (by omega)]

theorem bcReadBit_afterBits_pulled {n p q : Nat} {s : State} (hn : n = s.bcu.rem + 8 * p)
    (hq : s.bcu.pos.toNat - p = q + 1) : (bcReadBit (afterBits n s)).2 = afterBits (n + 1) s := by
  obtain ⟨buf, hbefore⟩ := cursorAfter_boundary hn (by omega)
  have hafter := cursorAfter_pulled (s := s) (n := n + 1) (p := p + 1) (k := 7) (by omega) (by omega) (by omega)
    (by omega)
  have hq' : s.bcu.pos.toNat - (p + 1) = q := by omega
  rw [bcReadBit_pulled (q := q) (by rw [afterBits, hbefore]) (by rw [afterBits, hbefore, hq]; rfl), rangeByte_afterBits]
  have hsum : sumOfRange s q (p + 1) = sumOfRange s (q + 1) p ^^^ rangeByte s q := BitVec.xor_comm _ _
  simp only [afterBits, hbefore, hafter, hq, hq', hsum, BitVec.xor_assoc, BitVec.or_assoc, readDiag_succ_pulled hn hq]

theorem bcReadBit_afterBits_underrun {n : Nat} {s : State} (hn : s.bcu.rem + 8 * s.bcu.pos.toNat ≤ n) :
    (bcReadBit (afterBits n s)).2 = afterBits (n + 1) s := by
  obtain ⟨pos, buf, hpos, hbefore⟩ := cursorAfter_spent hn
  have hafter := cursorAfter_exhausted (s := s) (n := n + 1) (by omega)
  rw [bcReadBit_underrun (by rw [afterBits, hbefore]) (by rw [afterBits, hbefore]; exact hpos)]
  simp only [bcUnderrun, diag, afterBits, hbefore, hafter, BitVec.or_assoc, readDiag_succ_underrun hn]

/-- One bit more than `n` is `n + 1` bits: the bit comes from the buffer as it stood, from a byte pulled since, from a
byte pulled for it, or from nowhere. -/
theorem bcReadBit_afterBits (n : Nat) (s : State) : (bcReadBit (afterBits n s)).2 = afterBits (n + 1) s := by
  by_cases hbuf : n + 1 ≤ s.bcu.rem
  · rw [bcReadBit_buffered (by rw [afterBits, cursorAfter_buffered (by omega)]; dsimp only; omega)]
    simp only [afterBits, cursorAfter_buffered hbuf, cursorAfter_buffered (Nat.le_of_succ_le hbuf),
      ← BitVec.shiftRight_add, readDiag_succ_buffered (n := n) (s := s) (by omega) (by omega), Nat.sub_sub]
  by_cases hspent : s.bcu.rem + 8 * s.bcu.pos.toNat ≤ n
  · exact bcReadBit_afterBits_underrun hspent
  obtain ⟨p, k, hn, hk⟩ : ∃ p k, n + k = s.bcu.rem + 8 * p ∧ k < 8 :=
    ⟨(n - s.bcu.rem + 7) / 8, 8 * ((n - s.bcu.rem + 7) / 8) - (n - s.bcu.rem), by omega, by omega⟩
  cases k with
  | zero => exact bcReadBit_afterBits_pulled (q := s.bcu.pos.toNat - p - 1) hn (by omega)
  | succ k => exact bcReadBit_afterBits_buffered hn (by omega) (by omega) (by omega)

/-- What a read leaves. -/
theorem bcRead_state : ∀ (n : Nat) (s : State), (bcRead n s).2 = afterBits n s
  | 0, s => (afterBits_zero s).symm
  | n + 1, s => by rw [bcRead_add, bcRead_one, bcRead_state n s, bcReadBit_afterBits]

/-- A read in closed form (R132, R133, R281, R282). -/
theorem bcRead_eq {s : State} (h8 : s.bcu.rem ≤ 8) (n : Nat) : bcRead n s = (bitsToNat (nextBits n s), afterBits n s) :=
  Prod.ext (bcRead_value n h8) (bcRead_state n s)

/-! ## The fetch -/

/-- The bit cursor went from `a` to `b` over the bits `xs`: one read of as many bits gives their number. -/
def CursorTook (xs : List Bool) (a b : State) : Prop := bcRead xs.length a = (bitsToNat xs, b)

theorem CursorTook.trans {xs ys : List Bool} {a b c : State} (h : CursorTook xs a b) (k : CursorTook ys b c) :
    CursorTook (xs ++ ys) a c := by
  unfold CursorTook at *
  rw [List.length_append, bcRead_add, h, k, bitsToNat_append]

theorem cursorTook_bcRead (n : Nat) (s : State) : CursorTook (natToBits n (bcRead n s).1) s (bcRead n s).2 := by
  rw [CursorTook, natToBits_length, bitsToNat_natToBits (bcRead_lt n s)]

/-- The fetch of a token is one read of its header (R121, R171). -/
theorem cursorTook_fetchToken (s : State) : CursorTook (encodeToken (fetchToken s).1) s (fetchToken s).2 :=
  decodeTokenWith_consumes CursorTook.trans bcRead_lt cursorTook_bcRead s

/-- Settles O8: the header that the fetch consumed stands at the front of the next 23 bits, so the decoder of bit lists
finds it there. -/
theorem fetchReadsTheStream : Obligations.FetchReadsTheStream := by
  intro s h8
  have htook := cursorTook_fetchToken s
  rcases e : fetchToken s with ⟨t, s'⟩
  rw [e, CursorTook, bcRead_eq h8, Prod.mk.injEq] at htook
  obtain ⟨hvalue, hstate⟩ := htook
  have hheader : nextBits (encodeToken t).length s = encodeToken t := bitsToNat_inj (nextBits_length _ s) hvalue
  refine ⟨t, (nextBits 23 s).drop (encodeToken t).length, decodeToken_eq_ok.mpr ?_, Prod.ext rfl hstate.symm⟩
  rw [← nextBits_take (encodeToken_length_le t)] at hheader
  nth_rw 1 [← hheader]
  exact List.take_append_drop _ _

end Sys2Proof.Machine

/-! PROOFS. The statements of 40_bitcursor.md: construction, one bit, a read, the order of the stream, the checksum, and
the two packings as streams. The closed form of a read (`bcRead_eq`) and the stream that a bit is taken from
(`bcReadBit_stream`) stand above. -/

namespace Sys2Proof.Machine

/-! ## Construction (R130, R236) -/

/-- What an archive read adds to DIAG (R61, R281). -/
theorem readArchive_diag (a : Int) (s : State) :
    (readArchive a s).2.diag = s.diag ||| flagIf (decide (¬ (0 ≤ a ∧ a < (s.archLen : Int)))) .oorRead := by
  by_cases h : 0 ≤ a ∧ a < (s.archLen : Int)
  · rw [readArchive_inside h.1 h.2]
    simp [flagIf, h]
  · rw [readArchive_outside (by omega)]
    simp only [flagIf, h, not_false_eq_true, decide_true, if_true, diag_diag]

/-- DIAG with a flag raised under a condition, as the closed forms write it. -/
theorem ite_or_mask (p : Prop) [Decidable p] (d : BitVec 16) (f : DiagFlag) :
    (if p then d ||| f.mask else d) = d ||| flagIf (decide p) f := by
  by_cases h : p <;> simp [flagIf, h]

theorem diag_if_raised (p : Prop) [Decidable p] (f : DiagFlag) (s : State) :
    (if p then diag f s else s).diag = s.diag ||| flagIf (decide p) f := by
  rw [← ite_or_mask]
  split <;> rfl

/-- BC.INIT over a range with a last byte, with its diagnostics in closed form (R130). -/
theorem bcConstruct_primed {start len : Nat} (h : 1 ≤ len) (count : Nat) (s : State) :
    bcConstruct start len count s =
      { s with
        bcu := { base := start, len := len, pos := (len : Int) - 1
                 buf := (readArchive (start + len - 1 : Nat) s).1, rem := min count 8
                 sum := (readArchive (start + len - 1 : Nat) s).1 }
        diag := s.diag ||| flagIf (decide (count < 1 ∨ 8 < count)) .initlenRange
                  ||| flagIf (decide (s.archLen < start + len)) .oorRead } := by
  have hlast : (start : Int) + ((len : Int) - 1) = ((start + len - 1 : Nat) : Int) := by omega
  have harch : (if count < 1 ∨ 8 < count then diag .initlenRange s else s).archLen = s.archLen := by split <;> rfl
  have hbeyond : (¬ (0 ≤ ((start + len - 1 : Nat) : Int) ∧ ((start + len - 1 : Nat) : Int) < (s.archLen : Int))) ↔
      s.archLen < start + len := by omega
  rw [bcConstruct_prime (by omega), hlast, readArchive_diag, harch, diag_if_raised]
  simp only [hbeyond]

/-- The cursor BC.INIT primes, by the index of its byte. -/
theorem bcConstruct_bcu {len : Nat} (h : 1 ≤ len) (start count : Nat) (s : State) :
    (bcConstruct start len count s).bcu =
      { base := start, len := len, pos := ((len - 1 : Nat) : Int), buf := (readArchive (start + (len - 1) : Nat) s).1
        rem := min count 8, sum := (readArchive (start + (len - 1) : Nat) s).1 } := by
  have hpos : (len : Int) - 1 = ((len - 1 : Nat) : Int) := by omega
  rw [bcConstruct_primed h, hpos, Nat.add_sub_assoc h]

theorem bcInitBadArg_eq_false {s : State} :
    bcInitBadArg s = false ↔ s.arg0.toNat < 2 ^ (s.cfg.aw + 1) ∧ s.arg1.toNat < 2 ^ s.cfg.aw := by
  rw [bcInitBadArg, Bool.or_eq_false_iff, badOffset_eq_false, badLength_eq_false]

theorem exec_bcInit_accepted {s : State} (hf : s.fault = false) (ho : s.arg0.toNat < 2 ^ (s.cfg.aw + 1))
    (hl : s.arg1.toNat < 2 ^ s.cfg.aw) :
    exec .bcInit s = .next (bcConstruct s.arg0.toNat s.arg1.toNat s.arg2.toNat s) := by
  rw [exec_bcInit, unlessFault_run hf, unlessBadArg_good (bcInitBadArg_eq_false.mpr ⟨ho, hl⟩)]

/-- Settles O17: an accepted BC_INIT is the construction, over an empty range or primed. -/
theorem bcInitEffect : Obligations.BcInitEffect := by
  refine fun s hf => ⟨fun ho hl hz => ?_, fun ho hl hpos => ?_, fun hbad => ?_⟩
  · rw [exec_bcInit_accepted hf ho hl, hz, bcConstruct_empty, ite_or_mask]
  · rw [exec_bcInit_accepted hf ho hl, bcConstruct_primed hpos]
  · have hfault : bcInitBadArg s = true := by
      rw [← Bool.not_eq_false, bcInitBadArg_eq_false]
      omega
    rw [exec_bcInit, unlessFault_run hf, unlessBadArg_bad hfault]
    rfl

/-! ## One bit (R131, R133) -/

theorem bcReadBit_exhausted {s : State} (hr : s.bcu.rem = 0) (hp : s.bcu.pos ≤ 0) :
    bcReadBit s = (false, bcUnderrun s) := by
  rw [bcReadBit, if_pos hr, bcPull_none hp]

theorem bcUnderrun_idempotent (s : State) : bcUnderrun (bcUnderrun s) = bcUnderrun s := by
  simp [bcUnderrun, diag, BitVec.or_assoc]

/-- Settles O19; the underrun repeats itself because its state underruns to itself. -/
theorem oneBitRead : Obligations.OneBitRead := by
  refine fun s => ⟨fun hr => ?_, fun hr hp => ?_, fun hr hp => ?_⟩
  · rw [bcReadBit, if_neg hr]
    rfl
  · have hframe := readArchive_cursorOnly ((s.bcu.base : Int) + (s.bcu.pos - 1)) s
    rw [bcReadBit, if_pos hr, bcPull_some hp, hframe]
    rfl
  · rw [bcReadBit_exhausted hr hp]
    refine ⟨rfl, ?_⟩
    rw [bcReadBit_exhausted (s := bcUnderrun s) hr (by simp), bcUnderrun_idempotent]

/-! ## Reads (R132, R136, R137, R237) -/

theorem badBitCount_eq_false {n : Nat} : badBitCount n = false ↔ 1 ≤ n ∧ n ≤ 32 := by
  simp [badBitCount, Nat.one_le_iff_ne_zero]

/-- Settles O18: an accepted BC_READ is a read in closed form. -/
theorem bcReadEffect_holds : Obligations.BcReadEffect := by
  refine fun s hf h8 => ⟨fun h1 h32 => ?_, fun hbad => ?_⟩
  · rw [exec_bcRead, unlessFault_run hf, unlessBadArg_good (badBitCount_eq_false.mpr ⟨h1, h32⟩), bcReadEffect,
      bcRead_eq h8]
    rfl
  · have hfault : badBitCount s.arg0.toNat = true := by
      rw [← Bool.not_eq_false, badBitCount_eq_false]
      omega
    rw [exec_bcRead, unlessFault_run hf, unlessBadArg_bad hfault]
    rfl

/-- Settles O20, by the composition of reads that the fetch of a token rests on. -/
theorem readComposition : Obligations.ReadComposition := fun a b s => ⟨bcRead_add a b s, bcRead_lt b s⟩

@[simp] theorem bitsOfByte_length (b : Byte) : (bitsOfByte b).length = 8 := rfl

theorem rev8_toNat (b : Byte) : (rev8 b).toNat = bitsToNat (bitsOfByte b) := by
  have hlt := bitsToNat_lt (bitsOfByte b)
  rw [rev8, BitVec.toNat_ofNat, Nat.mod_eq_of_lt (by rwa [bitsOfByte_length] at hlt)]

/-- A read of eight bits takes a byte that stands whole at the front of the stream. -/
theorem bcRead_whole_byte {s : State} (h8 : s.bcu.rem ≤ 8) {b : Byte} {rest : List Bool}
    (hs : streamBits s = bitsOfByte b ++ rest) : (bcRead 8 s).1 = (rev8 b).toNat := by
  rw [bcRead_value 8 h8, nextBits, hs, List.append_assoc, List.take_left' (bitsOfByte_length b), rev8_toNat]

theorem streamBits_full {s : State} (h : s.bcu.rem = 8) :
    streamBits s = bitsOfByte s.bcu.buf ++ (bytesBelow s s.bcu.pos.toNat).flatMap bitsOfByte := by
  rw [streamBits, h, List.take_of_length_le (bitsOfByte_length _).le]

theorem streamBits_pull {s : State} {q : Nat} (hr : s.bcu.rem = 0) (hq : s.bcu.pos.toNat = q + 1) :
    streamBits s = bitsOfByte (rangeByte s q) ++ (bytesBelow s q).flatMap bitsOfByte := by
  rw [streamBits, hr, hq]
  rfl

/-- Settles O21: in both cases a whole byte stands at the front of the stream. -/
theorem byteReadReverses : Obligations.ByteReadReverses := by
  refine fun s => ⟨fun hr => ?_, fun hr hp => ?_⟩
  · exact bcRead_whole_byte hr.le (streamBits_full hr)
  · exact bcRead_whole_byte (by omega) (streamBits_pull hr (by omega))

/-! ## The order of the stream (R73) -/

theorem bytesBelow_length (s : State) : ∀ n, (bytesBelow s n).length = n
  | 0 => rfl
  | n + 1 => congrArg Nat.succ (bytesBelow_length s n)

/-- The bytes below are pulled from the highest index down. -/
theorem bytesBelow_getElem? (s : State) : ∀ {n k : Nat}, k < n → (bytesBelow s n)[k]? = some (rangeByte s (n - 1 - k))
  | n + 1, 0, _ => rfl
  | n + 1, k + 1, h => by
    have hindex : n + 1 - 1 - (k + 1) = n - 1 - k := by omega
    rw [bytesBelow, List.getElem?_cons_succ, bytesBelow_getElem? s (Nat.lt_of_succ_lt_succ h), hindex]

theorem bitsOfByte_getElem? (b : Byte) {k : Nat} (h : k < 8) : (bitsOfByte b)[k]? = some (b.getLsbD k) := by
  interval_cases k <;> rfl

theorem flatMap_bitsOfByte_length (bs : List Byte) : (bs.flatMap bitsOfByte).length = 8 * bs.length := by
  simp [List.length_flatMap, Nat.mul_comm]

/-- Bit `k` of a byte sequence is bit `k % 8` of byte `k / 8`. -/
theorem flatMap_bitsOfByte_getElem? : ∀ (bs : List Byte) (k : Nat),
    (bs.flatMap bitsOfByte)[k]? = bs[k / 8]?.map fun b => b.getLsbD (k % 8)
  | [], _ => rfl
  | b :: bs, k => by
    rw [List.flatMap_cons]
    by_cases h : k < 8
    · rw [List.getElem?_append_left h, bitsOfByte_getElem? b h, Nat.div_eq_of_lt h, Nat.mod_eq_of_lt h]
      rfl
    · have hdiv : k / 8 = (k - 8) / 8 + 1 := by omega
      have hmod : k % 8 = (k - 8) % 8 := by omega
      rw [List.getElem?_append_right (Nat.le_of_not_lt h), bitsOfByte_length, flatMap_bitsOfByte_getElem? bs, hdiv,
        hmod]
      rfl

/-- The stream of a freshly primed cursor: the low bits of the last byte, then the bytes below. -/
theorem streamBits_primed {len : Nat} (h : 1 ≤ len) (start count : Nat) (s : State) :
    streamBits (bcConstruct start len count s) =
      (bitsOfByte (readArchive (start + (len - 1) : Nat) s).1).take (min count 8) ++
        (bytesBelow (bcConstruct start len count s) (len - 1)).flatMap bitsOfByte := by
  rw [streamBits, bcConstruct_bcu h, Int.toNat_natCast]

theorem rangeByte_bcConstruct {len : Nat} (h : 1 ≤ len) (start count p : Nat) (s : State) :
    rangeByte (bcConstruct start len count s) p = (readArchive (start + p : Nat) s).1 := by
  have hframe := (bcConstruct_cursorOnly start len count s).datapath
  rw [rangeByte, readArchive_value hframe.amem hframe.archLen, bcConstruct_bcu h]
  rfl

theorem streamBits_primed_length {len : Nat} (h : 1 ≤ len) (start count : Nat) (s : State) :
    (streamBits (bcConstruct start len count s)).length = min count 8 + 8 * (len - 1) := by
  rw [streamBits_primed h, List.length_append, List.length_take, bitsOfByte_length, flatMap_bitsOfByte_length,
    bytesBelow_length, min_assoc, min_self]

theorem streamBits_empty_range (start count : Nat) (s : State) : streamBits (bcConstruct start 0 count s) = [] := by
  rw [bcConstruct_empty]
  rfl

/-- One bit read drops one bit of the stream. -/
theorem streamBits_bcReadBit {s : State} (h8 : s.bcu.rem ≤ 8) : streamBits (bcReadBit s).2 = (streamBits s).drop 1 := by
  have hbit := bcReadBit_stream h8
  cases hs : streamBits s <;> rw [hs] at hbit <;> exact hbit.2

/-- A read drops as many bits as it has; past the end nothing is left to drop. -/
theorem streamBits_bcRead : ∀ (n : Nat) {s : State}, s.bcu.rem ≤ 8 → streamBits (bcRead n s).2 = (streamBits s).drop n
  | 0, _, _ => rfl
  | n + 1, s, h8 => by
    rw [bcRead_succ, streamBits_bcRead n (bcReadBit_rem h8), streamBits_bcReadBit h8, List.drop_drop, Nat.add_comm]

/-- Settles O22: an index of the stream lies in the primed byte's bits or in those of the bytes below. -/
theorem streamOrder : Obligations.StreamOrder := by
  refine ⟨fun start len count s hlen =>
      ⟨streamBits_primed_length hlen start count s, fun k hk => ?_, fun k hlow hk => ?_⟩,
    streamBits_empty_range, fun n s => streamBits_bcRead n⟩
  · have htake : k < ((bitsOfByte (readArchive (start + (len - 1) : Nat) s).1).take (min count 8)).length := by
      rw [List.length_take, bitsOfByte_length]; omega
    rw [streamBits_primed hlen, List.getElem?_append_left htake, List.getElem?_take_of_lt hk,
      bitsOfByte_getElem? _ (by omega)]
  · have htake :
        ((bitsOfByte (readArchive (start + (len - 1) : Nat) s).1).take (min count 8)).length = min count 8 := by
      rw [List.length_take, bitsOfByte_length]; omega
    have hindex : len - 1 - 1 - (k - min count 8) / 8 = len - 2 - (k - min count 8) / 8 := by omega
    rw [streamBits_primed hlen, List.getElem?_append_right (by rwa [htake]), htake, flatMap_bitsOfByte_getElem?,
      bytesBelow_getElem? _ (by omega), hindex, rangeByte_bcConstruct hlen]
    rfl

/-! ## The checksum (R135) -/

/-- The checksum law with the bound of R27 under which a pull keeps it: the cursor stands inside its range. -/
structure SumOk (s : State) : Prop where
  law : checksumLaw s = true
  inRange : s.bcu.pos + 1 ≤ (s.bcu.len : Int)

theorem checksumLaw_iff {s : State} :
    checksumLaw s = true ↔ s.bcu.sum = sumOfRange s s.bcu.pos.toNat (s.bcu.len - s.bcu.pos.toNat) := by
  rw [checksumLaw, beq_iff_eq]

/-- The sum over a range depends only on the archive and the range's base. -/
theorem sumOfRange_congr {s t : State} (hb : t.bcu.base = s.bcu.base) (hm : t.amem = s.amem)
    (hl : t.archLen = s.archLen) : ∀ n lo, sumOfRange t lo n = sumOfRange s lo n
  | 0, _ => rfl
  | n + 1, lo => by
    simp only [sumOfRange, hb, readArchive_value hm hl, sumOfRange_congr hb hm hl n]

theorem sumOfRange_one (s : State) (p : Nat) : sumOfRange s p 1 = rangeByte s p := BitVec.xor_zero

/-- The law of a state with the archive and the range's base of `s`, told by the bytes of `s`. -/
theorem checksumLaw_of_sum {s t : State} (hb : t.bcu.base = s.bcu.base) (hm : t.amem = s.amem)
    (hl : t.archLen = s.archLen) (hsum : t.bcu.sum = sumOfRange s t.bcu.pos.toNat (t.bcu.len - t.bcu.pos.toNat)) :
    checksumLaw t = true := by
  rw [checksumLaw_iff, hsum, sumOfRange_congr hb hm hl]

/-- The law speaks of the cursor and the archive only. -/
theorem SumOk.sameCursor {s t : State} (h : SumOk s) (hframe : DatapathOnly s t) (hb : t.bcu = s.bcu) : SumOk t := by
  refine ⟨checksumLaw_of_sum (s := s) (by rw [hb]) hframe.amem hframe.archLen ?_, by rw [hb]; exact h.inRange⟩
  rw [hb]
  exact checksumLaw_iff.mp h.law

/-- BC.INIT establishes it: nothing is pulled over an empty range, else the last byte (R130). -/
theorem SumOk.bcConstruct (start len count : Nat) (s : State) : SumOk (bcConstruct start len count s) := by
  rcases Nat.eq_zero_or_pos len with rfl | hlen
  · rw [bcConstruct_empty]
    exact ⟨rfl, by simp⟩
  · have hone : len - (len - 1) = 1 := by omega
    have hbcu := bcConstruct_bcu hlen start count s
    refine ⟨checksumLaw_iff.mpr ?_, by rw [hbcu]; dsimp only; omega⟩
    simp only [hbcu, Int.toNat_natCast, hone, sumOfRange_one, rangeByte_bcConstruct hlen]

/-- A bit read pulls at most one byte, and folds it in (R131, R133). -/
theorem SumOk.bcReadBit {s : State} (h : SumOk s) : SumOk (bcReadBit s).2 := by
  have hlaw := checksumLaw_iff.mp h.law
  have hin := h.inRange
  by_cases hr : s.bcu.rem = 0
  · by_cases hp : s.bcu.pos ≤ 0
    · have hpos : s.bcu.pos.toNat = (-1 : Int).toNat := by omega
      rw [hpos] at hlaw
      rw [bcReadBit_underrun hr hp]
      exact ⟨checksumLaw_of_sum (s := s) rfl rfl rfl hlaw, by simp⟩
    · obtain ⟨q, hq⟩ : ∃ q : Nat, s.bcu.pos = (q : Int) + 1 := ⟨s.bcu.pos.toNat - 1, by omega⟩
      have hpos : s.bcu.pos.toNat = q + 1 := by omega
      have hcount : s.bcu.len - q = s.bcu.len - (q + 1) + 1 := by omega
      rw [bcReadBit_pulled hr hq]
      refine ⟨checksumLaw_of_sum (s := s) rfl rfl rfl ?_, by dsimp only; omega⟩
      dsimp only
      rw [hlaw, hpos, Int.toNat_natCast, hcount, sumOfRange, BitVec.xor_comm]
      rfl
  · rw [bcReadBit_buffered hr]
    exact ⟨checksumLaw_of_sum (s := s) rfl rfl rfl hlaw, hin⟩

theorem SumOk.bcRead : ∀ (n : Nat) {s : State}, SumOk s → SumOk (bcRead n s).2
  | 0, _, h => h
  | n + 1, _, h => by
    rw [bcRead_succ]
    exact SumOk.bcRead n h.bcReadBit

theorem SumOk.fetchToken {s : State} (h : SumOk s) : SumOk (fetchToken s).2 :=
  decodeTokenWith_induct (R := fun s t => SumOk s → SumOk t) (fun hab hbc ha => hbc (hab ha))
    (fun n _ hs => hs.bcRead n) s h

theorem SumOk.rawByte {s : State} (h : SumOk s) : SumOk (rawByte s) := by
  have hread := (h.sameCursor (oaRetreat_datapathOnly s) rfl).bcRead 8
  rw [rawByte_eq]
  exact hread.sameCursor (writeOutput_datapathOnly _ _ _) (writeOutput_bcu _ _ _)

theorem SumOk.rawBytes : ∀ (n : Nat) {s : State}, SumOk s → SumOk (rawBytes n s)
  | 0, _, h => h
  | n + 1, _, h => SumOk.rawBytes n h.rawByte

theorem SumOk.copyRaw {s : State} (h : SumOk s) (n : Nat) : SumOk (copyRaw n s) := by
  unfold Machine.copyRaw
  split
  · exact SumOk.rawBytes _ (h.sameCursor (diag_cursorOnly _ s).datapath rfl)
  · exact SumOk.rawBytes n h

theorem refByte_bcu (offset : Nat) (s : State) : (refByte offset s).bcu = s.bcu := by
  rw [refByte_eq]
  split <;> rfl

theorem refBytes_bcu (offset : Nat) : ∀ (n : Nat) (s : State), (refBytes offset n s).bcu = s.bcu
  | 0, _ => rfl
  | n + 1, s => (refBytes_bcu offset n _).trans (refByte_bcu offset s)

/-- A back-reference copy reads no bit once its offset is read (R152). -/
theorem copyRef_bcu (n offset : Nat) (s : State) : (copyRef n offset s).bcu = s.bcu := by
  unfold copyRef
  split <;> exact refBytes_bcu _ _ _

theorem SumOk.copyRef {s : State} (h : SumOk s) (n offset : Nat) : SumOk (copyRef n offset s) :=
  h.sameCursor (copyRef_datapathOnly n offset s) (copyRef_bcu n offset s)

theorem SumOk.copyBackReference {s : State} (h : SumOk s) (n w : Nat) : SumOk (copyBackReference n w s) := by
  rw [copyBackReference_eq]
  exact (h.bcRead w).copyRef _ _

theorem SumOk.runToken {s : State} (h : SumOk s) (t : Token) : SumOk (runToken t s) := by
  cases t with
  | sraw l => exact h.copyRaw _
  | sref o => exact h.copyRef _ _
  | refa o => exact h.copyRef _ _
  | refb o => exact h.copyRef _ _
  | refc l o => exact h.copyRef _ _
  | lraw l => exact h.copyRaw _

theorem SumOk.decodeOneToken {s : State} (h : SumOk s) : SumOk (decodeOneToken s) := by
  rw [decodeOneToken_eq]
  exact h.fetchToken.runToken _

theorem checksumLaw_verifyChecksum {s : State} (h : SumOk s) (x : Byte) : checksumLaw (verifyChecksum x s) = true := by
  rw [verifyChecksum_frame]
  exact checksumLaw_of_sum (s := s) rfl rfl rfl (checksumLaw_iff.mp h.law)

theorem SumOk.constructUnits (o c d b : Nat) (s : State) : SumOk (constructUnits o c d b s) :=
  (SumOk.bcConstruct o c b s).sameCursor (oaConstruct_datapathOnly d _) rfl

theorem checksumLaw_segDecode (o c d : Nat) (x : Byte) (b : Nat) (s : State) :
    checksumLaw (segDecode o c d x b s) = true := by
  rw [segDecode_eq]
  exact checksumLaw_verifyChecksum
    (tduLoop_induct (fun _ h => h.decodeOneToken) d (SumOk.constructUnits o c d b s)) x

/-- Settles O23: BC.INIT establishes `SumOk`, and every operation keeps it. -/
theorem checksumLaw_holds : Obligations.ChecksumLaw := by
  refine ⟨fun start len count s => (SumOk.bcConstruct start len count s).law, fun s hlaw hin => ?_,
    checksumLaw_segDecode⟩
  have h : SumOk s := ⟨hlaw, hin⟩
  exact ⟨fun n => (h.bcRead n).law, fun n => (h.copyRaw n).law, fun n w => (h.copyBackReference n w).law,
    h.decodeOneToken.law⟩

/-! ## Packings as streams (R120, R264) -/

/-- Bit `i` of a packed number is the `i`-th of its bits, 0 past the last. -/
theorem packByte_testBit : ∀ (bs : List Bool) (i : Nat), (packByte bs).testBit i = bs[i]?.getD false
  | [], i => Nat.zero_testBit i
  | b :: bs, 0 => by cases b <;> simp [packByte]
  | b :: bs, i + 1 => by
    have hhalf : packByte (b :: bs) / 2 = packByte bs := by
      rw [packByte, Nat.add_mul_div_left _ _ Nat.two_pos, Nat.div_eq_of_lt (Nat.lt_succ_of_le b.toNat_le), Nat.zero_add]
    rw [Nat.testBit_succ, hhalf, packByte_testBit bs i]
    rfl

/-- The number packed from at most eight bits fits a byte, which delivers them and then zeros. -/
theorem bitsOfByte_packByte {bs : List Bool} (h : bs.length ≤ 8) :
    bitsOfByte (BitVec.ofNat 8 (packByte bs)) = bs ++ List.replicate (8 - bs.length) false := by
  refine List.ext_getElem? fun i => ?_
  by_cases hi : i < 8
  · rw [bitsOfByte_getElem? _ hi, BitVec.getLsbD_ofNat, packByte_testBit]
    simp only [hi, decide_true, Bool.true_and]
    by_cases hb : i < bs.length
    · rw [List.getElem?_append_left hb, List.getElem?_eq_getElem hb]
      rfl
    · rw [List.getElem?_append_right (by omega), List.getElem?_replicate_of_lt (by omega),
        List.getElem?_eq_none (by omega)]
      rfl
  · rw [List.getElem?_eq_none (by simpa using hi), List.getElem?_eq_none (by simp; omega)]

/-- Packed bytes deliver their bits and then zeros up to the end of the last byte. -/
theorem flatMap_packBytes : ∀ (n : Nat) {bs : List Bool}, bs.length ≤ 8 * n →
    (packBytes n bs).flatMap bitsOfByte = bs ++ List.replicate (8 * n - bs.length) false
  | 0, bs, h => by
    have hnil : bs = [] := List.length_eq_zero_iff.mp (by omega)
    rw [hnil]
    rfl
  | n + 1, bs, h => by
    have hrest : (bs.drop 8).length ≤ 8 * n := by rw [List.length_drop]; omega
    rw [packBytes, List.flatMap_cons, bitsOfByte_packByte (by simp), flatMap_packBytes n hrest]
    by_cases h8 : bs.length ≤ 8
    · have hzeros : 8 - bs.length + 8 * n = 8 * (n + 1) - bs.length := by omega
      rw [List.take_of_length_le h8, List.drop_of_length_le h8, List.nil_append, List.append_assoc,
        List.replicate_append_replicate, List.length_nil, Nat.sub_zero, hzeros]
    · have htake : (bs.take 8).length = 8 := by rw [List.length_take]; omega
      have hzeros : 8 * n - (bs.length - 8) = 8 * (n + 1) - bs.length := by omega
      rw [htake, Nat.sub_self, List.replicate_zero, List.append_nil, List.length_drop, hzeros, ← List.append_assoc,
        List.take_append_drop]

/-- The byte at an index of a range whose archive bytes are given. -/
theorem readArchive_holds {s : State} {base p : Nat} {bytes : List Byte} (h : Holds s base bytes)
    (hp : p < bytes.length) : (readArchive (base + p : Nat) s).1 = bytes[p] := by
  obtain ⟨hin, hbytes⟩ := h
  rw [readArchive_inside (by omega) (by omega)]
  exact hbytes p hp

/-- The bytes below an index of such a range, next one first. -/
theorem bytesBelow_holds {s t : State} {bytes : List Byte} (h : Holds s t.bcu.base bytes)
    (hframe : DatapathOnly s t) : ∀ {n : Nat}, n ≤ bytes.length → bytesBelow t n = (bytes.take n).reverse
  | 0, _ => rfl
  | n + 1, hn => by
    rw [bytesBelow, ← Int.natCast_add, readArchive_value hframe.amem hframe.archLen, readArchive_holds h hn,
      bytesBelow_holds h hframe (Nat.le_of_succ_le hn), List.take_succ_eq_append_getElem hn, List.reverse_concat]

/-- A cursor over a payload delivers the low bits of its last byte, then the other bytes, last first (R73). -/
theorem streamBits_holds {s : State} {base : Nat} {b : Byte} {bs : List Byte} (h : Holds s base (b :: bs).reverse)
    (count : Nat) :
    streamBits (bcConstruct base (b :: bs).reverse.length count s) =
      (bitsOfByte b).take (min count 8) ++ bs.flatMap bitsOfByte := by
  have hlen : (b :: bs).reverse.length = bs.length + 1 := by simp
  have hbelow : (b :: bs).reverse.take bs.length = bs.reverse := by
    rw [List.reverse_cons, List.take_left' List.length_reverse]
  have hbase : (bcConstruct base (bs.length + 1) count s).bcu.base = base := by
    rw [bcConstruct_bcu (Nat.le_add_left 1 _)]
  rw [hlen, streamBits_primed (Nat.le_add_left 1 _), Nat.add_sub_cancel, readArchive_holds h (by simp),
    bytesBelow_holds (s := s) (bytes := (b :: bs).reverse) (by rwa [hbase]) (bcConstruct_cursorOnly _ _ _ s).datapath
      (by simp), hbelow, List.reverse_reverse]
  simp

/-- Tail-pad packing pads the byte consumed last. -/
theorem streamBits_packTail {s : State} {base : Nat} {bits : List Bool} (h : Holds s base (packTail bits)) :
    streamBits (bcConstruct base (packTail bits).length 8 s) =
      bits ++ List.replicate (8 * ((bits.length + 7) / 8) - bits.length) false := by
  rcases Nat.eq_zero_or_pos bits.length with hz | hpos
  · rw [List.length_eq_zero_iff.mp hz]
    exact streamBits_empty_range base 8 s
  · obtain ⟨n, hn⟩ : ∃ n, (bits.length + 7) / 8 = n + 1 := ⟨(bits.length + 7) / 8 - 1, by omega⟩
    have hdeliver := flatMap_packBytes (n + 1) (bs := bits) (by omega)
    rw [packTail, hn, packBytes] at h ⊢
    rw [streamBits_holds h, ← hdeliver]
    rfl

/-- The first byte of a native packing takes at most eight bits and leaves whole bytes. -/
theorem nativeCount_bounds {bits : List Bool} (h : bits.length ≠ 0) :
    nativeCount bits ≤ 8 ∧ nativeCount bits ≤ bits.length ∧
      bits.length - nativeCount bits = 8 * ((bits.length - nativeCount bits) / 8) := by
  unfold nativeCount
  split <;> omega

/-- Native packing's first byte gives its own number of bits, the others eight each, so none is a pad bit. -/
theorem streamBits_packNative {s : State} {base : Nat} {bits : List Bool} (h : Holds s base (packNative bits)) :
    streamBits (bcConstruct base (packNative bits).length (nativeCount bits) s) = bits := by
  by_cases hz : bits.length = 0
  · rw [List.length_eq_zero_iff.mp hz]
    exact streamBits_empty_range base _ s
  · obtain ⟨h8, hle, hwhole⟩ := nativeCount_bounds hz
    have hfirst : (bits.take (nativeCount bits)).length = nativeCount bits := List.length_take_of_le hle
    have hrest : (bits.drop (nativeCount bits)).length = 8 * ((bits.length - nativeCount bits) / 8) :=
      (List.length_drop ..).trans hwhole
    rw [packNative, if_neg hz] at h ⊢
    rw [streamBits_holds h, Nat.min_eq_left h8, bitsOfByte_packByte (hfirst.trans_le h8), List.take_left' hfirst,
      flatMap_packBytes _ hrest.le, hrest, Nat.sub_self, List.replicate_zero, List.append_nil, List.take_append_drop]

/-- Settles O39, packing by packing. -/
theorem packingsReplayTheirBits : Obligations.PackingsReplayTheirBits :=
  fun _ _ _ => ⟨streamBits_packTail, streamBits_packNative⟩

end Sys2Proof.Machine

/-! PROOFS. The statements of 41_output_assembler.md. What a back-reference copy stores is said once, as the recurrence in
the buffer that the copy leaves (`readOutput_copyRef`); the period of an overlap follows from it by descent. -/

namespace Sys2Proof.Machine

/-! ## The bytes of a back-reference copy (R152) -/

theorem refByte_wf {s : State} (h : s.oau.omem.wf = true) (offset : Nat) : (refByte offset s).oau.omem.wf = true := by
  rw [refByte_eq]
  split <;> exact writeOutput_wf h _ _

/-- The byte that one iteration of COPYREF stores (R152); the source is read before the store. -/
theorem readOutput_refByte {s : State} (h : s.oau.omem.wf = true) (offset i : Nat) :
    readOutput i (refByte offset s) =
      if i = s.oau.wpos - 1 then
        if i + offset < s.oau.len then readOutput (i + offset) s else 0
      else readOutput i s := by
  rw [refByte_eq]
  by_cases hi : i = s.oau.wpos - 1
  · subst hi
    rw [if_pos rfl]
    split <;> exact Eq.trans (readOutput_writeOutput h _ _ _) (if_pos rfl)
  · rw [if_neg hi]
    split <;> exact Eq.trans (readOutput_writeOutput h _ _ _) (if_neg hi)

/-- The loop of COPYREF: the bytes below the write position each equal the byte `offset` above in the buffer as the loop
leaves it, because a source above the write position is never stored again; the rest stay. -/
theorem readOutput_refBytes {offset : Nat} (hoff : 1 ≤ offset) : ∀ (n : Nat) {s : State}, s.oau.omem.wf = true →
    n ≤ s.oau.wpos → ∀ i, readOutput i (refBytes offset n s) =
      if s.oau.wpos - n ≤ i ∧ i < s.oau.wpos then
        if i + offset < s.oau.len then readOutput (i + offset) (refBytes offset n s) else 0
      else readOutput i s
  | 0, s, _, _, i => by rw [if_neg (by omega)]; rfl
  | n + 1, s, h, hn, i => by
    obtain ⟨hwpos, hlen⟩ := refByte_wpos offset s
    have ih := readOutput_refBytes hoff n (refByte_wf h offset) (by omega)
    rw [hwpos, hlen] at ih
    have hbyte := readOutput_refByte h offset
    rw [refBytes]
    by_cases hlast : i = s.oau.wpos - 1
    · have hstored : s.oau.wpos - (n + 1) ≤ i ∧ i < s.oau.wpos := by omega
      have hsource : readOutput (i + offset) (refBytes offset n (refByte offset s)) = readOutput (i + offset) s := by
        rw [ih, if_neg (by omega), hbyte, if_neg (by omega)]
      rw [ih, if_neg (by omega), hbyte, if_pos hlast, if_pos hstored, hsource]
    · by_cases hin : s.oau.wpos - 1 - n ≤ i ∧ i < s.oau.wpos - 1
      · have hstored : s.oau.wpos - (n + 1) ≤ i ∧ i < s.oau.wpos := by omega
        rw [ih, if_pos hin, if_pos hstored]
      · rw [ih, if_neg hin, hbyte, if_neg hlast, if_neg (by omega)]

/-- COPYREF is its loop over the clamped count (R152, R156). -/
theorem copyRef_eq (n offset : Nat) (s : State) :
    copyRef n offset s =
      refBytes offset (min n s.oau.wpos) (if s.oau.wpos < n then diag .refClamp s else s) := by
  unfold copyRef
  split
  · next h => rw [Nat.min_eq_right (Nat.le_of_lt h)]
  · next h => rw [Nat.min_eq_left (Nat.le_of_not_lt h)]

/-- The bytes of the output after COPYREF (R152), clamped or not. -/
theorem readOutput_copyRef {s : State} (h : s.oau.omem.wf = true) {offset : Nat} (hoff : 1 ≤ offset) (n i : Nat) :
    readOutput i (copyRef n offset s) =
      if s.oau.wpos - min n s.oau.wpos ≤ i ∧ i < s.oau.wpos then
        if i + offset < s.oau.len then readOutput (i + offset) (copyRef n offset s) else 0
      else readOutput i s := by
  rw [copyRef_eq]
  split
  · exact readOutput_refBytes hoff _ (s := diag .refClamp s) h (Nat.min_le_right _ _) i
  · exact readOutput_refBytes hoff _ h (Nat.min_le_right _ _) i

/-! ## Overlap (R154) -/

/-- A byte stored by a copy whose source starts inside the buffer equals its source in the buffer as the copy leaves it. -/
theorem readOutput_copyRef_source {s : State} (h : s.oau.omem.wf = true) {n o j : Nat}
    (hsrc : s.oau.wpos + o < s.oau.len) (hj : 1 ≤ j) (hjn : j ≤ min n s.oau.wpos) :
    readOutput (s.oau.wpos - j) (copyRef n (o + 1) s) =
      readOutput (s.oau.wpos - j + (o + 1)) (copyRef n (o + 1) s) := by
  rw [readOutput_copyRef h (Nat.le_add_left 1 o), if_pos (by omega), if_pos (by omega)]

/-- A copy leaves the bytes from the old write position on as they were. -/
theorem readOutput_copyRef_above {s : State} (h : s.oau.omem.wf = true) (n o : Nat) {i : Nat} (hi : s.oau.wpos ≤ i) :
    readOutput i (copyRef n (o + 1) s) = readOutput i s := by
  rw [readOutput_copyRef h (Nat.le_add_left 1 o), if_neg (by omega)]

/-- The period law, by descent: a byte of the first period comes from the old buffer, and every later one from the copied
byte one period earlier. -/
theorem readOutput_copyRef_periodic {s : State} (h : s.oau.omem.wf = true) {n o : Nat}
    (hsrc : s.oau.wpos + o < s.oau.len) (j : Nat) (hj : 1 ≤ j) (hjn : j ≤ min n s.oau.wpos) :
    readOutput (s.oau.wpos - j) (copyRef n (o + 1) s) =
      readOutput (s.oau.wpos + o - (j - 1) % (o + 1)) s := by
  induction j using Nat.strong_induction_on with
  | h j ih =>
    rw [readOutput_copyRef_source h hsrc hj hjn]
    by_cases hfirst : j ≤ o + 1
    · have hindex : s.oau.wpos - j + (o + 1) = s.oau.wpos + o - (j - 1) := by omega
      rw [readOutput_copyRef_above h n o (by omega), hindex, Nat.mod_eq_of_lt (by omega)]
    · have hindex : s.oau.wpos - j + (o + 1) = s.oau.wpos - (j - (o + 1)) := by omega
      have hperiod : (j - 1) % (o + 1) = (j - (o + 1) - 1) % (o + 1) := by
        rw [Nat.mod_eq_sub_mod (by omega), Nat.sub_right_comm]
      rw [hindex, hperiod, ih (j - (o + 1)) (by omega) (by omega) (by omega)]

/-- Settles O32: REFC is the copy of `l + 1` bytes from `o + 1` above. -/
theorem overlapRepeats : Obligations.OverlapRepeats :=
  fun s l o hwf hsrc => ⟨_, exec_token (.refc l o) s, readOutput_copyRef_periodic hwf hsrc⟩

end Sys2Proof.Machine

/-! PROOFS. The statements of 42_tokens.md. A token's header is one read, so a step runs it in the state that
`afterBits` says; the literals of a raw copy are further reads of the same stream, so its closed form adds up their bits.
What a decode depends on is a relation between two states (`Alike`) that every part of the decode keeps. -/

namespace Sys2Proof.Machine

/-! ## States that deliver the same stream -/

/-- `t` has the cursor of `s` and the same bytes below it: every later read gives the same. -/
structure SameStream (s t : State) : Prop where
  bcu : t.bcu = s.bcu
  archLen : t.archLen = s.archLen
  bytes : ∀ p < s.bcu.pos.toNat, rangeByte t p = rangeByte s p

/-- The archive is the same. -/
theorem SameStream.of_archive {s t : State} (hb : t.bcu = s.bcu) (hm : t.amem = s.amem) (hl : t.archLen = s.archLen) :
    SameStream s t := by
  refine ⟨hb, hl, fun p _ => ?_⟩
  rw [rangeByte, rangeByte, hb, readArchive_value hm hl]

theorem SameStream.bytesBelow {s t : State} (h : SameStream s t) :
    ∀ {n : Nat}, n ≤ s.bcu.pos.toNat → bytesBelow t n = bytesBelow s n
  | 0, _ => rfl
  | n + 1, hn => congrArg₂ List.cons (h.bytes n hn) (h.bytesBelow (Nat.le_of_succ_le hn))

theorem SameStream.sumOfRange {s t : State} (h : SameStream s t) :
    ∀ {n lo : Nat}, lo + n ≤ s.bcu.pos.toNat → sumOfRange t lo n = sumOfRange s lo n
  | 0, _, _ => rfl
  | n + 1, lo, hn => congrArg₂ _ (h.bytes lo (by omega)) (h.sumOfRange (n := n) (lo := lo + 1) (by omega))

theorem SameStream.nextBits {s t : State} (h : SameStream s t) (n : Nat) : nextBits n t = nextBits n s := by
  rw [Machine.nextBits, Machine.nextBits, streamBits, streamBits, h.bcu, h.bytesBelow le_rfl]

theorem SameStream.cursorAfter {s t : State} (h : SameStream s t) (n : Nat) : cursorAfter n t = cursorAfter n s := by
  have hpulls : pullsFor n t = pullsFor n s := by rw [pullsFor, pullsFor, h.bcu]
  unfold Machine.cursorAfter
  rw [hpulls, h.bcu]
  by_cases hbuf : n ≤ s.bcu.rem
  · rw [if_pos hbuf, if_pos hbuf]
  · rw [if_neg hbuf, if_neg hbuf]
    by_cases hpos : pullsFor n s ≤ s.bcu.pos.toNat
    · have hone : 1 ≤ pullsFor n s := by unfold pullsFor; omega
      have hbyte := h.bytes (s.bcu.pos.toNat - pullsFor n s) (by omega)
      have hsum := h.sumOfRange (lo := s.bcu.pos.toNat - pullsFor n s) (n := pullsFor n s) (by omega)
      rw [if_pos hpos, if_pos hpos, hbyte, hsum]
    · have hsum := h.sumOfRange (lo := 0) (n := s.bcu.pos.toNat) (by omega)
      rw [if_neg hpos, if_neg hpos, hsum]

theorem SameStream.readDiag {s t : State} (h : SameStream s t) (n : Nat) : readDiag n t = readDiag n s := by
  rw [Machine.readDiag, Machine.readDiag, bitsLeft, bitsLeft, h.bcu, h.archLen]

theorem SameStream.literalAhead {s t : State} (h : SameStream s t) (m j : Nat) :
    literalAhead m j t = literalAhead m j s := by
  rw [Machine.literalAhead, Machine.literalAhead, h.nextBits]

/-! ## Bits consumed (R132) -/

theorem afterBits_afterBits (m n : Nat) (s : State) : afterBits n (afterBits m s) = afterBits (m + n) s := by
  rw [← bcRead_state, ← bcRead_state, ← bcRead_state, bcRead_add]

theorem afterBits_oau (n : Nat) (s : State) (o : Oau) :
    afterBits n { s with oau := o } = { afterBits n s with oau := o } := by
  have h : SameStream s { s with oau := o } := .of_archive rfl rfl rfl
  rw [afterBits, h.cursorAfter, h.readDiag]
  rfl

theorem afterBits_raised (n : Nat) (s : State) (m : BitVec 16) :
    afterBits n { s with diag := s.diag ||| m } = { afterBits n s with diag := (afterBits n s).diag ||| m } := by
  have h : SameStream s { s with diag := s.diag ||| m } := .of_archive rfl rfl rfl
  rw [afterBits, h.cursorAfter, h.readDiag]
  simp only [afterBits, BitVec.or_assoc, BitVec.or_comm m]

theorem bcRead_rem : ∀ (n : Nat) {s : State}, s.bcu.rem ≤ 8 → (bcRead n s).2.bcu.rem ≤ 8
  | 0, _, h8 => h8
  | n + 1, _, h8 => by
    rw [bcRead_succ]
    exact bcRead_rem n (bcReadBit_rem h8)

theorem afterBits_rem (n : Nat) {s : State} (h8 : s.bcu.rem ≤ 8) : (afterBits n s).bcu.rem ≤ 8 := by
  rw [← bcRead_state]
  exact bcRead_rem n h8

/-- The next bits past the first `m` are the next bits of the state that has consumed those. -/
theorem nextBits_drop : ∀ (m n : Nat) {s : State}, s.bcu.rem ≤ 8 →
    (nextBits (m + n) s).drop m = nextBits n (afterBits m s)
  | 0, n, s, _ => by rw [Nat.zero_add, afterBits_zero, List.drop_zero]
  | m + 1, n, s, h8 => by
    rw [Nat.add_right_comm, nextBits_succ h8, List.drop_succ_cons, nextBits_drop m n (bcReadBit_rem h8),
      ← bcRead_state, ← bcRead_state, bcRead_succ]

/-- A literal behind bits that are consumed first. -/
theorem literalAhead_afterBits {s : State} (h8 : s.bcu.rem ≤ 8) (m h j : Nat) :
    literalAhead h j (afterBits m s) = literalAhead (m + h) j s := by
  rw [literalAhead, literalAhead, ← nextBits_drop m _ h8, List.drop_drop, ← Nat.add_assoc, ← Nat.add_assoc]

/-- The literals behind a literal. -/
theorem literalAhead_succ (h : Nat) {j : Nat} (hj : 1 ≤ j) (s : State) :
    literalAhead (h + 8) j s = literalAhead h (j + 1) s := by
  have hbits : h + 8 + 8 * j = h + 8 * (j + 1) := by omega
  have hskip : h + 8 + 8 * (j - 1) = h + 8 * (j + 1 - 1) := by omega
  rw [literalAhead, literalAhead, hbits, hskip]

/-- The first literal is a read of eight bits (R111). -/
theorem literalAhead_first {s : State} (h8 : s.bcu.rem ≤ 8) : literalAhead 0 1 s = BitVec.ofNat 8 (bcRead 8 s).1 := by
  rw [bcRead_value 8 h8]
  rfl

/-! ## A raw copy in closed form (R151) -/

theorem raised_if (p : Prop) [Decidable p] (f : DiagFlag) (s : State) :
    (if p then diag f s else s) = { s with diag := s.diag ||| flagIf (decide p) f } := by
  by_cases hp : p <;> simp [hp, flagIf, diag]

/-- COPYRAW is its loop over the clamped count (R151, R156). -/
theorem copyRaw_eq (n : Nat) (s : State) :
    copyRaw n s = rawBytes (min n s.oau.wpos) (if s.oau.wpos < n then diag .rawClamp s else s) := by
  unfold copyRaw
  split
  · next h => rw [Nat.min_eq_right (Nat.le_of_lt h)]
  · next h => rw [Nat.min_eq_left (Nat.le_of_not_lt h)]

/-- One iteration of COPYRAW: eight bits consumed, the byte they spell stored below the write position. -/
theorem rawByte_state (s : State) :
    rawByte s =
      { afterBits 8 s with
        oau := { s.oau with
          wpos := s.oau.wpos - 1
          omem := s.oau.omem.set (s.oau.wpos - 1) (BitVec.ofNat 8 (bcRead 8 (oaRetreat s)).1) } } := by
  have hread : (bcRead 8 (oaRetreat s)).2 = { afterBits 8 s with oau := (oaRetreat s).oau } :=
    (bcRead_state 8 _).trans (afterBits_oau 8 s _)
  rw [rawByte_eq, hread]
  rfl

/-- The loop of COPYRAW, but for what it stores. -/
theorem rawBytes_state : ∀ (n : Nat) (s : State), ∃ omem,
    rawBytes n s = { afterBits (8 * n) s with oau := { s.oau with wpos := s.oau.wpos - n, omem := omem } }
  | 0, s => ⟨s.oau.omem, by rw [Nat.mul_zero, afterBits_zero]; rfl⟩
  | n + 1, s => by
    obtain ⟨omem, ih⟩ := rawBytes_state n (rawByte s)
    refine ⟨omem, ?_⟩
    rw [rawBytes, ih, rawByte_state, afterBits_oau, afterBits_afterBits, Nat.mul_succ, Nat.add_comm 8]
    dsimp only
    rw [Nat.sub_sub, Nat.add_comm 1]

theorem rawByte_wf {s : State} (h : s.oau.omem.wf = true) : (rawByte s).oau.omem.wf = true := by
  rw [rawByte_state]
  exact Memory.wf_set h _ _

theorem rawBytes_wf : ∀ (n : Nat) {s : State}, s.oau.omem.wf = true → (rawBytes n s).oau.omem.wf = true
  | 0, _, h => h
  | n + 1, _, h => rawBytes_wf n (rawByte_wf h)

/-- The byte that one iteration of COPYRAW stores: the first literal of the stream. -/
theorem readOutput_rawByte {s : State} (h8 : s.bcu.rem ≤ 8) (h : s.oau.omem.wf = true) (i : Nat) :
    readOutput i (rawByte s) = if i = s.oau.wpos - 1 then literalAhead 0 1 s else readOutput i s := by
  have hstream : SameStream s (oaRetreat s) := .of_archive rfl rfl rfl
  rw [← hstream.literalAhead, literalAhead_first (s := oaRetreat s) h8, rawByte_state]
  exact Memory.get_set h _ i _

theorem literalAhead_rawByte {s : State} (h8 : s.bcu.rem ≤ 8) {j : Nat} (hj : 1 ≤ j) :
    literalAhead 0 j (rawByte s) = literalAhead 0 (j + 1) s := by
  have hstream : SameStream (afterBits 8 s) (rawByte s) := by
    rw [rawByte_state]
    exact .of_archive rfl rfl rfl
  rw [hstream.literalAhead, literalAhead_afterBits h8, Nat.add_comm, literalAhead_succ 0 hj]

/-- The bytes that the loop of COPYRAW stores: the literals in order, the first one highest. -/
theorem readOutput_rawBytes : ∀ (n : Nat) {s : State}, s.bcu.rem ≤ 8 → s.oau.omem.wf = true → n ≤ s.oau.wpos → ∀ i,
    readOutput i (rawBytes n s) =
      if s.oau.wpos - n ≤ i ∧ i < s.oau.wpos then literalAhead 0 (s.oau.wpos - i) s else readOutput i s
  | 0, s, _, _, _, i => by rw [if_neg (by omega)]; rfl
  | n + 1, s, h8, h, hn, i => by
    have hwpos : (rawByte s).oau.wpos = s.oau.wpos - 1 := (rawByte_wpos s).1
    have hrem : (rawByte s).bcu.rem ≤ 8 := by rw [rawByte_state]; exact afterBits_rem 8 h8
    rw [rawBytes, readOutput_rawBytes n hrem (rawByte_wf h) (by omega), hwpos]
    by_cases hlater : s.oau.wpos - 1 - n ≤ i ∧ i < s.oau.wpos - 1
    · have hindex : s.oau.wpos - 1 - i + 1 = s.oau.wpos - i := by omega
      rw [if_pos hlater, if_pos (by omega), literalAhead_rawByte h8 (by omega), hindex]
    · rw [if_neg hlater, readOutput_rawByte h8 h]
      by_cases hfirst : i = s.oau.wpos - 1
      · have hindex : s.oau.wpos - i = 1 := by omega
        rw [if_pos hfirst, if_pos (by omega), hindex]
      · rw [if_neg hfirst, if_neg (by omega)]

/-- COPYRAW, but for what it stores (R151). -/
theorem copyRaw_state (n : Nat) (s : State) : ∃ omem,
    copyRaw n s =
      { afterBits (8 * min n s.oau.wpos) s with
        oau := { s.oau with wpos := s.oau.wpos - min n s.oau.wpos, omem := omem }
        diag := (afterBits (8 * min n s.oau.wpos) s).diag ||| flagIf (decide (s.oau.wpos < n)) .rawClamp } := by
  rw [copyRaw_eq, raised_if]
  obtain ⟨omem, hloop⟩ := rawBytes_state (min n s.oau.wpos)
    { s with diag := s.diag ||| flagIf (decide (s.oau.wpos < n)) .rawClamp }
  rw [afterBits_raised] at hloop
  exact ⟨omem, hloop⟩

theorem copyRaw_wf {s : State} (h : s.oau.omem.wf = true) (n : Nat) : (copyRaw n s).oau.omem.wf = true := by
  unfold copyRaw
  split
  · exact rawBytes_wf _ (s := diag .rawClamp s) h
  · exact rawBytes_wf _ h

/-- The bytes of the output after COPYRAW (R151), clamped or not. -/
theorem readOutput_copyRaw {s : State} (h8 : s.bcu.rem ≤ 8) (h : s.oau.omem.wf = true) (n i : Nat) :
    readOutput i (copyRaw n s) =
      if s.oau.wpos - min n s.oau.wpos ≤ i ∧ i < s.oau.wpos then literalAhead 0 (s.oau.wpos - i) s
      else readOutput i s := by
  rw [copyRaw_eq]
  split
  · have hstream : SameStream s (diag .rawClamp s) := .of_archive rfl rfl rfl
    rw [← hstream.literalAhead]
    exact readOutput_rawBytes _ (s := diag .rawClamp s) h8 h (Nat.min_le_right _ _) i
  · exact readOutput_rawBytes _ h8 h (Nat.min_le_right _ _) i

/-- A raw copy behind a header (R151, R172, R177). -/
theorem rawCopied_copyRaw {s : State} (h8 : s.bcu.rem ≤ 8) (h : s.oau.omem.wf = true) (header n : Nat) :
    RawCopied header n s (copyRaw n (afterBits header s)) := by
  refine ⟨?_, copyRaw_wf (s := afterBits header s) h n, fun i => ?_⟩
  · obtain ⟨omem, hstate⟩ := copyRaw_state n (afterBits header s)
    rw [hstate, afterBits_afterBits]
    rfl
  · have hread := readOutput_copyRaw (afterBits_rem header h8) (s := afterBits header s) h n i
    rwa [literalAhead_afterBits h8, Nat.add_zero] at hread

/-! ## A back-reference copy in closed form (R152) -/

/-- One iteration of COPYREF, but for what it stores. -/
theorem refByte_state (offset : Nat) (s : State) : ∃ omem,
    refByte offset s =
      { s with
        oau := { s.oau with wpos := s.oau.wpos - 1, omem := omem }
        diag := s.diag ||| flagIf (decide (s.oau.len ≤ s.oau.wpos - 1 + offset)) .refOor } := by
  rw [refByte_eq]
  by_cases hsrc : s.oau.wpos - 1 + offset < s.oau.len
  · have hflag : flagIf (decide (s.oau.len ≤ s.oau.wpos - 1 + offset)) .refOor = 0#16 := by
      simp [flagIf, Nat.not_le.mpr hsrc]
    rw [if_pos hsrc, hflag, BitVec.or_zero]
    exact ⟨_, rfl⟩
  · have hflag : flagIf (decide (s.oau.len ≤ s.oau.wpos - 1 + offset)) .refOor = DiagFlag.refOor.mask := by
      simp [flagIf, Nat.le_of_not_lt hsrc]
    rw [if_neg hsrc, hflag]
    exact ⟨_, rfl⟩

/-- The loop of COPYREF, but for what it stores: the first source is the highest, so it alone decides REF_OOR. -/
theorem refBytes_state (offset : Nat) : ∀ (n : Nat) {s : State}, n ≤ s.oau.wpos → ∃ omem,
    refBytes offset n s =
      { s with
        oau := { s.oau with wpos := s.oau.wpos - n, omem := omem }
        diag := s.diag ||| flagIf (decide (0 < n ∧ s.oau.len < s.oau.wpos + offset)) .refOor }
  | 0, s, _ => ⟨s.oau.omem, by simp [refBytes, flagIf]⟩
  | n + 1, s, hn => by
    obtain ⟨stored, hbyte⟩ := refByte_state offset s
    have hwpos : (refByte offset s).oau.wpos = s.oau.wpos - 1 := (refByte_wpos offset s).1
    obtain ⟨omem, ih⟩ := refBytes_state offset n (s := refByte offset s) (by omega)
    refine ⟨omem, ?_⟩
    have hflag : (s.oau.len ≤ s.oau.wpos - 1 + offset ∨ 0 < n ∧ s.oau.len < s.oau.wpos - 1 + offset) ↔
        0 < n + 1 ∧ s.oau.len < s.oau.wpos + offset := by omega
    rw [refBytes, ih, hbyte]
    dsimp only
    rw [BitVec.or_assoc, flagIf_or, ← Bool.decide_or, Nat.sub_sub, Nat.add_comm 1]
    simp only [hflag]

/-- COPYREF, but for what it stores (R152). -/
theorem copyRef_state (n offset : Nat) (s : State) : ∃ omem,
    copyRef n offset s =
      { s with
        oau := { s.oau with wpos := s.oau.wpos - min n s.oau.wpos, omem := omem }
        diag := s.diag ||| flagIf (decide (s.oau.wpos < n)) .refClamp
                  ||| flagIf (decide (0 < min n s.oau.wpos ∧ s.oau.len < s.oau.wpos + offset)) .refOor } := by
  rw [copyRef_eq, raised_if]
  exact refBytes_state offset _ (Nat.min_le_right n s.oau.wpos)

theorem refBytes_wf (offset : Nat) :
    ∀ (n : Nat) {s : State}, s.oau.omem.wf = true → (refBytes offset n s).oau.omem.wf = true
  | 0, _, h => h
  | n + 1, _, h => refBytes_wf offset n (refByte_wf h offset)

theorem copyRef_wf {s : State} (h : s.oau.omem.wf = true) (n offset : Nat) :
    (copyRef n offset s).oau.omem.wf = true := by
  unfold copyRef
  split
  · exact refBytes_wf offset _ (s := diag .refClamp s) h
  · exact refBytes_wf offset _ h

/-- A back-reference copy behind a header (R152, R173 to R176); an encoded offset is never 0 (R110). -/
theorem refCopied_copyRef {s : State} (h : s.oau.omem.wf = true) (header n : Nat) {offset : Nat} (hoff : 1 ≤ offset) :
    RefCopied header n offset s (copyRef n offset (afterBits header s)) := by
  refine ⟨?_, copyRef_wf (s := afterBits header s) h n offset,
    readOutput_copyRef (s := afterBits header s) h hoff n⟩
  obtain ⟨omem, hstate⟩ := copyRef_state n offset (afterBits header s)
  rw [hstate]
  rfl

/-! ## Tokens (R171 to R177) -/

/-- The fetch of a token consumes the token's header. -/
theorem fetchToken_state (s : State) : (fetchToken s).2 = afterBits (encodeToken (fetchToken s).1).length s := by
  rw [← bcRead_state, cursorTook_fetchToken s]

/-- The fetch finds the token that the decoder of bit lists finds in the next 23 bits. -/
theorem fetchToken_of_decode {s : State} (h8 : s.bcu.rem ≤ 8) {t : Token} {rest : List Bool}
    (h : decodeToken (nextBits 23 s) = .ok (t, rest)) : fetchToken s = (t, afterBits (encodeToken t).length s) := by
  obtain ⟨u, rest', hdecode, hfetch⟩ := fetchReadsTheStream s h8
  obtain ⟨rfl, -⟩ : t = u ∧ rest = rest' := by simpa [h] using hdecode
  exact hfetch

/-- The fetch finds the token whose header comes next. -/
theorem fetchToken_of_header {s : State} (h8 : s.bcu.rem ≤ 8) {t : Token}
    (h : nextBits (encodeToken t).length s = encodeToken t) :
    fetchToken s = (t, afterBits (encodeToken t).length s) := by
  refine fetchToken_of_decode h8 (rest := (nextBits 23 s).drop (encodeToken t).length) (decodeToken_eq_ok.mpr ?_)
  nth_rw 1 [← h]
  rw [← nextBits_take (encodeToken_length_le t), List.take_append_drop]

/-- While the loop goes on a step runs the token that the fetch finds, as the decode loop does. -/
theorem step_of_fetch {s s' : State} {t : Token} (hf : s.fetchFrom = .tokenStream) (hd : decodeDone s = false)
    (hfetch : fetchToken s = (t, s')) : step s = .next (runToken t s') := by
  rw [step_of_stream hf, hd, decodeOneToken_eq, hfetch]
  rfl

/-- A step over a token whose header comes next. -/
theorem step_of_header {s : State} (hf : s.fetchFrom = .tokenStream) (h8 : s.bcu.rem ≤ 8) (hd : decodeDone s = false)
    (t : Token) (h : nextBits (encodeToken t).length s = encodeToken t) :
    step s = .next (runToken t (afterBits (encodeToken t).length s)) :=
  step_of_fetch hf hd (fetchToken_of_header h8 h)

/-- Settles O6. -/
theorem stepRunsDecodedToken : Obligations.StepRunsDecodedToken := by
  refine ⟨fun s t rest hf h8 hd hdecode => ?_, fun s hf hd => ?_⟩
  · rw [step_of_fetch hf hd (fetchToken_of_decode h8 hdecode), ← exec_token]
    rfl
  · rw [step_of_stream hf, if_pos hd]

/-- Settles O28: a token that runs alone has no header before it. -/
theorem rawTokensExecute : Obligations.RawTokensExecute := by
  intro s h8 hwf
  have hcopy : ∀ n, RawCopied 0 n s (copyRaw n s) := fun n => by
    simpa only [afterBits_zero] using rawCopied_copyRaw h8 hwf 0 n
  exact ⟨fun l => ⟨_, exec_token (.sraw l) s, hcopy _⟩, fun l => ⟨_, exec_token (.lraw l) s, hcopy _⟩⟩

/-- Settles O29. -/
theorem backReferenceTokensExecute : Obligations.BackReferenceTokensExecute := by
  intro s hwf
  have hcopy : ∀ n o, RefCopied 0 n (o + 1) s (copyRef n (o + 1) s) := fun n o => by
    simpa only [afterBits_zero] using refCopied_copyRef hwf 0 n (Nat.le_add_left 1 o)
  exact ⟨fun o => ⟨_, exec_token (.sref o) s, hcopy _ _⟩, fun o => ⟨_, exec_token (.refa o) s, hcopy _ _⟩,
    fun o => ⟨_, exec_token (.refb o) s, hcopy _ _⟩, fun l o => ⟨_, exec_token (.refc l o) s, hcopy _ _⟩⟩

/-- Settles O30. -/
theorem rawTokensStep : Obligations.RawTokensStep := fun _ hf h8 hwf hd =>
  ⟨fun l h => ⟨_, step_of_header hf h8 hd (.sraw l) h, rawCopied_copyRaw h8 hwf _ _⟩,
    fun l h => ⟨_, step_of_header hf h8 hd (.lraw l) h, rawCopied_copyRaw h8 hwf _ _⟩⟩

/-- Settles O31. -/
theorem backReferenceTokensStep : Obligations.BackReferenceTokensStep := fun _ hf h8 hwf hd =>
  ⟨fun o h => ⟨_, step_of_header hf h8 hd (.sref o) h, refCopied_copyRef hwf _ _ (Nat.le_add_left 1 _)⟩,
    fun o h => ⟨_, step_of_header hf h8 hd (.refa o) h, refCopied_copyRef hwf _ _ (Nat.le_add_left 1 _)⟩,
    fun o h => ⟨_, step_of_header hf h8 hd (.refb o) h, refCopied_copyRef hwf _ _ (Nat.le_add_left 1 _)⟩,
    fun l o h => ⟨_, step_of_header hf h8 hd (.refc l o) h, refCopied_copyRef hwf _ _ (Nat.le_add_left 1 _)⟩⟩

/-! ## Progress (R178) -/

/-- How many bytes a token asks for (R172 to R177). -/
def copyLength : Token → Nat
  | .sraw l => srawLen l
  | .sref _ => 2
  | .refa _ => 3
  | .refb _ => 4
  | .refc l _ => refcLen l
  | .lraw l => lrawLen l

theorem copyLength_pos (t : Token) : 1 ≤ copyLength t := by
  cases t <;> simp [copyLength, srawLen, refcLen, lrawLen]

theorem copyRaw_wpos (n : Nat) (s : State) : (copyRaw n s).oau.wpos = s.oau.wpos - min n s.oau.wpos := by
  obtain ⟨omem, h⟩ := copyRaw_state n s
  rw [h]

theorem copyRef_wpos (n offset : Nat) (s : State) : (copyRef n offset s).oau.wpos = s.oau.wpos - min n s.oau.wpos := by
  obtain ⟨omem, h⟩ := copyRef_state n offset s
  rw [h]

/-- A token lowers the write position by what it asks for, clamped to the space left (R151, R152). -/
theorem runToken_wpos (t : Token) (s : State) :
    (runToken t s).oau.wpos = s.oau.wpos - min (copyLength t) s.oau.wpos := by
  cases t with
  | sraw l => exact copyRaw_wpos _ _
  | sref o => exact copyRef_wpos _ _ _
  | refa o => exact copyRef_wpos _ _ _
  | refb o => exact copyRef_wpos _ _ _
  | refc l o => exact copyRef_wpos _ _ _
  | lraw l => exact copyRaw_wpos _ _

theorem decodeDone_eq_false {s : State} :
    decodeDone s = false ↔ 0 < s.oau.wpos ∧ (s.bcu.rem = 0 → 0 < s.bcu.pos) := by
  simp [decodeDone, oaEof, bcEof, Nat.pos_iff_ne_zero]

theorem decodeDone_of_full {s : State} (h : s.oau.wpos = 0) : decodeDone s = true := by
  simp [decodeDone, oaEof, h]

theorem decodeOneToken_wpos_lt {s : State} (h : decodeDone s = false) :
    (decodeOneToken s).oau.wpos < s.oau.wpos := by
  have hlen := copyLength_pos (fetchToken s).1
  obtain ⟨hspace, -⟩ := decodeDone_eq_false.mp h
  rw [decodeOneToken_eq, runToken_wpos, (fetchToken_cursorOnly s).oau]
  omega

/-- Consuming bits never raises BC_POS above what is left (R27). -/
theorem cursorAfter_pos_le (n : Nat) (s : State) : (cursorAfter n s).pos ≤ max s.bcu.pos 0 := by
  unfold cursorAfter
  split_ifs <;> dsimp only <;> omega

theorem copyRaw_pos_le (n : Nat) (s : State) : (copyRaw n s).bcu.pos ≤ max s.bcu.pos 0 := by
  obtain ⟨omem, h⟩ := copyRaw_state n s
  rw [h]
  exact cursorAfter_pos_le _ s

theorem copyRef_pos_le (n offset : Nat) (s : State) : (copyRef n offset s).bcu.pos ≤ max s.bcu.pos 0 := by
  rw [copyRef_bcu]
  exact le_max_left _ _

theorem runToken_pos_le (t : Token) (s : State) : (runToken t s).bcu.pos ≤ max s.bcu.pos 0 := by
  cases t with
  | sraw l => exact copyRaw_pos_le _ _
  | sref o => exact copyRef_pos_le _ _ _
  | refa o => exact copyRef_pos_le _ _ _
  | refb o => exact copyRef_pos_le _ _ _
  | refc l o => exact copyRef_pos_le _ _ _
  | lraw l => exact copyRaw_pos_le _ _

theorem decodeOneToken_pos_le (s : State) : (decodeOneToken s).bcu.pos ≤ max s.bcu.pos 0 := by
  have htoken := runToken_pos_le (fetchToken s).1 (fetchToken s).2
  have hfetch : (fetchToken s).2.bcu.pos ≤ max s.bcu.pos 0 := by
    rw [fetchToken_state]
    exact cursorAfter_pos_le _ s
  rw [decodeOneToken_eq]
  omega

/-- Every bound of at least the space left gives the same loop. -/
theorem tduLoop_bound : ∀ (n m : Nat) {s : State}, s.oau.wpos ≤ n → s.oau.wpos ≤ m → tduLoop n s = tduLoop m s
  | 0, m, _, hn, _ => (tduLoop_done (decodeDone_of_full (Nat.le_zero.mp hn)) m).symm
  | n + 1, 0, _, _, hm => tduLoop_done (decodeDone_of_full (Nat.le_zero.mp hm)) (n + 1)
  | n + 1, m + 1, s, hn, hm => by
    cases hd : decodeDone s with
    | true => rw [tduLoop_done hd, tduLoop_done hd]
    | false =>
      have hlt := decodeOneToken_wpos_lt hd
      rw [tduLoop_succ hd, tduLoop_succ hd, tduLoop_bound n m (by omega) (by omega)]

theorem tduLoop_eq_decodeAll {n : Nat} {s : State} (h : s.oau.wpos ≤ n) : tduLoop n s = decodeAll s :=
  tduLoop_bound _ _ h le_rfl

/-- Settles O34. -/
theorem tokensMakeProgress : Obligations.TokensMakeProgress :=
  ⟨fun s hd => ⟨decodeOneToken_wpos_lt hd, decodeOneToken_len s, decodeOneToken_pos_le s⟩,
    fun _ _ => tduLoop_eq_decodeAll⟩

/-! ## The decode procedure (R170, R179) -/

theorem decodeAll_done {s : State} (h : decodeDone s = true) : decodeAll s = s := tduLoop_done h _

theorem decodeAll_succ {s : State} (h : decodeDone s = false) : decodeAll s = decodeAll (decodeOneToken s) := by
  have hlt := decodeOneToken_wpos_lt h
  rw [← tduLoop_eq_decodeAll (Nat.le_succ s.oau.wpos), tduLoop_succ h, tduLoop_eq_decodeAll hlt.le]

/-- A loop with a bound of at least the space left ends by its test. -/
theorem decodeDone_tduLoop : ∀ (n : Nat) {s : State}, s.oau.wpos ≤ n → decodeDone (tduLoop n s) = true
  | 0, _, hn => decodeDone_of_full (Nat.le_zero.mp hn)
  | n + 1, s, hn => by
    cases hd : decodeDone s with
    | true => rwa [tduLoop_done hd]
    | false =>
      have hlt := decodeOneToken_wpos_lt hd
      rw [tduLoop_succ hd]
      exact decodeDone_tduLoop n (by omega)

theorem verifyChecksum_eq (x : Byte) (s : State) :
    verifyChecksum x s =
      { s with
        csumOk := s.bcu.sum == x
        diag := s.diag ||| flagIf (decide (s.bcu.sum ≠ x)) .checksumMismatch } := by
  by_cases h : s.bcu.sum = x <;> simp [verifyChecksum, h, flagIf, diag]

/-- The three parts of a decode (R170). -/
theorem segDecode_eq_verify (o c d : Nat) (x : Byte) (b : Nat) (s : State) :
    segDecode o c d x b s = verifyChecksum x (decodeAll (constructUnits o c d b s)) := rfl

/-- Settles O33. -/
theorem segmentDecodeProcedure : Obligations.SegmentDecodeProcedure := by
  refine ⟨fun s => ?_, fun o c d x b s => ⟨?_, ?_, ?_⟩⟩
  · change decodeAll s = if decodeDone s then s else decodeAll (decodeOneToken s)
    split
    · next h => exact decodeAll_done h
    · next h => exact decodeAll_succ (Bool.not_eq_true _ ▸ h)
  · rw [segDecode_eq_verify, verifyChecksum_eq]
  · rw [outputBytes_length, segDecode_len]
  · rw [segDecode_eq_verify, verifyChecksum_eq]
    exact decodeDone_tduLoop _ le_rfl

/-! ## What a decode depends on (R182) -/

/-- Two states that a decode cannot tell apart: one stream, one output assembler, and the same diagnostics raised since
DIAG was `d` in the one and `d'` in the other. -/
structure Alike (d d' : BitVec 16) (s s' : State) : Prop where
  stream : SameStream s s'
  rem : s.bcu.rem ≤ 8
  oau : s'.oau = s.oau
  raised : ∃ r, s.diag = d ||| r ∧ s'.diag = d' ||| r

section
variable {d d' : BitVec 16} {s s' : State}

/-- One change of the units and DIAG to both, with the cursor in the same range and no higher. -/
theorem Alike.update (h : Alike d d' s s') {t t' : State} (hs : DatapathOnly s t) (hs' : DatapathOnly s' t')
    (hbcu : t'.bcu = t.bcu) (hoau : t'.oau = t.oau) (hbase : t.bcu.base = s.bcu.base)
    (hpos : t.bcu.pos ≤ max s.bcu.pos 0) (hrem : t.bcu.rem ≤ 8) {m : BitVec 16} (hm : t.diag = s.diag ||| m)
    (hm' : t'.diag = s'.diag ||| m) : Alike d d' t t' := by
  obtain ⟨r, hr, hr'⟩ := h.raised
  refine ⟨⟨hbcu, ?_, fun p hp => ?_⟩, hrem, hoau, r ||| m, ?_, ?_⟩
  · rw [hs'.archLen, hs.archLen, h.stream.archLen]
  · have hbyte := h.stream.bytes p (by omega)
    rw [rangeByte, rangeByte, h.stream.bcu] at hbyte
    rw [rangeByte, rangeByte, hbcu, hbase, readArchive_value hs'.amem hs'.archLen, hbyte,
      readArchive_value hs.amem hs.archLen]
  · rw [hm, hr, BitVec.or_assoc]
  · rw [hm', hr', BitVec.or_assoc]

theorem Alike.raise (h : Alike d d' s s') (f : DiagFlag) : Alike d d' (diag f s) (diag f s') :=
  h.update (diag_cursorOnly f s).datapath (diag_cursorOnly f s').datapath h.stream.bcu h.oau rfl (le_max_left _ _) h.rem
    (diag_diag f s) (diag_diag f s')

theorem Alike.setOau (h : Alike d d' s s') (o : Oau) : Alike d d' { s with oau := o } { s' with oau := o } :=
  h.update (m := 0) rfl rfl h.stream.bcu rfl rfl (le_max_left _ _) h.rem BitVec.or_zero.symm BitVec.or_zero.symm

theorem Alike.afterBits (h : Alike d d' s s') (n : Nat) : Alike d d' (afterBits n s) (afterBits n s') :=
  h.update rfl rfl (h.stream.cursorAfter n) h.oau (cursorAfter_base n s) (cursorAfter_pos_le n s)
    (afterBits_rem n h.rem) rfl (congrArg (s'.diag ||| ·) (h.stream.readDiag n))

theorem Alike.bcRead (h : Alike d d' s s') (n : Nat) :
    (bcRead n s').1 = (bcRead n s).1 ∧ Alike d d' (bcRead n s).2 (bcRead n s').2 := by
  have hrem' : s'.bcu.rem ≤ 8 := by rw [h.stream.bcu]; exact h.rem
  rw [bcRead_eq h.rem, bcRead_eq hrem', h.stream.nextBits]
  exact ⟨rfl, h.afterBits n⟩

theorem Alike.fetchToken (h : Alike d d' s s') :
    (fetchToken s').1 = (fetchToken s).1 ∧ Alike d d' (fetchToken s).2 (fetchToken s').2 := by
  have hrem' : s'.bcu.rem ≤ 8 := by rw [h.stream.bcu]; exact h.rem
  obtain ⟨t, rest, hdecode, -⟩ := fetchReadsTheStream s h.rem
  rw [fetchToken_of_decode h.rem hdecode, fetchToken_of_decode hrem' (by rw [h.stream.nextBits, hdecode])]
  exact ⟨rfl, h.afterBits _⟩

theorem Alike.oaRetreat (h : Alike d d' s s') : Alike d d' (oaRetreat s) (oaRetreat s') := by
  rw [Machine.oaRetreat, Machine.oaRetreat, h.oau]
  exact h.setOau _

theorem Alike.writeOutput (h : Alike d d' s s') (i : Nat) (v : Byte) :
    Alike d d' (writeOutput i v s) (writeOutput i v s') := by
  rw [Machine.writeOutput, Machine.writeOutput, h.oau]
  exact h.setOau _

theorem Alike.rawByte (h : Alike d d' s s') : Alike d d' (rawByte s) (rawByte s') := by
  obtain ⟨hvalue, hread⟩ := h.oaRetreat.bcRead 8
  rw [rawByte_eq, rawByte_eq, hvalue, hread.oau]
  exact hread.writeOutput _ _

theorem Alike.refByte (h : Alike d d' s s') (offset : Nat) : Alike d d' (refByte offset s) (refByte offset s') := by
  rw [refByte_eq, refByte_eq, readOutput, readOutput, h.oau]
  split
  · exact h.oaRetreat.writeOutput _ _
  · exact (h.oaRetreat.raise _).writeOutput _ _

end

section
variable {d d' : BitVec 16}

theorem Alike.rawBytes : ∀ (n : Nat) {s s' : State}, Alike d d' s s' → Alike d d' (rawBytes n s) (rawBytes n s')
  | 0, _, _, h => h
  | n + 1, _, _, h => Alike.rawBytes n h.rawByte

theorem Alike.refBytes (offset : Nat) : ∀ (n : Nat) {s s' : State}, Alike d d' s s' →
    Alike d d' (refBytes offset n s) (refBytes offset n s')
  | 0, _, _, h => h
  | n + 1, _, _, h => Alike.refBytes offset n (h.refByte offset)

variable {s s' : State}

theorem Alike.copyRaw (h : Alike d d' s s') (n : Nat) : Alike d d' (copyRaw n s) (copyRaw n s') := by
  rw [Machine.copyRaw, Machine.copyRaw, h.oau]
  split
  · exact Alike.rawBytes _ (h.raise _)
  · exact Alike.rawBytes _ h

theorem Alike.copyRef (h : Alike d d' s s') (n offset : Nat) :
    Alike d d' (copyRef n offset s) (copyRef n offset s') := by
  rw [Machine.copyRef, Machine.copyRef, h.oau]
  split
  · exact Alike.refBytes offset _ (h.raise _)
  · exact Alike.refBytes offset _ h

theorem Alike.runToken (h : Alike d d' s s') (t : Token) : Alike d d' (runToken t s) (runToken t s') := by
  cases t with
  | sraw l => exact h.copyRaw _
  | sref o => exact h.copyRef _ _
  | refa o => exact h.copyRef _ _
  | refb o => exact h.copyRef _ _
  | refc l o => exact h.copyRef _ _
  | lraw l => exact h.copyRaw _

theorem Alike.decodeOneToken (h : Alike d d' s s') : Alike d d' (decodeOneToken s) (decodeOneToken s') := by
  obtain ⟨htoken, hfetch⟩ := h.fetchToken
  rw [decodeOneToken_eq, decodeOneToken_eq, htoken]
  exact hfetch.runToken _

theorem Alike.decodeDone (h : Alike d d' s s') : decodeDone s' = decodeDone s := by
  rw [Machine.decodeDone, Machine.decodeDone, oaEof, oaEof, bcEof, bcEof, h.oau, h.stream.bcu]

theorem Alike.tduLoop : ∀ (n : Nat) {s s' : State}, Alike d d' s s' → Alike d d' (tduLoop n s) (tduLoop n s')
  | 0, _, _, h => h
  | n + 1, s, _, h => by
    cases hd : Machine.decodeDone s with
    | true => rwa [tduLoop_done hd, tduLoop_done (h.decodeDone.trans hd)]
    | false =>
      rw [tduLoop_succ hd, tduLoop_succ (h.decodeDone.trans hd)]
      exact Alike.tduLoop n h.decodeOneToken

theorem Alike.decodeAll (h : Alike d d' s s') : Alike d d' (decodeAll s) (decodeAll s') := by
  rw [Machine.decodeAll, Machine.decodeAll, h.oau]
  exact h.tduLoop _

end

/-- Two archives agree on the range of `c` bytes from `o`, as far as it lies inside them. -/
structure RangeAgrees (o c : Nat) (s s' : State) : Prop where
  archLen : s.archLen = s'.archLen
  bytes : ∀ a, o ≤ a → a < o + c → a < s.archLen → s.amem.get a = s'.amem.get a

theorem RangeAgrees.readArchive {o c : Nat} {s s' : State} (h : RangeAgrees o c s s') {p : Nat} (hp : p < c) :
    (readArchive (o + p : Nat) s').1 = (readArchive (o + p : Nat) s).1 := by
  have hlen := h.archLen
  by_cases hin : o + p < s.archLen
  · rw [readArchive_inside (by omega) (by omega), readArchive_inside (by omega) (by omega)]
    exact (h.bytes (o + p) (by omega) (by omega) hin).symm
  · rw [readArchive_outside (by omega), readArchive_outside (by omega)]

theorem constructUnits_rem (o c d b : Nat) (s : State) : (constructUnits o c d b s).bcu.rem ≤ 8 := by
  rcases Nat.eq_zero_or_pos c with rfl | hc
  · rw [constructUnits, bcConstruct_empty]
    exact Nat.zero_le 8
  · rw [constructUnits, oaConstruct_bcu, bcConstruct_bcu hc]
    exact Nat.min_le_right _ _

theorem rangeByte_constructUnits {c : Nat} (hc : 1 ≤ c) (o d b p : Nat) (s : State) :
    rangeByte (constructUnits o c d b s) p = (readArchive (o + p : Nat) s).1 :=
  (readArchive_value (s := bcConstruct o c b s) (t := constructUnits o c d b s) rfl rfl _).trans
    (rangeByte_bcConstruct hc o b p s)

/-- Both units constructed over a range on which the archives agree (R130, R150). -/
theorem RangeAgrees.alike_units {o c : Nat} {s s' : State} (h : RangeAgrees o c s s') (d b : Nat) :
    Alike s.diag s'.diag (constructUnits o c d b s) (constructUnits o c d b s') := by
  rcases Nat.eq_zero_or_pos c with rfl | hc
  · rw [constructUnits, constructUnits, bcConstruct_empty, bcConstruct_empty, ite_or_mask, ite_or_mask]
    exact ⟨⟨rfl, h.archLen.symm, fun _ hp => absurd hp (Nat.not_lt_zero _)⟩, Nat.zero_le 8, rfl, _, BitVec.or_assoc ..,
      BitVec.or_assoc ..⟩
  · have hlast := h.readArchive (p := c - 1) (by omega)
    have hbcu := bcConstruct_bcu hc o b
    have hframe := fun t => (bcConstruct_cursorOnly o c b t).datapath
    refine ⟨⟨?_, ?_, fun p hp => ?_⟩, constructUnits_rem o c d b s, rfl, ?_⟩
    · rw [constructUnits, constructUnits, oaConstruct_bcu, oaConstruct_bcu, hbcu, hbcu, hlast]
    · exact (hframe s').archLen.trans (h.archLen.symm.trans (hframe s).archLen.symm)
    · rw [constructUnits, oaConstruct_bcu, hbcu, Int.toNat_natCast] at hp
      rw [rangeByte_constructUnits hc, rangeByte_constructUnits hc, h.readArchive (by omega)]
    · rw [constructUnits, constructUnits, oaConstruct_diag, oaConstruct_diag, bcConstruct_primed hc,
        bcConstruct_primed hc, h.archLen]
      exact ⟨_, BitVec.or_assoc .., BitVec.or_assoc ..⟩

theorem RangeAgrees.alike_decodeAll {o c : Nat} {s s' : State} (h : RangeAgrees o c s s') (d b : Nat) :
    Alike s.diag s'.diag (decodeAll (constructUnits o c d b s)) (decodeAll (constructUnits o c d b s')) :=
  (h.alike_units d b).decodeAll

/-- Settles O37: the two decodes are alike, and the comparison of the checksum reads nothing else. -/
theorem decodeIsPure : Obligations.DecodeIsPure := by
  intro s s' o c d x b hlen hbytes
  have h := RangeAgrees.alike_decodeAll ⟨hlen, hbytes⟩ d b
  obtain ⟨r, hr, hr'⟩ := h.raised
  simp only [segDecode_eq_verify, verifyChecksum_eq, outputBytes, h.stream.bcu, h.oau, true_and]
  exact ⟨_, by rw [hr, BitVec.or_assoc], by rw [hr', BitVec.or_assoc]⟩

/-- Alike states that come of two states with one DIAG differ in nothing but what those two differ in. -/
theorem Alike.eq_of_frames {s s' t t' : State} (h : Alike s.diag s'.diag t t') (hs' : DatapathOnly s' t')
    (hdiag : s'.diag = s.diag) : t' = { s' with bcu := t.bcu, oau := t.oau, diag := t.diag } := by
  obtain ⟨r, hr, hr'⟩ := h.raised
  have hsame : t'.diag = t.diag := by rw [hr', hr, hdiag]
  unfold DatapathOnly at hs'
  rw [hs', h.stream.bcu, h.oau, hsame]

theorem constructUnits_datapathOnly (o c d b : Nat) (s : State) : DatapathOnly s (constructUnits o c d b s) :=
  (bcConstruct_cursorOnly o c b s).datapath.trans (oaConstruct_datapathOnly d _)

theorem decodeAll_datapathOnly (s : State) : DatapathOnly s (decodeAll s) := tduLoop_datapathOnly _ s

/-- A decode does not read ARG3. -/
theorem decodeAll_arg3 (o c d b : Nat) (s : State) (v : Word) :
    decodeAll (constructUnits o c d b { s with arg3 := v }) =
      { decodeAll (constructUnits o c d b s) with arg3 := v } := by
  have h : RangeAgrees o c s { s with arg3 := v } := ⟨rfl, fun _ _ _ _ => rfl⟩
  have hframe : DatapathOnly s (decodeAll (constructUnits o c d b s)) :=
    (constructUnits_datapathOnly ..).trans (decodeAll_datapathOnly _)
  have hframe' := (constructUnits_datapathOnly o c d b { s with arg3 := v }).trans (decodeAll_datapathOnly _)
  refine ((h.alike_decodeAll d b).eq_of_frames hframe' rfl).trans ?_
  rw [hframe]

/-- What an accepted SEGDEC leaves (R235). -/
theorem exec_segdec_accepted {s : State} (hf : s.fault = false) (hbad : segdecBadArg s = false) :
    exec .segdec s = .next (segdecEffect s) := by
  rw [exec_segdec, unlessFault_run hf, unlessBadArg_good hbad]

/-- SEGDEC as the decode loop, the comparison and the delivery of the bytes. -/
theorem segdecEffect_eq (s : State) :
    segdecEffect s =
      let u := decodeAll (constructUnits s.arg0.toNat s.arg1.toNat s.arg2.toNat s.arg4.toNat s)
      { u with
        csumOk := u.bcu.sum == s.arg3.setWidth 8
        diag := u.diag ||| flagIf (decide (u.bcu.sum ≠ s.arg3.setWidth 8)) .checksumMismatch
        rbuf := outputBytes u
        res0 := s.arg2 } := by
  rw [segdecEffect, segDecode_eq_verify, verifyChecksum_eq]
  rfl

/-- CHECKSUM_MISMATCH is bit 5 of DIAG and no other (R39). -/
theorem flagIf_checksumMismatch_getLsbD (p : Bool) {i : Nat} (hi : i ≠ 5) :
    (flagIf p .checksumMismatch).getLsbD i = false := by
  cases p with
  | false => simp [flagIf]
  | true =>
    change (BitVec.ofNat 16 (2 ^ 5)).getLsbD i = false
    rw [BitVec.getLsbD_ofNat, Nat.testBit_two_pow_of_ne hi.symm, Bool.and_false]

/-- Settles O38: both commands run one decode, and only the comparison reads ARG3. -/
theorem bytesIgnoreDeclaredChecksum : Obligations.BytesIgnoreDeclaredChecksum := by
  intro s v hf hbad
  refine ⟨_, _, exec_segdec_accepted hf hbad, exec_segdec_accepted (s := { s with arg3 := v }) hf hbad, ?_⟩
  rw [segdecEffect_eq, segdecEffect_eq]
  dsimp only
  rw [decodeAll_arg3]
  refine ⟨rfl, rfl, rfl, fun i hi => ?_⟩
  simp only [BitVec.getLsbD_or, flagIf_checksumMismatch_getLsbD _ hi]

/-! ## A decode as a run of steps (log 1) -/

theorem run_succ {M : Host.Core} {s t : M.State} (h : M.step s = .next t) (k : Nat) : M.run (k + 1) s = M.run k t := by
  rw [Host.Core.run, h]

/-- Stepped token by token the machine runs the decode loop and one step more, which leads back to the host port. -/
theorem run_tokenStream : ∀ (n : Nat) {s : State}, s.fetchFrom = .tokenStream → s.oau.wpos ≤ n → ∃ k ≤ n + 1,
    Host.Core.run core k s = .next { decodeAll s with fetchFrom := .hostPort }
  | n, s, hf, hn => by
    cases hd : decodeDone s with
    | true =>
      refine ⟨1, Nat.le_add_left 1 n, ?_⟩
      rw [decodeAll_done hd]
      exact run_succ (M := core) ((step_of_stream hf).trans (if_pos hd)) 0
    | false =>
      have hlt := decodeOneToken_wpos_lt hd
      have hf' : (decodeOneToken s).fetchFrom = .tokenStream := (decodeOneToken_datapathOnly s).fetchFrom.trans hf
      obtain ⟨m, rfl⟩ : ∃ m, n = m + 1 := ⟨n - 1, by omega⟩
      obtain ⟨k, hk, hrun⟩ := run_tokenStream m hf' (by omega)
      refine ⟨k + 1, Nat.succ_le_succ hk, ?_⟩
      rw [decodeAll_succ hd, ← hrun]
      exact run_succ (M := core) ((step_of_stream hf).trans (if_neg (by simp [hd]))) k

/-- The decode loop does not read what the next step runs. -/
theorem decodeAll_fetchFrom {s : State} (h8 : s.bcu.rem ≤ 8) (f : FetchSource) :
    decodeAll { s with fetchFrom := f } = { decodeAll s with fetchFrom := f } := by
  have h : Alike s.diag s.diag s { s with fetchFrom := f } :=
    ⟨.of_archive rfl rfl rfl, h8, rfl, 0, BitVec.or_zero.symm, BitVec.or_zero.symm⟩
  refine (h.decodeAll.eq_of_frames (s' := { s with fetchFrom := f }) (decodeAll_datapathOnly _) rfl).trans ?_
  rw [decodeAll_datapathOnly s]

/-- Settles O36: the run ends where the decode loop does, and SEGDEC adds the comparison and the bytes. -/
theorem decodeIsARunOfTokenSteps : Obligations.DecodeIsARunOfTokenSteps := by
  intro s t hf hbad ht
  have hunits := constructUnits_datapathOnly s.arg0.toNat s.arg1.toNat s.arg2.toNat s.arg4.toNat s
  have h8 := constructUnits_rem s.arg0.toNat s.arg1.toNat s.arg2.toNat s.arg4.toNat s
  have hwpos : (constructUnits s.arg0.toNat s.arg1.toNat s.arg2.toNat s.arg4.toNat s).oau.wpos = s.arg2.toNat := rfl
  rw [exec_segdec_accepted hf hbad, segdecEffect_eq] at ht
  generalize constructUnits s.arg0.toNat s.arg1.toNat s.arg2.toNat s.arg4.toNat s = c at *
  have hframe := hunits.trans (decodeAll_datapathOnly c)
  obtain ⟨k, hk, hrun⟩ := run_tokenStream s.arg2.toNat (s := { c with fetchFrom := .tokenStream }) rfl hwpos.le
  rw [decodeAll_fetchFrom h8] at hrun
  refine ⟨k, _, hk, hrun, ?_, ?_⟩
  · rw [hframe]
  · rw [← Host.Outcome.next.inj ht, ← hframe.fetchFrom]
    rfl

end Sys2Proof.Machine

/-! PROOFS. The statements of 43_container.md about memoisation. What a GETSEG with MEMOIZE leaves is said once
(`CachedAnswer`): the table holds the payload it delivered, so a later GETSEG is answered from the table. -/

namespace Sys2Proof.Machine

/-! ## GETSEG's request, one equation for each of its three cases (R208 to R210) -/

theorem memoHit_memoize {s : State} (h : s.cfg.memoize = true) (d : Descriptor) : memoHit s d = d.cache := if_pos h

theorem getSegment_of_none {s : State} {i : Nat} (hd : s.dtab[i]? = none) :
    getSegment i s = ([], diag .segIndex s) := by
  simp only [getSegment, hd]

theorem getSegment_of_hit {s : State} {i : Nat} {d : Descriptor} {data : List Byte} (hd : s.dtab[i]? = some d)
    (hhit : memoHit s d = some data) : getSegment i s = (data, s) := by
  simp only [getSegment, hd, hhit]

theorem getSegment_of_miss {s : State} {i : Nat} {d : Descriptor} (hd : s.dtab[i]? = some d)
    (hmiss : memoHit s d = none) :
    getSegment i s =
      (outputBytes (decodeDescriptor d s),
       if s.cfg.memoize then cacheResult i (outputBytes (decodeDescriptor d s)) (decodeDescriptor d s)
       else decodeDescriptor d s) := by
  simp only [getSegment, hd, hmiss]

/-- A present entry is the one that the cache is put into (R208). -/
theorem cacheResult_entry {s : State} {i : Nat} {d : Descriptor} (hd : s.dtab[i]? = some d) (data : List Byte) :
    (cacheResult i data s).dtab[i]? = some (d.withCache data) := by
  rw [cacheResult_dtab_withCache, List.getElem?_modify_eq, hd]
  rfl

/-! ## The command (R233) -/

theorem loadLatch_of_none {s : State} {i : Nat} (hd : s.dtab[i]? = none) :
    loadLatch i s = { s with latch := DescLatch.clear } := by
  simp only [loadLatch, hd]

theorem loadLatch_of_some {s : State} {i : Nat} {d : Descriptor} (hd : s.dtab[i]? = some d) :
    loadLatch i s = { s with latch := latchOf d } := by
  simp only [loadLatch, hd]

@[simp] theorem loadLatch_rbuf (i : Nat) (s : State) : (loadLatch i s).rbuf = s.rbuf := by
  unfold loadLatch; split <;> rfl

@[simp] theorem loadLatch_res0 (i : Nat) (s : State) : (loadLatch i s).res0 = s.res0 := by
  unfold loadLatch; split <;> rfl

/-- Outside FAULT GETSEG delivers its request's bytes and loads the latch. -/
theorem exec_getseg_run {s t : State} {data : List Byte} (hf : s.fault = false)
    (hreq : getSegment s.arg0.toNat s = (data, t)) :
    exec .getseg s = .next (loadLatch s.arg0.toNat (deliver data t)) := by
  rw [exec_getseg, unlessFault_run hf, hreq]

/-- An index out of range (R210). -/
theorem exec_getseg_none {s : State} (hf : s.fault = false) (hd : s.dtab[s.arg0.toNat]? = none) :
    exec .getseg s =
      .next { s with
        rbuf := [], res0 := 0, latch := DescLatch.clear, diag := s.diag ||| DiagFlag.segIndex.mask } :=
  (exec_getseg_run hf (getSegment_of_none hd)).trans (congrArg Host.Outcome.next (loadLatch_of_none hd))

/-- An index in range: the latch is the entry that the request leaves in the table (R208, R209). -/
theorem exec_getseg_some {s t : State} {d : Descriptor} {data : List Byte} (hf : s.fault = false)
    (hreq : getSegment s.arg0.toNat s = (data, t)) (hd : t.dtab[s.arg0.toNat]? = some d) :
    exec .getseg s =
      .next { t with rbuf := data, res0 := BitVec.ofNat 32 data.length, latch := latchOf d } :=
  (exec_getseg_run hf hreq).trans (congrArg Host.Outcome.next (loadLatch_of_some hd))

/-- A cached payload is delivered, and the units are not touched (R209). -/
theorem exec_getseg_cached {s : State} {d : Descriptor} {data : List Byte} (hf : s.fault = false)
    (hm : s.cfg.memoize = true) (hd : s.dtab[s.arg0.toNat]? = some d) (hc : d.cache = some data) :
    exec .getseg s =
      .next { s with rbuf := data, res0 := BitVec.ofNat 32 data.length, latch := latchOf d } :=
  exec_getseg_some hf (getSegment_of_hit hd ((memoHit_memoize hm d).trans hc)) hd

/-! ## A repeated GETSEG (R209, R38) -/

/-- What a GETSEG of `i` with MEMOIZE leaves: the table's entry `d` has cached the bytes that it delivered. -/
structure CachedAnswer (i : Nat) (d : Descriptor) (t : State) : Prop where
  fault : t.fault = false
  entry : t.dtab[i]? = some d
  cache : d.cache = some t.rbuf
  res0 : t.res0 = BitVec.ofNat 32 t.rbuf.length
  latch : t.latch = latchOf d

theorem decodeDescriptor_fault (d : Descriptor) (s : State) : (decodeDescriptor d s).fault = s.fault := by
  unfold decodeDescriptor; rw [segDecode_frame]

/-- With MEMOIZE a GETSEG in range leaves the payload cached, whether it decoded it or found it (R208, R209). -/
theorem exec_getseg_cachedAnswer {s : State} (hm : s.cfg.memoize = true) (hf : s.fault = false)
    (hi : s.arg0.toNat < s.dtab.length) :
    ∃ t d, exec .getseg s = .next t ∧ CachedAnswer s.arg0.toNat d t := by
  obtain ⟨d, hd⟩ : ∃ d, s.dtab[s.arg0.toNat]? = some d := ⟨_, List.getElem?_eq_getElem hi⟩
  cases hc : d.cache with
  | some data =>
    exact ⟨_, d, exec_getseg_cached hf hm hd hc, { fault := hf, entry := hd, cache := hc, res0 := rfl, latch := rfl }⟩
  | none =>
    have hreq := getSegment_of_miss hd ((memoHit_memoize hm d).trans hc)
    rw [if_pos hm] at hreq
    have hentry := cacheResult_entry ((decodeDescriptor_dtab d s).symm ▸ hd) (outputBytes (decodeDescriptor d s))
    exact ⟨_, _, exec_getseg_some hf hreq hentry,
      { fault := (decodeDescriptor_fault d s).trans hf, entry := hentry, cache := rfl, res0 := rfl, latch := rfl }⟩

/-- A later GETSEG of it, in any state outside FAULT with the same table, delivers that answer again and does nothing
else. -/
theorem CachedAnswer.repeated {i : Nat} {d : Descriptor} {t v : State} (h : CachedAnswer i d t)
    (hf : v.fault = false) (hm : v.cfg.memoize = true) (hdtab : v.dtab = t.dtab) (harg : v.arg0.toNat = i) :
    exec .getseg v = .next { v with rbuf := t.rbuf, res0 := t.res0, latch := t.latch } := by
  subst harg
  rw [exec_getseg_cached hf hm (hdtab ▸ h.entry) h.cache, h.res0, h.latch]

/-- A GETSEG out of range is idempotent, as DIAG is sticky (R210). -/
theorem exec_getseg_none_twice {s : State} (hf : s.fault = false) (hd : s.dtab[s.arg0.toNat]? = none) :
    ∃ t, exec .getseg s = .next t ∧ exec .getseg t = .next t := by
  refine ⟨_, exec_getseg_none hf hd, ?_⟩
  rw [exec_getseg_none (by exact hf) (by exact hd), BitVec.or_assoc, BitVec.or_self]

/-- With MEMOIZE an immediate second GETSEG changes nothing, in FAULT or out of range either. -/
theorem exec_getseg_twice {s : State} (hm : s.cfg.memoize = true) :
    ∃ t, exec .getseg s = .next t ∧ exec .getseg t = .next t := by
  cases hf : s.fault with
  | true =>
    have hignored : exec .getseg s = .next s := by rw [exec_getseg, unlessFault_fault hf]
    exact ⟨s, hignored, hignored⟩
  | false =>
    by_cases hi : s.arg0.toNat < s.dtab.length
    · obtain ⟨t, d, ht, hans⟩ := exec_getseg_cachedAnswer hm hf hi
      obtain ⟨hcfg, -, harg, -⟩ := hostSide_eq_iff.mp (exec_hostSide ht (by decide))
      exact ⟨t, ht, hans.repeated hans.fault (hcfg ▸ hm) rfl (congrArg _ harg)⟩
    · exact exec_getseg_none_twice hf (List.getElem?_eq_none (Nat.le_of_not_lt hi))

/-- BC_INIT, OA_INIT and CLRDIAG keep the table and the parameters. -/
theorem exec_init_dtab_cfg {s t : State} {i : Instr} (hi : i = .bcInit ∨ i = .oaInit ∨ i = .clrdiag)
    (ht : exec i s = .next t) : t.dtab = s.dtab ∧ t.cfg = s.cfg := by
  have hother : i ≠ .getseg ∧ i ≠ .scan ∧ i ≠ .sreset := by
    rcases hi with rfl | rfl | rfl <;> decide
  obtain ⟨hgetseg, hscan, hreset⟩ := hother
  have hdtab : t.dtab = s.dtab := by simpa [hgetseg, hscan, hreset] using exec_dtab ht
  exact ⟨hdtab, (hostSide_eq_iff.mp (exec_hostSide ht hreset)).1⟩

/-- Settles O47: the first GETSEG leaves a cached answer, and the commands between do not touch the table. -/
theorem getsegTwiceIsOnce : Obligations.GetsegTwiceIsOnce := by
  refine ⟨fun s hm => exec_getseg_twice hm, fun s hm hf hi => ?_⟩
  obtain ⟨t, d, ht, hans⟩ := exec_getseg_cachedAnswer hm hf hi
  have hcfg : t.cfg = s.cfg := (hostSide_eq_iff.mp (exec_hostSide ht (by decide))).1
  refine ⟨t, ht, fun v hv hvcfg hdtab harg => ?_, fun i a0 a1 a2 v hinit hexec hv => ?_⟩
  · exact hans.repeated hv (by rw [hvcfg, hcfg, hm]) hdtab (congrArg _ harg)
  · obtain ⟨hdtab, hvcfg⟩ := exec_init_dtab_cfg hinit hexec
    exact hans.repeated (v := { v with arg0 := s.arg0 }) hv (by rw [hvcfg, hcfg, hm]) hdtab rfl

/-! ## MEMOIZE and the bytes (R209, R327) -/

/-- The decoded bytes depend on the archive only (R182). -/
theorem outputBytes_decodeDescriptor_congr {s t : State} (hm : t.amem = s.amem) (hl : t.archLen = s.archLen)
    (d : Descriptor) : outputBytes (decodeDescriptor d t) = outputBytes (decodeDescriptor d s) := by
  obtain ⟨-, -, -, hbytes, -⟩ := decodeIsPure t s d.offset d.compressedSize.toNat d.decompressedSize.toNat d.checksum
    d.initialBufferLen.toNat hl fun _ _ _ _ => by rw [hm]
  exact hbytes

/-- When the cache is fresh, a request in range is answered by what the segment decodes to, under either MEMOIZE. -/
theorem getSegment_bytes_of_fresh {s : State} {i : Nat} {d : Descriptor} (hd : s.dtab[i]? = some d)
    (hfresh : cacheFresh d s) : (getSegment i s).1 = outputBytes (decodeDescriptor d s) := by
  cases hhit : memoHit s d with
  | some data =>
    rw [getSegment_of_hit hd hhit]
    exact hfresh data (memoHit_eq_some hhit)
  | none => rw [getSegment_of_miss hd hhit]

/-- When the cache is fresh, GETSEG delivers what the segment decodes to. -/
theorem exec_getseg_fresh {s : State} {d : Descriptor} (hf : s.fault = false) (hd : s.dtab[s.arg0.toNat]? = some d)
    (hfresh : cacheFresh d s) :
    ∃ t, exec .getseg s = .next t ∧ t.rbuf = outputBytes (decodeDescriptor d s) ∧
      t.res0 = BitVec.ofNat 32 (outputBytes (decodeDescriptor d s)).length := by
  have hreq : getSegment s.arg0.toNat s = (outputBytes (decodeDescriptor d s), (getSegment s.arg0.toNat s).2) :=
    Prod.ext (getSegment_bytes_of_fresh hd hfresh) rfl
  exact ⟨_, exec_getseg_run hf hreq, loadLatch_rbuf _ _, loadLatch_res0 _ _⟩

/-- The same with other parameters: neither the decode nor the freshness of the cache reads them. -/
theorem exec_getseg_fresh_withConfig {s : State} {d : Descriptor} (hf : s.fault = false)
    (hd : s.dtab[s.arg0.toNat]? = some d) (hfresh : cacheFresh d s) (c : Config) :
    ∃ t, exec .getseg { s with cfg := c } = .next t ∧ t.rbuf = outputBytes (decodeDescriptor d s) ∧
      t.res0 = BitVec.ofNat 32 (outputBytes (decodeDescriptor d s)).length := by
  have hdecode := outputBytes_decodeDescriptor_congr (s := s) (t := { s with cfg := c }) rfl rfl d
  rw [← hdecode]
  exact exec_getseg_fresh hf hd fun data hdata => (hfresh data hdata).trans hdecode.symm

/-- Settles O48: under both settings GETSEG delivers what the segment decodes to. -/
theorem memoizeDoesNotChangeBytes : Obligations.MemoizeDoesNotChangeBytes := by
  intro s d hf hd hfresh
  obtain ⟨t, ht, htbuf, htres⟩ := exec_getseg_fresh_withConfig hf hd hfresh { s.cfg with memoize := true }
  obtain ⟨u, hu, hubuf, hures⟩ := exec_getseg_fresh_withConfig hf hd hfresh { s.cfg with memoize := false }
  exact ⟨t, u, ht, hu, htbuf.trans hubuf.symm, htres.trans hures.symm⟩

end Sys2Proof.Machine

/-! PROOFS. The statements of 44_host_commands.md. The container's scan is said once, by the descriptors that it adds and
the address where it stops (`scanLoop_adds`); what a copy leaves below its write position gives the zero fill of a decode.
Every other command is its unit's closed form behind the FAULT gate and its argument check. -/

namespace Sys2Proof.Machine

/-! ## Housekeeping: SRESET, CLRDIAG, unassigned codes (R243 to R246) -/

/-- Settles O53. -/
theorem sresetEffect : Obligations.SresetEffect := fun s => exec_sreset s

/-- Settles O54. -/
theorem clrdiagEffect : Obligations.ClrdiagEffect := fun s hf => by
  rw [exec_clrdiag, unlessFault_run hf]

/-- Settles O49: the fault depends on no unassigned code. -/
theorem unassignedCodeFaults : Obligations.UnassignedCodeFaults := fun s code hf _ => by
  rw [exec_unassigned, unlessFault_run hf]
  rfl

/-- Every command but SRESET stands behind the FAULT gate (R246). -/
theorem exec_gated {i : Instr} {code : Byte} (hi : encode i = .command code) (hcode : code ≠ 0x00) (s : State) :
    ∃ effect, exec i s = unlessFault s effect := by
  cases i with
  | sraw l => exact Encoded.noConfusion hi
  | sref o => exact Encoded.noConfusion hi
  | refa o => exact Encoded.noConfusion hi
  | refb o => exact Encoded.noConfusion hi
  | refc l o => exact Encoded.noConfusion hi
  | lraw l => exact Encoded.noConfusion hi
  | sreset => exact absurd (Encoded.command.inj hi).symm hcode
  | scan => exact ⟨_, exec_scan s⟩
  | count => exact ⟨_, exec_count s⟩
  | getseg => exact ⟨_, exec_getseg s⟩
  | getdesc => exact ⟨_, exec_getdesc s⟩
  | segdec => exact ⟨_, exec_segdec s⟩
  | bcInit => exact ⟨_, exec_bcInit s⟩
  | bcRead => exact ⟨_, exec_bcRead s⟩
  | bcEof => exact ⟨_, exec_bcEof s⟩
  | oaInit => exact ⟨_, exec_oaInit s⟩
  | oaRaw => exact ⟨_, exec_oaRaw s⟩
  | oaRef => exact ⟨_, exec_oaRef s⟩
  | oaEof => exact ⟨_, exec_oaEof s⟩
  | clrdiag => exact ⟨_, exec_clrdiag s⟩
  | unassigned c => exact ⟨_, exec_unassigned c s⟩

/-- Settles O51. -/
theorem faultIgnoresCommands : Obligations.FaultIgnoresCommands := fun s i code hf hi hcode => by
  obtain ⟨effect, hgated⟩ := exec_gated hi hcode s
  rw [hgated, unlessFault_fault hf]

/-! ## The end tests (R238, R242) -/

theorem oaEof_eq_decide (s : State) : oaEof s = decide (s.oau.wpos ≤ 0) := rfl

/-- A truth value as RES0 gives it: 1 or 0. -/
theorem ofNat_toNat_decide (p : Prop) [Decidable p] : BitVec.ofNat 32 (decide p).toNat = if p then 1 else 0 := by
  by_cases h : p <;> simp [h]

/-- Settles O24: RES0 and the STATUS bits show the same two tests. -/
theorem eofCommandsEffect : Obligations.EofCommandsEffect := by
  intro s hf
  obtain ⟨-, -, -, hbc, hoa, -⟩ := statusAndDiagWords s
  refine ⟨?_, ?_, by rw [hbc, decide_eq_true_iff], by rw [hoa, decide_eq_true_iff]⟩
  · rw [exec_bcEof, unlessFault_run hf, bcEof_eq_decide, setRes0, ofNat_toNat_decide]
  · rw [exec_oaEof, unlessFault_run hf, oaEof_eq_decide, setRes0, ofNat_toNat_decide]

/-! ## The output assembler's commands (R239 to R241) -/

theorem badOutputLength_eq_true {s : State} {n : Nat} : badOutputLength s n = true ↔ s.cfg.omax < n := by
  simp [badOutputLength]

theorem badBitCount_eq_true {n : Nat} : badBitCount n = true ↔ n = 0 ∨ 32 < n := by
  simp [badBitCount]

/-- Settles O25: the constructed buffer lists no cell, so every index reads 0. -/
theorem oaInitEffect : Obligations.OaInitEffect := by
  refine fun s hf => ⟨fun hn => ?_, fun hn => ?_⟩
  · refine ⟨oaConstruct s.arg0.toNat s, ?_, rfl, rfl, fun _ _ => rfl, fun _ _ => rfl⟩
    rw [exec_oaInit, unlessFault_run hf, unlessBadArg_good (badOutputLength_eq_false.mpr hn)]
  · rw [exec_oaInit, unlessFault_run hf, unlessBadArg_bad (badOutputLength_eq_true.mpr hn)]
    rfl

/-- Settles O26: COPYRAW with no header before it. -/
theorem oaRawEffect : Obligations.OaRawEffect := by
  intro s hf h8 hwf
  refine ⟨copyRaw s.arg0.toNat s, ?_, ?_⟩
  · rw [exec_oaRaw, unlessFault_run hf]
  · simpa only [afterBits_zero] using rawCopied_copyRaw h8 hwf 0 s.arg0.toNat

/-- COPYREF whole is a copy behind its offset field (R152). -/
theorem refCopied_copyBackReference {s : State} (h8 : s.bcu.rem ≤ 8) (h : s.oau.omem.wf = true) (n w : Nat) :
    RefCopied w n (bitsToNat (nextBits w s) + 1) s (copyBackReference n w s) := by
  rw [copyBackReference_eq, bcRead_eq h8]
  exact refCopied_copyRef h w n (Nat.le_add_left 1 _)

/-- Settles O27. -/
theorem oaRefEffect : Obligations.OaRefEffect := by
  refine fun s hf h8 hwf => ⟨fun h1 h32 => ?_, fun hbad => ?_⟩
  · refine ⟨_, ?_, refCopied_copyBackReference h8 hwf s.arg0.toNat s.arg1.toNat⟩
    rw [exec_oaRef, unlessFault_run hf, unlessBadArg_good (badBitCount_eq_false.mpr ⟨h1, h32⟩)]
  · rw [exec_oaRef, unlessFault_run hf, unlessBadArg_bad (badBitCount_eq_true.mpr hbad)]
    rfl

/-! ## SEGDEC (R235)

A token stores nothing below the write position that it leaves, so what no token wrote keeps the zero fill (R150, R180). -/

theorem readOutput_rawBytes_below : ∀ (n : Nat) {s : State} {i : Nat}, i < s.oau.wpos - n →
    readOutput i (rawBytes n s) = readOutput i s
  | 0, _, _, _ => rfl
  | n + 1, s, i, hi => by
    have hwpos := (rawByte_wpos s).1
    have hbyte : readOutput i (rawByte s) = readOutput i s := by
      rw [rawByte_state]
      exact Memory.get_set_other _ (by omega) _
    rw [rawBytes, readOutput_rawBytes_below n (by omega), hbyte]

theorem readOutput_refBytes_below (offset : Nat) : ∀ (n : Nat) {s : State} {i : Nat}, i < s.oau.wpos - n →
    readOutput i (refBytes offset n s) = readOutput i s
  | 0, _, _, _ => rfl
  | n + 1, s, i, hi => by
    have hwpos := (refByte_wpos offset s).1
    have hbyte : readOutput i (refByte offset s) = readOutput i s := by
      rw [refByte_eq]
      split <;> exact Memory.get_set_other _ (by omega) _
    rw [refBytes, readOutput_refBytes_below offset n (by omega), hbyte]

theorem readOutput_copyRaw_below {n i : Nat} {s : State} (hi : i < (copyRaw n s).oau.wpos) :
    readOutput i (copyRaw n s) = readOutput i s := by
  rw [copyRaw_wpos] at hi
  rw [copyRaw_eq, raised_if]
  exact readOutput_rawBytes_below _ hi

theorem readOutput_copyRef_below {n offset i : Nat} {s : State} (hi : i < (copyRef n offset s).oau.wpos) :
    readOutput i (copyRef n offset s) = readOutput i s := by
  rw [copyRef_wpos] at hi
  rw [copyRef_eq, raised_if]
  exact readOutput_refBytes_below offset _ hi

theorem readOutput_runToken_below (t : Token) {i : Nat} {s : State} (hi : i < (runToken t s).oau.wpos) :
    readOutput i (runToken t s) = readOutput i s := by
  cases t with
  | sraw l => exact readOutput_copyRaw_below hi
  | sref o => exact readOutput_copyRef_below hi
  | refa o => exact readOutput_copyRef_below hi
  | refb o => exact readOutput_copyRef_below hi
  | refc l o => exact readOutput_copyRef_below hi
  | lraw l => exact readOutput_copyRaw_below hi

/-- The bytes that nothing has written yet still read 0 (R150). -/
def BlankBelow (s : State) : Prop := ∀ i < s.oau.wpos, readOutput i s = 0

theorem BlankBelow.of_oau {s t : State} (h : BlankBelow s) (hoau : t.oau = s.oau) : BlankBelow t := by
  unfold BlankBelow readOutput at *
  rwa [hoau]

theorem BlankBelow.decodeOneToken {s : State} (h : BlankBelow s) : BlankBelow (decodeOneToken s) := by
  have hfetch : BlankBelow (fetchToken s).2 := h.of_oau (fetchToken_cursorOnly s).oau
  intro i hi
  rw [decodeOneToken_eq] at hi ⊢
  rw [readOutput_runToken_below _ hi]
  rw [runToken_wpos] at hi
  exact hfetch i (by omega)

/-- What a decode leaves unwritten is 0 (R180). -/
theorem blankBelow_segDecode (o c d : Nat) (x : Byte) (b : Nat) (s : State) : BlankBelow (segDecode o c d x b s) := by
  have hunits : BlankBelow (constructUnits o c d b s) := fun _ _ => rfl
  rw [segDecode_eq_verify]
  exact (tduLoop_induct (fun _ ht => ht.decodeOneToken) _ hunits).of_oau (verifyChecksum_oau _ _)

theorem segdecBadArg_eq_false {s : State} :
    segdecBadArg s = false ↔
      s.arg0.toNat < 2 ^ (s.cfg.aw + 1) ∧ s.arg1.toNat < 2 ^ s.cfg.aw ∧ s.arg2.toNat ≤ s.cfg.omax := by
  simp only [segdecBadArg, Bool.or_eq_false_iff, badOffset_eq_false, badLength_eq_false, badOutputLength_eq_false,
    and_assoc]

/-- Every byte of the buffer stands in its bytes. -/
theorem outputBytes_getElem? {s : State} {i : Nat} (hi : i < s.oau.len) :
    (outputBytes s)[i]? = some (readOutput i s) := by
  have hlen : i < (outputBytes s).length := by rwa [outputBytes_length]
  rw [List.getElem?_eq_getElem hlen]
  exact congrArg some ((Memory.bytes_getElem _ 0 _ i hlen).trans (congrArg _ (Nat.zero_add i)))

/-- Settles O35. -/
theorem segdecEffect_holds : Obligations.SegdecEffect := by
  refine fun s hf => ⟨fun ho hc hd => ?_, fun hbad => ?_⟩
  · have hlen := segDecode_len s.arg0.toNat s.arg1.toNat s.arg2.toNat (s.arg3.setWidth 8) s.arg4.toNat s
    refine ⟨segdecEffect s, exec_segdec_accepted hf (segdecBadArg_eq_false.mpr ⟨ho, hc, hd⟩), rfl, ?_, ?_, hlen,
      fun i hi => outputBytes_getElem? (hlen.symm ▸ hi), blankBelow_segDecode _ _ _ _ _ s⟩
    · rw [segdecEffect, segDecode_frame]
    · exact (outputBytes_length _).trans hlen
  · have hfault : segdecBadArg s = true := by
      rw [← Bool.not_eq_false, segdecBadArg_eq_false]
      omega
    rw [exec_segdec, unlessFault_run hf, unlessBadArg_bad hfault]
    rfl

/-! ## SCAN (R200 to R206, R231) -/

/-- A 16-bit size can fail the lower bound only (R203, C2). -/
theorem headerValid_eq_true {h : Nat} {hdr : Header} :
    headerValid h hdr = true ↔ 10 ≤ hdr.totalSegmentSize.toNat := by
  refine ⟨headerValid_min, fun hmin => ?_⟩
  have hmax := hdr.totalSegmentSize.isLt
  simp only [headerValid, Bool.and_eq_true, decide_eq_true_eq]
  exact ⟨⟨Int.natCast_nonneg h, hmin⟩, hmax.le.trans (by decide)⟩

/-- `s` after a scan that adds the descriptors `ds` and stops at `p`: with BAD_HEADER when a whole header stands there. -/
def scanAdds (ds : List Descriptor) (p : Nat) (s : State) : State :=
  { s with
    scanPos := p, dtab := s.dtab ++ ds
    diag := s.diag ||| flagIf (decide (p + 10 ≤ s.archLen)) .badHeader }

/-- The table is read off the archive and SCANPOS alone. -/
theorem tableMatches_congr {s t : State} : ∀ {ds : List Descriptor} {i h : Nat}, tableMatches s i h ds →
    t.amem = s.amem → t.archLen = s.archLen → t.scanPos = s.scanPos → tableMatches t i h ds
  | [], _, _, hs, _, _, hp => Eq.trans hs hp.symm
  | d :: ds, i, h, ⟨hin, hmin, hd, hrest⟩, hm, hl, hp => by
    have hheader : headerAt t h = headerAt s h := by rw [headerAt, headerAt, hm]
    rw [tableMatches, hheader, hl]
    exact ⟨hin, hmin, hd, tableMatches_congr hrest hm hl hp⟩

/-- The scan, with a bound for every header that the archive can hold: the descriptors of the valid headers from SCANPOS
on, as far as the first place where there is none. -/
theorem scanLoop_adds : ∀ (n : Nat) {s : State}, s.archLen < s.scanPos + 10 * (n + 1) → ∃ ds p,
    scanLoop n s = scanAdds ds p s ∧ tableMatches (scanAdds ds p s) s.dtab.length s.scanPos ds ∧ ds.length ≤ n ∧
      (p + 10 ≤ s.archLen → (headerAt s p).totalSegmentSize.toNat < 10)
  | n, s, hn => by
    by_cases hshort : s.archLen < s.scanPos + 10
    · refine ⟨[], s.scanPos, ?_, rfl, Nat.zero_le n, fun hin => absurd hin (Nat.not_le.mpr hshort)⟩
      rw [scanLoop_short hshort]
      simp [scanAdds, flagIf, Nat.not_le.mpr hshort]
    · have hin : s.scanPos + 10 ≤ s.archLen := Nat.le_of_not_lt hshort
      have hread := readHeader_inside hin
      obtain ⟨m, rfl⟩ : ∃ m, n = m + 1 := ⟨n - 1, by omega⟩
      cases hv : headerValid s.scanPos (readHeader s.scanPos s).1 with
      | false =>
        have hsize : (headerAt s s.scanPos).totalSegmentSize.toNat < 10 := by
          rwa [hread, ← Bool.not_eq_true, headerValid_eq_true, Nat.not_le] at hv
        refine ⟨[], s.scanPos, ?_, rfl, Nat.zero_le _, fun _ => hsize⟩
        rw [scanLoop_reject hin hv, hread]
        simp [scanAdds, flagIf, hin, diag]
      | true =>
        have hmin : 10 ≤ (headerAt s s.scanPos).totalSegmentSize.toNat := by
          rwa [hread, headerValid_eq_true] at hv
        obtain ⟨ds, p, hloop, hmatch, hlen, hstop⟩ :=
          scanLoop_adds m (s := acceptHeader (headerAt s s.scanPos) s)
            (by rw [acceptHeader_archLen, acceptHeader_scanPos]; omega)
        refine ⟨descriptorOf s.dtab.length s.scanPos (headerAt s s.scanPos) :: ds, p, ?_,
          ⟨hin, hmin, rfl, ?_⟩, Nat.succ_le_succ hlen, hstop⟩
        · rw [scanLoop_accept hin hv, hread, hloop, scanAdds, acceptHeader_dtab, List.append_assoc]
          rfl
        · rw [acceptHeader_dtab, List.length_append, List.length_singleton] at hmatch
          exact tableMatches_congr hmatch rfl rfl rfl

theorem badLength_eq_true {s : State} {n : Nat} : badLength s n = true ↔ 2 ^ s.cfg.aw ≤ n := by
  simp [badLength]

/-- Settles O43: the scan from address 0 of an empty table. -/
theorem scanBuildsTable : Obligations.ScanBuildsTable := by
  refine fun s hf => ⟨fun hn => ?_, fun hn => ?_⟩
  · obtain ⟨ds, p, hloop, hmatch, hlen, hstop⟩ := scanLoop_adds (s.arg0.toNat / Config.hdrLen)
      (s := { s with archLen := s.arg0.toNat, scanPos := 0, dtab := [] }) (by simp only [Config.hdrLen]; omega)
    refine ⟨scanEffect s, ?_, ?_⟩
    · rw [exec_scan, unlessFault_run hf, unlessBadArg_good (badLength_eq_false.mpr hn)]
    · rw [scanEffect, scanArchive, hloop]
      exact ⟨rfl, tableMatches_congr hmatch rfl rfl rfl, hlen, hstop⟩
  · rw [exec_scan, unlessFault_run hf, unlessBadArg_bad (badLength_eq_true.mpr hn)]
    rfl

/-! ## COUNT, GETDESC and GETSEG (R232 to R234) -/

/-- Settles O44. -/
theorem countEffect : Obligations.CountEffect := fun s hf => by
  rw [exec_count, unlessFault_run hf]
  rfl

/-- Settles O45. -/
theorem getdescEffect : Obligations.GetdescEffect := by
  refine fun s hf => ⟨fun d hd => ?_, fun hout => ?_⟩
  · have hin : s.arg0.toNat < s.segCount := (List.getElem?_eq_some_iff.mp hd).1
    rw [exec_getdesc, unlessFault_run hf, if_pos hin, loadLatch_of_some hd]
    rfl
  · have hbeyond : ¬ s.arg0.toNat < s.segCount := Nat.not_lt.mpr hout
    have hnone : (diag .segIndex s).dtab[s.arg0.toNat]? = none := List.getElem?_eq_none hout
    rw [exec_getdesc, unlessFault_run hf, if_neg hbeyond, loadLatch_of_none hnone]
    rfl

/-- A payload kept for a descriptor of the table replaces its cache (R208). -/
theorem cacheResult_eq_set {s : State} {i : Nat} {d : Descriptor} (hd : s.dtab[i]? = some d) (data : List Byte) :
    cacheResult i data s = { s with dtab := s.dtab.set i (d.withCache data) } := by
  have hdtab : (cacheResult i data s).dtab = s.dtab.set i (d.withCache data) := by
    rw [cacheResult_dtab_withCache, List.modify_eq_set_getElem?, hd]
    rfl
  rw [← hdtab]
  rfl

/-- A GETSEG that decodes (R208): the segment's bytes are delivered and, with MEMOIZE, kept. -/
theorem exec_getseg_decoded {s : State} {d : Descriptor} (hf : s.fault = false)
    (hd : s.dtab[s.arg0.toNat]? = some d) (hc : d.cache = none) :
    exec .getseg s =
      .next { decodeDescriptor d s with
        dtab := if s.cfg.memoize then s.dtab.set s.arg0.toNat (d.withCache (outputBytes (decodeDescriptor d s)))
                else s.dtab
        rbuf := outputBytes (decodeDescriptor d s)
        res0 := d.decompressedSize.setWidth 32
        latch := { latchOf d with cached := s.cfg.memoize } } := by
  have hmiss : memoHit s d = none := by simp [memoHit, hc]
  have hreq := getSegment_of_miss hd hmiss
  have hkept : (decodeDescriptor d s).dtab[s.arg0.toNat]? = some d := by rwa [decodeDescriptor_dtab]
  have hres : BitVec.ofNat 32 (outputBytes (decodeDescriptor d s)).length = d.decompressedSize.setWidth 32 := by
    rw [outputBytes_decodeDescriptor_length, BitVec.ofNat_toNat]
  cases hm : s.cfg.memoize with
  | true =>
    rw [if_pos hm] at hreq
    rw [exec_getseg_some hf hreq (cacheResult_entry hkept _), hres, cacheResult_eq_set hkept, decodeDescriptor_dtab]
    rfl
  | false =>
    rw [if_neg (by simp [hm])] at hreq
    have hlatch : latchOf d = { latchOf d with cached := false } := by simp [latchOf, hc]
    rw [exec_getseg_some hf hreq hkept, hres, ← hlatch, if_neg (by decide), ← decodeDescriptor_dtab d s]

/-- Settles O46. -/
theorem getsegEffect : Obligations.GetsegEffect := by
  refine fun s hf => ⟨fun hout => ?_, fun d data hd hm hc => ?_, fun d hd hc => ?_⟩
  · exact exec_getseg_none hf (List.getElem?_eq_none hout)
  · exact exec_getseg_cached hf hm hd hc
  · refine ⟨_, _, rfl, exec_getseg_decoded hf hd hc, ?_⟩
    rw [decodeDescriptor, segDecode_frame]
    rfl

end Sys2Proof.Machine

/-! PROOFS. The statements of 45_reference_encoder.md. The encoder's tokens copy literals only, so a decode of its stream is
told by one relation (`LiteralsCopied`): the bits consumed, and the literals that now stand, reversed, before the bytes
already written. One raw token has it, the loop over the emitted tokens adds it up, and the round trips read it off. -/

namespace Sys2Proof.Machine

/-! ## The raw tokens of a literal sequence (R119, R261) -/

theorem rawTake_le_max (r : Nat) : rawTake r ≤ 264 := by
  unfold rawTake
  split <;> omega

/-- The first token takes its literals, and the other tokens carry the rest. -/
theorem rawTokens_succ {bs : List Byte} (h : bs ≠ []) (fuel : Nat) :
    rawTokens (fuel + 1) bs =
      (rawToken (bs.take (rawTake bs.length)), bs.take (rawTake bs.length))
        :: rawTokens fuel (bs.drop (rawTake bs.length)) := by
  rw [rawTokens, if_neg (by simpa using h)]

/-- A raw token copies as many literals as it was made of (R104, R109). -/
theorem runToken_rawToken {lits : List Byte} (hpos : 0 < lits.length) (hmax : lits.length ≤ 264) (s : State) :
    runToken (rawToken lits) s = copyRaw lits.length s := by
  unfold rawToken
  split
  · have hlen : srawLen (BitVec.ofNat 3 (lits.length - 1)) = lits.length := by
      rw [srawLen, BitVec.toNat_ofNat]; omega
    rw [runToken, hlen]
  · have hlen : lrawLen (BitVec.ofNat 8 (lits.length - 9)) = lits.length := by
      rw [lrawLen, BitVec.toNat_ofNat]; omega
    rw [runToken, hlen]

/-- The literals it takes from the stream are as many, when they fit (R151). -/
theorem tokenLiterals_rawToken {lits : List Byte} (hpos : 0 < lits.length) (hmax : lits.length ≤ 264) {s : State}
    (hfit : lits.length ≤ s.oau.wpos) : tokenLiterals (rawToken lits) s = literalsRead lits.length s := by
  unfold rawToken
  split
  · have hlen : min (srawLen (BitVec.ofNat 3 (lits.length - 1))) s.oau.wpos = lits.length := by
      rw [srawLen, BitVec.toNat_ofNat]; omega
    rw [tokenLiterals, hlen]
  · have hlen : min (lrawLen (BitVec.ofNat 8 (lits.length - 9))) s.oau.wpos = lits.length := by
      rw [lrawLen, BitVec.toNat_ofNat]; omega
    rw [tokenLiterals, hlen]

/-! ## How many bits a buffer takes (R263) -/

theorem literalBits_length (lits : List Byte) : (literalBits lits).length = 8 * lits.length := by
  simp [literalBits, List.length_flatMap, Nat.mul_comm]

/-- The bits of `n` literals by raw tokens: long ones of 264, and one for what is left over. -/
def rawBitCount (n : Nat) : Nat :=
  2123 * (n / 264) +
    if n % 264 = 0 then 0 else if n % 264 ≤ 8 then 5 + 8 * (n % 264) else 11 + 8 * (n % 264)

theorem tokenBits_rawToken_length (lits : List Byte) :
    (tokenBits (rawToken lits, lits)).length = (if lits.length ≤ 8 then 5 else 11) + 8 * lits.length := by
  rw [tokenBits, List.length_append, literalBits_length, rawToken]
  split <;> simp [encodeToken]

/-- The next token is the last one, or a long one of 264 literals. -/
theorem rawBitCount_take {n : Nat} (h : 0 < n) :
    (if rawTake n ≤ 8 then 5 else 11) + 8 * rawTake n + rawBitCount (n - rawTake n) = rawBitCount n := by
  by_cases hlast : n ≤ 264
  · have htake : rawTake n = n := by unfold rawTake; split <;> omega
    have hnone : rawBitCount 0 = 0 := rfl
    rw [htake, Nat.sub_self, hnone, rawBitCount]
    split_ifs <;> omega
  · have htake : rawTake n = 264 := by unfold rawTake; split <;> omega
    have hdiv : n / 264 = (n - 264) / 264 + 1 := by omega
    have hmod : n % 264 = (n - 264) % 264 := by omega
    rw [htake, if_neg (by decide), rawBitCount, rawBitCount, hdiv, hmod]
    omega

theorem rawTokens_bits_length : ∀ (fuel : Nat) {bs : List Byte}, bs.length ≤ fuel →
    ((rawTokens fuel bs).flatMap tokenBits).length = rawBitCount bs.length
  | fuel, [], _ => by rw [rawTokens_nil]; rfl
  | fuel + 1, b :: bs, h => by
    have hne : 0 < (b :: bs).length := Nat.succ_pos _
    obtain ⟨hpos, hle⟩ := rawTake_pos hne
    have hrest : ((b :: bs).drop (rawTake (b :: bs).length)).length ≤ fuel := by rw [List.length_drop]; omega
    rw [rawTokens_succ (List.cons_ne_nil b bs), List.flatMap_cons, List.length_append, tokenBits_rawToken_length,
      rawTokens_bits_length fuel hrest, List.length_drop, List.length_take_of_le hle, rawBitCount_take hne]

theorem encodeBits_length (buffer : List Byte) : (encodeBits buffer).length = rawBitCount buffer.length := by
  rw [encodeBits, emittedTokens, rawTokens_bits_length _ (List.length_reverse ..).le, List.length_reverse]

theorem packBytes_length : ∀ (n : Nat) (bits : List Bool), (packBytes n bits).length = n
  | 0, _ => rfl
  | n + 1, bits => congrArg Nat.succ (packBytes_length n (bits.drop 8))

theorem encodePayload_length (buffer : List Byte) :
    (encodePayload buffer).length = ((encodeBits buffer).length + 7) / 8 := by
  rw [encodePayload, packTail, List.length_reverse, packBytes_length]

theorem encodable_iff {buffer : List Byte} :
    encodable buffer = true ↔ buffer.length ≤ 65535 ∧ (encodePayload buffer).length + 10 ≤ 65535 := by
  rw [encodable, Bool.and_eq_true, decide_eq_true_eq, decide_eq_true_eq]

/-- Settles O42: 65185 literals are 246 long tokens of 264 and one of 241, 524197 bits in 65525 bytes; one more needs
another byte. -/
theorem largestEncodableBuffer : Obligations.LargestEncodableBuffer := by
  intro buffer
  rw [encodable_iff, encodePayload_length, encodeBits_length, rawBitCount]
  split_ifs <;> omega

/-! ## Literals of the stream (R111) -/

/-- The bits at the front of the stream are the next ones. -/
theorem nextBits_of_streamBits {s : State} {xs rest : List Bool} (h : streamBits s = xs ++ rest) :
    nextBits xs.length s = xs := by
  rw [nextBits, h, List.append_assoc, List.take_left' rfl]

theorem streamBits_afterBits {s : State} (h8 : s.bcu.rem ≤ 8) (n : Nat) :
    streamBits (afterBits n s) = (streamBits s).drop n := by
  rw [← bcRead_state, streamBits_bcRead n h8]

/-- Past the bits at the front the stream goes on. -/
theorem streamBits_afterBits_append {s : State} (h8 : s.bcu.rem ≤ 8) {xs rest : List Bool}
    (h : streamBits s = xs ++ rest) : streamBits (afterBits xs.length s) = rest := by
  rw [streamBits_afterBits h8, h, List.drop_left' rfl]

theorem SameStream.streamBits {s t : State} (h : SameStream s t) : streamBits t = streamBits s := by
  rw [Machine.streamBits, Machine.streamBits, h.bcu, h.bytesBelow le_rfl]

theorem SameStream.bcRead_fst {s t : State} (h : SameStream s t) (h8 : s.bcu.rem ≤ 8) (n : Nat) :
    (bcRead n t).1 = (bcRead n s).1 := by
  rw [bcRead_value n h8, bcRead_value n (h.bcu ▸ h8), h.nextBits]

theorem literalsRead_succ (n : Nat) (s : State) :
    literalsRead (n + 1) s = BitVec.ofNat 8 (bcRead 8 s).1 :: literalsRead n (afterBits 8 s) := by
  rw [literalsRead, ← bcRead_state]

/-- The literals that come next are read as themselves (R111, R132). -/
theorem literalsRead_of_streamBits : ∀ (lits : List Byte) {s : State} {rest : List Bool}, s.bcu.rem ≤ 8 →
    streamBits s = literalBits lits ++ rest → literalsRead lits.length s = lits
  | [], _, _, _, _ => rfl
  | b :: lits, s, rest, h8, h => by
    have hsplit : streamBits s = natToBits 8 b.toNat ++ (literalBits lits ++ rest) := by
      rw [h, literalBits, List.flatMap_cons, List.append_assoc]
      rfl
    have hvalue := nextBits_of_streamBits hsplit
    have hrest := streamBits_afterBits_append h8 hsplit
    rw [natToBits_length] at hvalue hrest
    rw [List.length_cons, literalsRead_succ, bcRead_value 8 h8, hvalue, bitsToNat_field, BitVec.ofNat_toNat,
      BitVec.setWidth_eq, literalsRead_of_streamBits lits (afterBits_rem 8 h8) hrest]

/-- Reading literals does not depend on the output assembler. -/
theorem literalsRead_oau : ∀ (n : Nat) {s : State}, s.bcu.rem ≤ 8 → ∀ o : Oau,
    literalsRead n { s with oau := o } = literalsRead n s
  | 0, _, _, _ => rfl
  | n + 1, s, h8, o => by
    have hstream : SameStream s { s with oau := o } := .of_archive rfl rfl rfl
    rw [literalsRead_succ, literalsRead_succ, hstream.bcRead_fst h8, afterBits_oau,
      literalsRead_oau n (afterBits_rem 8 h8)]

/-! ## The bytes already written -/

/-- A write below a range is not seen in it. -/
theorem Memory.bytes_set_below {m : Memory} {a : Nat} (v : Byte) : ∀ {lo : Nat} (n : Nat), a < lo →
    (m.set a v).bytes lo n = m.bytes lo n
  | _, 0, _ => rfl
  | lo, n + 1, h => by
    rw [Memory.bytes, Memory.bytes, Memory.get_set_other v (Nat.ne_of_gt h),
      Memory.bytes_set_below v n (Nat.lt_succ_of_lt h)]

/-- The part of the output buffer at and above the write position. -/
def writtenBytes (s : State) : List Byte := s.oau.omem.bytes s.oau.wpos (s.oau.len - s.oau.wpos)

/-- A freshly constructed buffer has nothing written (R150). -/
theorem writtenBytes_oaConstruct (n : Nat) (s : State) : writtenBytes (oaConstruct n s) = [] := by
  rw [writtenBytes, oaConstruct_oau, Nat.sub_self, Memory.bytes]

/-- A buffer that is full has been written whole (R153). -/
theorem outputBytes_of_full {s : State} (h : s.oau.wpos = 0) : outputBytes s = writtenBytes s := by
  rw [outputBytes, writtenBytes, h, Nat.sub_zero]

/-- One iteration of COPYRAW puts the next literal before the bytes already written (R151). -/
theorem writtenBytes_rawByte {s : State} (h8 : s.bcu.rem ≤ 8) (hwf : s.oau.omem.wf = true) (hpos : 0 < s.oau.wpos)
    (hlen : s.oau.wpos ≤ s.oau.len) :
    writtenBytes (rawByte s) = BitVec.ofNat 8 (bcRead 8 s).1 :: writtenBytes s := by
  have hstream : SameStream s (oaRetreat s) := .of_archive rfl rfl rfl
  have hcount : s.oau.len - (s.oau.wpos - 1) = s.oau.len - s.oau.wpos + 1 := by omega
  have hnext : s.oau.wpos - 1 + 1 = s.oau.wpos := by omega
  rw [rawByte_state, hstream.bcRead_fst h8]
  simp only [writtenBytes, hcount, Memory.bytes, hnext, Memory.get_set_same hwf,
    Memory.bytes_set_below _ _ (show s.oau.wpos - 1 < s.oau.wpos by omega)]

/-! ## Literals copied -/

/-- `t` is `s` after `n` bits that carried the literals `lits`: they are consumed, and the literals stand before the bytes
already written, the first one highest. -/
structure LiteralsCopied (n : Nat) (lits : List Byte) (s t : State) : Prop where
  state : t = { afterBits n s with oau := t.oau }
  len : t.oau.len = s.oau.len
  wpos : t.oau.wpos + lits.length = s.oau.wpos
  wf : t.oau.omem.wf = true
  written : writtenBytes t = lits.reverse ++ writtenBytes s

/-- No bits carry no literals. -/
theorem LiteralsCopied.nothing {s : State} (hwf : s.oau.omem.wf = true) : LiteralsCopied 0 [] s s :=
  ⟨by rw [afterBits_zero], rfl, rfl, hwf, rfl⟩

/-- Nor do the bits of a header. -/
theorem LiteralsCopied.header {n : Nat} {s : State} (hwf : s.oau.omem.wf = true) :
    LiteralsCopied n [] s (afterBits n s) :=
  ⟨rfl, rfl, rfl, hwf, rfl⟩

theorem LiteralsCopied.trans {m n : Nat} {xs ys : List Byte} {s t u : State} (h : LiteralsCopied m xs s t)
    (k : LiteralsCopied n ys t u) : LiteralsCopied (m + n) (xs ++ ys) s u where
  state := by
    rw [k.state, h.state, afterBits_oau, afterBits_afterBits]
  len := k.len.trans h.len
  wpos := by
    have hs := h.wpos
    have ht := k.wpos
    rw [List.length_append]
    omega
  wf := k.wf
  written := by rw [k.written, h.written, List.reverse_append, List.append_assoc]

theorem LiteralsCopied.rem {n : Nat} {lits : List Byte} {s t : State} (h : LiteralsCopied n lits s t)
    (h8 : s.bcu.rem ≤ 8) : t.bcu.rem ≤ 8 := by
  rw [h.state]
  exact afterBits_rem n h8

/-- What stands behind the bits consumed comes next. -/
theorem LiteralsCopied.streamBits {lits : List Byte} {s t : State} {xs rest : List Bool}
    (h : LiteralsCopied xs.length lits s t) (h8 : s.bcu.rem ≤ 8) (hs : streamBits s = xs ++ rest) :
    streamBits t = rest := by
  have hstream : SameStream (afterBits xs.length s) t := by
    rw [h.state]
    exact .of_archive rfl rfl rfl
  rw [hstream.streamBits, streamBits_afterBits_append h8 hs]

theorem literalsCopied_rawByte {s : State} (h8 : s.bcu.rem ≤ 8) (hwf : s.oau.omem.wf = true) (hpos : 0 < s.oau.wpos)
    (hlen : s.oau.wpos ≤ s.oau.len) : LiteralsCopied 8 [BitVec.ofNat 8 (bcRead 8 s).1] s (rawByte s) where
  state := by rw [rawByte_state]
  len := (rawByte_wpos s).2
  wpos := by
    rw [(rawByte_wpos s).1]
    exact Nat.sub_add_cancel hpos
  wf := rawByte_wf hwf
  written := writtenBytes_rawByte h8 hwf hpos hlen

/-- The loop of COPYRAW copies the literals that come next (R151). -/
theorem literalsCopied_rawBytes : ∀ (n : Nat) {s : State}, s.bcu.rem ≤ 8 → s.oau.omem.wf = true → n ≤ s.oau.wpos →
    s.oau.wpos ≤ s.oau.len → LiteralsCopied (8 * n) (literalsRead n s) s (rawBytes n s)
  | 0, _, _, hwf, _, _ => .nothing hwf
  | n + 1, s, h8, hwf, hn, hlen => by
    have hbyte := literalsCopied_rawByte h8 hwf (Nat.lt_of_lt_of_le n.succ_pos hn) hlen
    have hwpos := hbyte.wpos
    have hlen' := hbyte.len
    rw [List.length_singleton] at hwpos
    have hrest := literalsCopied_rawBytes n (hbyte.rem h8) hbyte.wf (by omega) (by omega)
    have hlits : literalsRead n (rawByte s) = literalsRead n (afterBits 8 s) := by
      rw [hbyte.state]
      exact literalsRead_oau n (afterBits_rem 8 h8) _
    rw [Nat.mul_succ, Nat.add_comm, literalsRead_succ, ← hlits]
    exact hbyte.trans hrest

/-! ## The emitted tokens, one after another (R262, R263) -/

theorem tokenBits_ne_nil (t : Token) (lits : List Byte) : tokenBits (t, lits) ≠ [] := by
  cases t <;> simp [tokenBits, encodeToken]

/-- While bits and space are left the loop goes on (R170). -/
theorem decodeDone_of_stream {s : State} (hspace : 0 < s.oau.wpos) (hbits : streamBits s ≠ []) :
    decodeDone s = false := by
  refine decodeDone_eq_false.mpr ⟨hspace, fun hrem => ?_⟩
  by_contra hpos
  have hnone : s.bcu.pos.toNat = 0 := by omega
  exact hbits (by simp [streamBits, hrem, hnone, bytesBelow])

/-- A raw token at the front of the stream, which the space left holds: the loop goes on with it, it takes its literals,
and they are copied. -/
theorem rawToken_decoded {s : State} {lits : List Byte} {rest : List Bool} (h8 : s.bcu.rem ≤ 8)
    (hwf : s.oau.omem.wf = true) (hlen : s.oau.wpos ≤ s.oau.len) (hpos : 0 < lits.length) (hmax : lits.length ≤ 264)
    (hfit : lits.length ≤ s.oau.wpos) (hs : streamBits s = tokenBits (rawToken lits, lits) ++ rest) :
    decodeDone s = false ∧ (fetchToken s).1 = rawToken lits ∧
      tokenLiterals (fetchToken s).1 (fetchToken s).2 = lits ∧
      LiteralsCopied (tokenBits (rawToken lits, lits)).length lits s (decodeOneToken s) := by
  have hsplit : streamBits s = encodeToken (rawToken lits) ++ (literalBits lits ++ rest) := by
    rw [hs, tokenBits, List.append_assoc]
  have hfetch := fetchToken_of_header h8 (nextBits_of_streamBits hsplit)
  have hread : literalsRead lits.length (afterBits (encodeToken (rawToken lits)).length s) = lits :=
    literalsRead_of_streamBits lits (afterBits_rem _ h8) (streamBits_afterBits_append h8 hsplit)
  have hcopy := literalsCopied_rawBytes lits.length (s := afterBits (encodeToken (rawToken lits)).length s)
    (afterBits_rem _ h8) hwf hfit hlen
  have hnoclamp : ¬ s.oau.wpos < lits.length := Nat.not_lt.mpr hfit
  refine ⟨decodeDone_of_stream (by omega) ?_, by rw [hfetch], ?_, ?_⟩
  · rw [hs]
    exact List.append_ne_nil_of_left_ne_nil (tokenBits_ne_nil _ _) _
  · rw [hfetch, tokenLiterals_rawToken hpos hmax (by exact hfit), hread]
  · rw [decodeOneToken_eq, hfetch, runToken_rawToken hpos hmax, copyRaw, if_neg (by exact hnoclamp), tokenBits,
      List.length_append, literalBits_length]
    rw [hread] at hcopy
    exact (LiteralsCopied.header hwf).trans hcopy

/-- The loop over the raw tokens of `bs`, with space for just these literals: it runs those tokens and copies the literals
(R261, R170). -/
theorem rawTokens_decoded (fuel : Nat) {bs : List Byte} {s : State} {rest : List Bool} (hfuel : bs.length ≤ fuel)
    (h8 : s.bcu.rem ≤ 8) (hwf : s.oau.omem.wf = true) (hlen : s.oau.wpos ≤ s.oau.len) (hwpos : s.oau.wpos = bs.length)
    (hs : streamBits s = (rawTokens fuel bs).flatMap tokenBits ++ rest) :
    tokensRun fuel s = rawTokens fuel bs ∧
      LiteralsCopied ((rawTokens fuel bs).flatMap tokenBits).length bs s (tduLoop fuel s) := by
  induction fuel generalizing bs s with
  | zero =>
    obtain rfl : bs = [] := List.length_eq_zero_iff.mp (Nat.le_zero.mp hfuel)
    exact ⟨rfl, .nothing hwf⟩
  | succ fuel ih =>
    by_cases hbs : bs = []
    · subst hbs
      have hdone := decodeDone_of_full hwpos
      rw [tokensRun_done hdone, tduLoop_done hdone, rawTokens_nil]
      exact ⟨rfl, .nothing hwf⟩
    · obtain ⟨htake, hle⟩ := rawTake_pos (List.length_pos_iff.mpr hbs)
      have hmax := rawTake_le_max bs.length
      have hlits := List.length_take_of_le hle
      have hdrop := List.length_drop (i := rawTake bs.length) (l := bs)
      rw [rawTokens_succ hbs, List.flatMap_cons] at hs ⊢
      rw [List.append_assoc] at hs
      obtain ⟨hgo, htoken, hown, hcopy⟩ := rawToken_decoded h8 hwf hlen (by omega) (by omega) (by omega) hs
      have hspace := hcopy.wpos
      have hsame := hcopy.len
      obtain ⟨htokens, hrest⟩ := ih (by omega) (hcopy.rem h8) hcopy.wf (by omega) (by omega) (hcopy.streamBits h8 hs)
      have hboth := hcopy.trans hrest
      rw [List.take_append_drop] at hboth
      rw [tokensRun_succ hgo, tduLoop_succ hgo, hown, htoken, htokens, List.length_append]
      exact ⟨rfl, hboth⟩

/-! ## A decode of an encoded buffer (R268) -/

/-- Both units constructed over an encoded buffer at `base`, with the encoder's header fields (R265, R266). -/
def encodedUnits (base : Nat) (buffer : List Byte) (s : State) : State :=
  constructUnits base (encodePayload buffer).length buffer.length encodeInitialBufferLen s

theorem streamBits_encodedUnits {s : State} {base : Nat} {buffer : List Byte}
    (h : Holds s base (encodePayload buffer)) :
    ∃ pad, streamBits (encodedUnits base buffer s) = encodeBits buffer ++ pad := by
  have hstream : SameStream (bcConstruct base (encodePayload buffer).length encodeInitialBufferLen s)
      (encodedUnits base buffer s) := .of_archive rfl rfl rfl
  exact ⟨_, hstream.streamBits.trans (streamBits_packTail h)⟩

/-- The decode runs the emitted tokens, and they copy the buffer, last byte first (R261, R262). -/
theorem emittedTokens_decoded {s : State} {base : Nat} {buffer : List Byte} (h : Holds s base (encodePayload buffer)) :
    tokensRun buffer.length (encodedUnits base buffer s) = emittedTokens buffer ∧
      LiteralsCopied (encodeBits buffer).length buffer.reverse (encodedUnits base buffer s)
        (decodeAll (encodedUnits base buffer s)) := by
  obtain ⟨pad, hs⟩ := streamBits_encodedUnits h
  exact rawTokens_decoded buffer.length (List.length_reverse ..).le (constructUnits_rem ..) rfl le_rfl
    (List.length_reverse ..).symm hs

theorem literalsCopied_encoded {s : State} {base : Nat} {buffer : List Byte}
    (h : Holds s base (encodePayload buffer)) :
    LiteralsCopied (encodeBits buffer).length buffer.reverse (encodedUnits base buffer s)
      (decodeAll (encodedUnits base buffer s)) :=
  (emittedTokens_decoded h).2

/-- The output is full, and it is the buffer. -/
theorem outputBytes_encoded {s : State} {base : Nat} {buffer : List Byte} (h : Holds s base (encodePayload buffer)) :
    (decodeAll (encodedUnits base buffer s)).oau.wpos = 0 ∧
      outputBytes (decodeAll (encodedUnits base buffer s)) = buffer := by
  have hcopy := literalsCopied_encoded h
  have hspace : (encodedUnits base buffer s).oau.wpos = buffer.length := rfl
  have hfull : (decodeAll (encodedUnits base buffer s)).oau.wpos = 0 := by
    have hwpos := hcopy.wpos
    rw [hspace, List.length_reverse] at hwpos
    omega
  have hblank : writtenBytes (encodedUnits base buffer s) = [] := writtenBytes_oaConstruct _ _
  rw [outputBytes_of_full hfull, hcopy.written, hblank, List.reverse_reverse, List.append_nil]
  exact ⟨hfull, rfl⟩

/-! ## The cursor at the end of it: every payload byte pulled, the pad bits left (R268 item 1) -/

/-- The cursor primed with eight bits of a payload of `p + 1` bytes, after so many bits that only `k` of the last byte are
left. -/
theorem cursorAfter_lastByte {n k p : Nat} {s : State} (hrem : s.bcu.rem = 8) (hpos : s.bcu.pos = (p : Int))
    (hn : n + k = 8 + 8 * p) (hk : k < 8) : (cursorAfter n s).pos = 0 ∧ (cursorAfter n s).rem = k := by
  rcases Nat.eq_zero_or_pos p with rfl | hp
  · rw [cursorAfter_buffered (by omega)]
    exact ⟨hpos, by dsimp only; omega⟩
  · rw [cursorAfter_pulled (p := p) (k := k) (by omega) hk hp (by omega)]
    exact ⟨by dsimp only; omega, rfl⟩

/-- A read of bits that are there, from a range inside the archive, raises nothing. -/
theorem readDiag_eq_zero {n : Nat} {s : State} (hin : (s.bcu.base : Int) + s.bcu.pos ≤ s.archLen)
    (hleft : n ≤ bitsLeft s) : readDiag n s = 0 := by
  simp [readDiag, flagIf, Int.not_lt.mpr hin, Nat.not_lt.mpr hleft]

theorem encodeBits_pos {buffer : List Byte} (h : buffer ≠ []) : 0 < (encodeBits buffer).length := by
  have hpos := List.length_pos_iff.mpr h
  rw [encodeBits_length, rawBitCount]
  split_ifs <;> omega

/-- The cursor's range is the payload. -/
theorem encodedUnits_range (base : Nat) (buffer : List Byte) (s : State) :
    (encodedUnits base buffer s).bcu.base = base ∧
      (encodedUnits base buffer s).bcu.len = (encodePayload buffer).length := by
  rw [encodedUnits, constructUnits, oaConstruct_bcu]
  rcases Nat.eq_zero_or_pos (encodePayload buffer).length with hz | hlen
  · rw [hz, bcConstruct_empty]
    exact ⟨rfl, rfl⟩
  · rw [bcConstruct_bcu hlen]
    exact ⟨rfl, rfl⟩

/-- The units over an encoded buffer that is not empty: the last byte primed whole, nothing raised (R130). -/
theorem encodedUnits_primed {s : State} {base : Nat} {buffer : List Byte} (h : Holds s base (encodePayload buffer))
    (hne : buffer ≠ []) :
    (encodedUnits base buffer s).bcu.pos = (((encodePayload buffer).length - 1 : Nat) : Int) ∧
      (encodedUnits base buffer s).bcu.rem = 8 ∧ (encodedUnits base buffer s).diag = s.diag := by
  have hbits := encodeBits_pos hne
  have hlen : 1 ≤ (encodePayload buffer).length := by rw [encodePayload_length]; omega
  have hin : ¬ s.archLen < base + (encodePayload buffer).length := Nat.not_lt.mpr h.1
  have hdiag : (encodedUnits base buffer s).diag = s.diag := by
    rw [encodedUnits, constructUnits, oaConstruct_diag, bcConstruct_primed hlen]
    simp [flagIf, hin, encodeInitialBufferLen]
  have hbcu : (encodedUnits base buffer s).bcu = _ := bcConstruct_bcu hlen base encodeInitialBufferLen s
  rw [hbcu]
  exact ⟨rfl, rfl, hdiag⟩

/-- Every payload byte is pulled, only the pad bits are left, and nothing is raised. -/
theorem encoded_consumed {s : State} {base : Nat} {buffer : List Byte} (h : Holds s base (encodePayload buffer))
    (hne : buffer ≠ []) :
    (decodeAll (encodedUnits base buffer s)).diag = s.diag ∧
      (decodeAll (encodedUnits base buffer s)).bcu.pos = 0 ∧
      (decodeAll (encodedUnits base buffer s)).bcu.rem = (8 - (encodeBits buffer).length % 8) % 8 := by
  have hbits := encodeBits_pos hne
  have hlen := encodePayload_length buffer
  have hin := h.1
  obtain ⟨hbase, -⟩ := encodedUnits_range base buffer s
  obtain ⟨hpos, hrem, hdiag⟩ := encodedUnits_primed h hne
  have harch : (encodedUnits base buffer s).archLen = s.archLen := (constructUnits_datapathOnly ..).archLen
  obtain ⟨hend, hpad⟩ := cursorAfter_lastByte (n := (encodeBits buffer).length)
    (k := (8 - (encodeBits buffer).length % 8) % 8) hrem hpos (by omega) (by omega)
  have hclean : readDiag (encodeBits buffer).length (encodedUnits base buffer s) = 0 := by
    refine readDiag_eq_zero ?_ ?_
    · rw [hbase, hpos, harch]; omega
    · rw [bitsLeft, hrem, hpos, Int.toNat_natCast]; omega
  rw [(literalsCopied_encoded h).state]
  refine ⟨?_, hend, hpad⟩
  rw [afterBits]
  dsimp only
  rw [hclean, hdiag]
  exact BitVec.or_zero

/-! ## The checksum (R265, R268 item 2) -/

/-- The sum over the upper part of a range whose archive bytes are given. -/
theorem sumOfRange_holds {s t : State} {bytes : List Byte} (h : Holds s t.bcu.base bytes) (hframe : DatapathOnly s t) :
    ∀ (n lo : Nat), lo + n = bytes.length → sumOfRange t lo n = xorFold (bytes.drop lo)
  | 0, lo, hlo => by rw [List.drop_of_length_le (by omega)]; rfl
  | n + 1, lo, hlo => by
    have hlt : lo < bytes.length := by omega
    rw [sumOfRange, ← Int.natCast_add, readArchive_value hframe.amem hframe.archLen, readArchive_holds h hlt,
      sumOfRange_holds h hframe n (lo + 1) (by omega), List.drop_eq_getElem_cons hlt, xorFold]

theorem cursorAfter_len (n : Nat) (s : State) : (cursorAfter n s).len = s.bcu.len := by
  unfold cursorAfter
  split_ifs <;> rfl

/-- The empty buffer has an empty payload: the units are constructed with the underrun of R130, and no token runs. -/
theorem decodeAll_encoded_nil (base : Nat) (s : State) :
    (decodeAll (encodedUnits base [] s)).diag = s.diag ||| DiagFlag.bitUnderrun.mask ∧
      (decodeAll (encodedUnits base [] s)).bcu.pos = -1 := by
  have hempty : (encodePayload []).length = 0 := rfl
  rw [decodeAll_done (decodeDone_of_full rfl), encodedUnits, constructUnits, hempty, bcConstruct_empty]
  exact ⟨rfl, rfl⟩

/-- Every byte of the payload is pulled, so BC_SUM is their XOR (R135). -/
theorem encoded_checksum {s : State} {base : Nat} {buffer : List Byte} (h : Holds s base (encodePayload buffer)) :
    (decodeAll (encodedUnits base buffer s)).bcu.sum = encodeChecksum buffer := by
  have hsum : SumOk (decodeAll (encodedUnits base buffer s)) :=
    tduLoop_induct (fun _ ht => ht.decodeOneToken) _ (SumOk.constructUnits ..)
  have hframe : DatapathOnly s (decodeAll (encodedUnits base buffer s)) :=
    (constructUnits_datapathOnly ..).trans (decodeAll_datapathOnly _)
  obtain ⟨hbase, hlen⟩ := encodedUnits_range base buffer s
  have hbcu : (decodeAll (encodedUnits base buffer s)).bcu =
      cursorAfter (encodeBits buffer).length (encodedUnits base buffer s) := by
    rw [(literalsCopied_encoded h).state]
    rfl
  have hpos : (decodeAll (encodedUnits base buffer s)).bcu.pos.toNat = 0 := by
    by_cases hne : buffer = []
    · obtain ⟨-, hexhausted⟩ := decodeAll_encoded_nil base s
      rw [hne, hexhausted]
      rfl
    · obtain ⟨-, hpulled, -⟩ := encoded_consumed h hne
      rw [hpulled]
      rfl
  have hholds : Holds s (decodeAll (encodedUnits base buffer s)).bcu.base (encodePayload buffer) := by
    rwa [hbcu, cursorAfter_base, hbase]
  have hlen' : (decodeAll (encodedUnits base buffer s)).bcu.len = (encodePayload buffer).length := by
    rw [hbcu, cursorAfter_len, hlen]
  rw [checksumLaw_iff.mp hsum.law, hpos, hlen', Nat.sub_zero,
    sumOfRange_holds hholds hframe _ 0 (Nat.zero_add _), List.drop_zero]
  rfl

/-! ## The round trip of one segment -/

theorem streamWellFormed_iff {o c d b : Nat} {s : State} :
    streamWellFormed o c d b s = true ↔
      (decodeAll (constructUnits o c d b { s with diag := 0 })).oau.wpos = 0 ∧
        (decodeAll (constructUnits o c d b { s with diag := 0 })).diag &&& malformedBits = 0 ∧
        (decodeAll (constructUnits o c d b { s with diag := 0 })).bcu.pos = 0 := by
  simp only [streamWellFormed, Bool.and_eq_true, beq_iff_eq, and_assoc]

/-- Settles O60: the diagnostics of R181 are not raised because none is. -/
theorem decodedTokensAreTheEmittedOnes : Obligations.DecodedTokensAreTheEmittedOnes := by
  intro s base buffer h
  refine ⟨(emittedTokens_decoded h).1, fun hne => ?_⟩
  have hclear : Holds { s with diag := 0 } base (encodePayload buffer) := h
  obtain ⟨hfull, -⟩ := outputBytes_encoded hclear
  obtain ⟨hdiag, hpos, -⟩ := encoded_consumed hclear hne
  refine streamWellFormed_iff.mpr ⟨hfull, ?_, hpos⟩
  rw [← encodedUnits, hdiag]
  exact BitVec.zero_and

/-- Settles O40. -/
theorem encodeDecodeRoundTrip : Obligations.EncodeDecodeRoundTrip := by
  intro s buffer hf hbad h hsize hlen hsum hcount
  have hunits : constructUnits s.arg0.toNat s.arg1.toNat s.arg2.toNat s.arg4.toNat s =
      encodedUnits s.arg0.toNat buffer s := by
    rw [hsize, hlen, hcount]
    rfl
  obtain ⟨hfull, hbytes⟩ := outputBytes_encoded h
  have hmet := encoded_checksum h
  refine ⟨_, exec_segdec_accepted hf hbad, ?_⟩
  rw [segdecEffect_eq, hunits, hsum]
  refine ⟨hbytes, beq_iff_eq.mpr hmet, hmet, fun hne => ?_, fun hnil => ?_⟩
  · obtain ⟨hdiag, hpos, hrem⟩ := encoded_consumed h hne
    refine ⟨?_, hpos, hfull, hrem⟩
    simp [hmet, hdiag, flagIf]
  · subst hnil
    have hdiag := (decodeAll_encoded_nil s.arg0.toNat s).1
    simp [hmet, hdiag, flagIf]

/-! ## Segments in the archive (R266, R267) -/

theorem stored_append {s : State} {base : Nat} {xs ys : List Byte} :
    Stored s base (xs ++ ys) ↔ Stored s base xs ∧ Stored s (base + xs.length) ys := by
  constructor
  · intro h
    refine ⟨fun k hk => ?_, fun k hk => ?_⟩
    · rw [h k (by rw [List.length_append]; omega), List.getElem_append_left hk]
    · rw [Nat.add_assoc, h (xs.length + k) (by rw [List.length_append]; omega),
        List.getElem_append_right (Nat.le_add_right ..)]
      simp only [Nat.add_sub_cancel_left]
  · rintro ⟨hx, hy⟩ k hk
    rw [List.length_append] at hk
    by_cases hlow : k < xs.length
    · rw [List.getElem_append_left hlow, hx k hlow]
    · rw [List.getElem_append_right (Nat.le_of_not_lt hlow), ← hy (k - xs.length) (by omega)]
      congr 1
      omega

/-- The two bytes of a 16-bit field read back as the field (R115). -/
theorem be16_be16Bytes (v : Nat) : be16 (BitVec.ofNat 8 (v / 256)) (BitVec.ofNat 8 v) = BitVec.ofNat 16 v := by
  have h := be16_toNat (BitVec.ofNat 8 (v / 256)) (BitVec.ofNat 8 v)
  refine BitVec.eq_of_toNat_eq ?_
  rw [h, BitVec.toNat_ofNat, BitVec.toNat_ofNat, BitVec.toNat_ofNat]
  omega

theorem be16_half (v : Half) : be16 (BitVec.ofNat 8 (v.toNat / 256)) (BitVec.ofNat 8 v.toNat) = v := by
  rw [be16_be16Bytes, BitVec.ofNat_toNat, BitVec.setWidth_eq]

theorem segmentHeader_length (buffer : List Byte) (u v : Half) : (segmentHeader buffer u v).length = 10 := rfl

/-- The header fields of an encoded buffer (R266), as a read of its ten bytes gives them. -/
def encodedHeader (buffer : List Byte) (unknown1 unknown0 : Half) : Header :=
  { initialBufferLen := BitVec.ofNat 8 encodeInitialBufferLen
    checksum := encodeChecksum buffer
    unknown1 := unknown1
    decompressedSize := BitVec.ofNat 16 buffer.length
    unknown0 := unknown0
    totalSegmentSize := BitVec.ofNat 16 ((encodePayload buffer).length + 10) }

theorem headerAt_stored {s : State} {h : Nat} {buffer : List Byte} {unknown1 unknown0 : Half}
    (hs : Stored s h (segmentHeader buffer unknown1 unknown0)) :
    headerAt s h = encodedHeader buffer unknown1 unknown0 := by
  have hbyte : ∀ k (hk : k < 10), s.amem.get (h + k) = (segmentHeader buffer unknown1 unknown0)[k]'hk := hs
  have hfirst : s.amem.get h = BitVec.ofNat 8 encodeInitialBufferLen := hbyte 0 (by decide)
  rw [headerAt, hfirst, hbyte 1 (by decide), hbyte 2 (by decide), hbyte 3 (by decide), hbyte 4 (by decide),
    hbyte 5 (by decide), hbyte 6 (by decide), hbyte 7 (by decide), hbyte 8 (by decide), hbyte 9 (by decide),
    encodedHeader, Header.mk.injEq]
  exact ⟨rfl, rfl, be16_half _, be16_be16Bytes _, be16_half _, be16_be16Bytes _⟩

/-! ## The table of a container -/

/-- `d` describes the segment `g`: the encoder's header fields, no cache yet, and the payload in the archive. -/
structure Describes (s : State) (d : Descriptor) (g : List Byte × Half × Half) : Prop where
  payload : Holds s d.offset (encodePayload g.1)
  compressedSize : d.compressedSize.toNat = (encodePayload g.1).length
  decompressedSize : d.decompressedSize.toNat = g.1.length
  initialBufferLen : d.initialBufferLen.toNat = encodeInitialBufferLen
  unknown1 : d.unknown1 = g.2.1
  unknown0 : d.unknown0 = g.2.2
  cache : d.cache = none

/-- Describing a segment is about the archive only. -/
theorem Describes.withArg0 {s : State} {d : Descriptor} {g : List Byte × Half × Half} (h : Describes s d g) (v : Word) :
    Describes { s with arg0 := v } d g :=
  { h with payload := h.payload }

theorem encodedHeader_size {buffer : List Byte} (h : encodable buffer = true) (unknown1 unknown0 : Half) :
    (encodedHeader buffer unknown1 unknown0).totalSegmentSize.toNat = (encodePayload buffer).length + 10 := by
  obtain ⟨-, hsize⟩ := encodable_iff.mp h
  rw [encodedHeader, BitVec.toNat_ofNat]
  omega

/-- The descriptor of an encoded segment's header describes it (R204, R266). -/
theorem describes_descriptorOf {s : State} {h : Nat} {g : List Byte × Half × Half} (henc : encodable g.1 = true)
    (hs : Holds s h (segmentBytes g.1 g.2.1 g.2.2)) (i : Nat) :
    Describes s (descriptorOf i h (encodedHeader g.1 g.2.1 g.2.2)) g := by
  obtain ⟨hin, hstored⟩ := hs
  obtain ⟨hlen, hsize⟩ := encodable_iff.mp henc
  rw [segmentBytes, List.length_append, segmentHeader_length] at hin
  obtain ⟨-, hpayload⟩ := stored_append.mp hstored
  refine ⟨⟨?_, hpayload⟩, ?_, ?_, rfl, rfl, rfl, rfl⟩
  · change h + 10 + (encodePayload g.1).length ≤ s.archLen
    omega
  · rw [descriptorOf, encodedHeader_size henc, Config.hdrLen, BitVec.toNat_ofNat]; omega
  · rw [descriptorOf, encodedHeader, BitVec.toNat_ofNat]; omega

/-- What ends the scan holds no valid header (R267). -/
theorem trailing_no_header {s : State} {h : Nat} {trailing : List Byte} (hend : endsScan trailing = true)
    (hs : Stored s h trailing) (hin : 10 ≤ trailing.length) : (headerAt s h).totalSegmentSize.toNat < 10 := by
  rw [endsScan, Bool.or_eq_true, decide_eq_true_eq, decide_eq_true_eq] at hend
  have hsize := hend.resolve_left (Nat.not_lt.mpr hin)
  rw [List.getD_eq_getElem _ _ (by omega), List.getD_eq_getElem _ _ (by omega), ← hs 8 (by omega),
    ← hs 9 (by omega)] at hsize
  exact hsize

/-- A table read off a container that fills the archive from `h` on describes its segments, one by one (R204, R205,
R267). -/
theorem tableMatches_container {s : State} {trailing : List Byte} (hend : endsScan trailing = true)
    (hstop : s.scanPos + 10 ≤ s.archLen → (headerAt s s.scanPos).totalSegmentSize.toNat < 10) :
    ∀ (segs : List (List Byte × Half × Half)) {ds : List Descriptor} {i h : Nat},
      (∀ g ∈ segs, encodable g.1 = true) → Stored s h (containerBytes segs trailing) →
      h + (containerBytes segs trailing).length = s.archLen → tableMatches s i h ds → List.Forall₂ (Describes s) ds segs
  | [], [], _, _, _, _, _, _ => .nil
  | [], d :: ds, i, h, _, hs, hlen, ⟨hin, hsize, _, _⟩ => by
    have hempty : containerBytes [] trailing = trailing := rfl
    rw [hempty] at hs hlen
    have hnone := trailing_no_header hend hs (by omega)
    omega
  | g :: segs, ds, i, h, henc, hs, hlen, htable => by
    have hg := henc g List.mem_cons_self
    have hcons : containerBytes (g :: segs) trailing =
        segmentBytes g.1 g.2.1 g.2.2 ++ containerBytes segs trailing := by
      rw [containerBytes, List.flatMap_cons, List.append_assoc]
      rfl
    rw [hcons] at hs hlen
    rw [List.length_append] at hlen
    obtain ⟨hseg, hrest⟩ := stored_append.mp hs
    have hheader := headerAt_stored (stored_append.mp hseg).1
    have hsize := encodedHeader_size hg g.2.1 g.2.2
    have hsegLen : (segmentBytes g.1 g.2.1 g.2.2).length = (encodePayload g.1).length + 10 := by
      rw [segmentBytes, List.length_append, segmentHeader_length, Nat.add_comm]
    cases ds with
    | nil =>
      obtain rfl : h = s.scanPos := htable
      have hbad := hstop (by omega)
      rw [hheader, hsize] at hbad
      omega
    | cons d ds =>
      obtain ⟨-, -, rfl, htable⟩ := htable
      rw [hheader] at htable ⊢
      rw [hsize, ← hsegLen] at htable
      exact .cons (describes_descriptorOf hg ⟨by omega, hseg⟩ i)
        (tableMatches_container hend hstop segs (fun g' hg' => henc g' (List.mem_cons_of_mem g hg')) hrest
          (by omega) htable)

/-- GETSEG of an entry that describes an encoded buffer delivers the buffer (R208, R233). -/
theorem exec_getseg_described {s : State} {d : Descriptor} {g : List Byte × Half × Half} (hf : s.fault = false)
    (hd : s.dtab[s.arg0.toNat]? = some d) (h : Describes s d g) :
    ∃ u, exec .getseg s = .next u ∧ u.rbuf = g.1 ∧ u.latch.unk1 = g.2.1 ∧ u.latch.unk0 = g.2.2 := by
  refine ⟨_, exec_getseg_decoded hf hd h.cache, ?_, h.unknown1, h.unknown0⟩
  have hunits : constructUnits d.offset d.compressedSize.toNat d.decompressedSize.toNat d.initialBufferLen.toNat s =
      encodedUnits d.offset g.1 s := by
    rw [h.compressedSize, h.decompressedSize, h.initialBufferLen, encodedUnits]
  obtain ⟨-, hbytes⟩ := outputBytes_encoded h.payload
  rw [decodeDescriptor, segDecode_eq_verify, verifyChecksum_eq, hunits]
  exact hbytes

/-- Settles O41: the table that SCAN builds describes the segments. -/
theorem containerRoundTrip : Obligations.ContainerRoundTrip := by
  intro s segs trailing hf henc hend hlen haw hs
  obtain ⟨t, ht, hframe, htable, hcount, hstop⟩ := (scanBuildsTable s hf).1 haw
  have harch : t.archLen = s.arg0.toNat := by rw [hframe]
  have hamem : t.amem = s.amem := by rw [hframe]
  have hfault : t.fault = false := by rw [hframe]; exact hf
  have hres : t.res0 = BitVec.ofNat 32 t.dtab.length := by rw [hframe]
  have hstored : Stored t 0 (containerBytes segs trailing) := by rwa [Stored, hamem]
  have hdescribes := tableMatches_container hend (by rwa [harch]) segs henc hstored (by omega) htable
  have hsame := hdescribes.length_eq
  have hword := s.arg0.isLt
  refine ⟨t, ht, hsame, ?_, fun i hi => ?_⟩
  · rw [hres, BitVec.toNat_ofNat]
    omega
  · have hindex : (BitVec.ofNat 32 i).toNat = i := by rw [BitVec.toNat_ofNat]; omega
    have hentry : t.dtab[(BitVec.ofNat 32 i).toNat]? = some t.dtab[i] := by
      rw [hindex, List.getElem?_eq_getElem]
    have hdesc : Describes t t.dtab[i] segs[i] := hdescribes.get (hsame ▸ hi) hi
    exact exec_getseg_described (s := { t with arg0 := BitVec.ofNat 32 i }) hfault hentry (hdesc.withArg0 _)

end Sys2Proof.Machine

/-! PROOFS. The statements of 60_exceptions.md. What an instruction and a step can do to STATUS.FAULT is said once
(`exec_fault_cases`, `step_fault_cases`); that DIAG steers nothing is a relation between two runs (`DiagApart`), kept by
every operation in the order of the model. -/

namespace Sys2Proof.Machine

/-! ## STATUS.FAULT (R295, R296) -/

/-- The fault of an instruction that raises one (R292 to R294), as `exec_fault_cases` says. The tokens, and the commands
without an argument check, raise none, so their value here is never used. -/
def commandFault : Instr → FaultKind
  | .unassigned _ => .badCommand
  | .bcRead => .bitcountRange
  | .oaRef => .bitcountRange
  | _ => .ctorArg

theorem loadLatch_fault (i : Nat) (s : State) : (loadLatch i s).fault = s.fault := by
  unfold loadLatch; split <;> rfl

theorem getSegment_fault (i : Nat) (s : State) : (getSegment i s).2.fault = s.fault := by
  rcases getSegment_cases i s with ⟨-, he⟩ | ⟨_, _, -, -, he⟩ | ⟨d, -, -, he⟩ <;> rw [he]
  · rfl
  · have hdec := decodeDescriptor_fault d s
    dsimp only
    split
    · exact hdec
    · exact hdec

theorem scanEffect_fault (s : State) : (scanEffect s).fault = s.fault :=
  scanLoop_induct (P := fun t => t.fault = s.fault) (fun _ h _ _ => h) (fun _ h => h)
    (s.arg0.toNat / Config.hdrLen) (s := { s with archLen := s.arg0.toNat, scanPos := 0, dtab := [] }) rfl

theorem segdecEffect_fault (s : State) : (segdecEffect s).fault = s.fault := by
  unfold segdecEffect; dsimp only; rw [segDecode_frame]

theorem bcReadEffect_fault (s : State) : (bcReadEffect s).fault = s.fault :=
  (bcRead_cursorOnly _ s).datapath.fault

theorem execToken_fault {s t : State} (tok : Token) (ht : exec tok.toInstr s = .next t) : t.fault = s.fault :=
  exec_token_next ht ▸ (runToken_datapathOnly tok s).fault

/-- A gated command whose effect keeps STATUS.FAULT keeps it. -/
theorem gated_fault {s t : State} {effect : State → State} (ht : unlessFault s effect = .next t)
    (h : (effect s).fault = s.fault) : t.fault = s.fault :=
  unlessFault_induct (P := fun t => t.fault = s.fault) ht rfl h

/-- A gated command with an argument check faults and does nothing else, or keeps STATUS.FAULT as its effect does. -/
theorem checked_fault {s t : State} {bad : State → Bool} {k : FaultKind} {effect : State → State → State}
    (ht : unlessFault s (fun s => unlessBadArg (bad s) k s (effect s)) = .next t)
    (h : (effect s s).fault = s.fault) : t.fault = s.fault ∨ t = raiseFault k s :=
  unlessFault_induct (P := fun t => t.fault = s.fault ∨ t = raiseFault k s) ht (.inl rfl)
    (unlessBadArg_induct (P := fun t => t.fault = s.fault ∨ t = raiseFault k s) (.inr rfl) fun _ => .inl h)

/-- What an instruction can do to STATUS.FAULT: keep it; raise its fault and do nothing else; reset the machine. -/
theorem exec_fault_cases {s t : State} {i : Instr} (ht : exec i s = .next t) :
    (t.fault = s.fault ∨ t = raiseFault (commandFault i) s) ∨ (i = .sreset ∧ t = resetMachine s) := by
  cases i with
  | sreset => exact .inr ⟨rfl, (Host.Outcome.next.inj ht).symm⟩
  | sraw l => exact .inl (.inl (execToken_fault (.sraw l) ht))
  | sref o => exact .inl (.inl (execToken_fault (.sref o) ht))
  | refa o => exact .inl (.inl (execToken_fault (.refa o) ht))
  | refb o => exact .inl (.inl (execToken_fault (.refb o) ht))
  | refc l o => exact .inl (.inl (execToken_fault (.refc l o) ht))
  | lraw l => exact .inl (.inl (execToken_fault (.lraw l) ht))
  | scan => rw [exec_scan] at ht; exact .inl (checked_fault ht (scanEffect_fault s))
  | count => rw [exec_count] at ht; exact .inl (.inl (gated_fault ht rfl))
  | getseg =>
    rw [exec_getseg] at ht
    exact .inl (.inl (gated_fault ht ((loadLatch_fault _ _).trans (getSegment_fault _ s))))
  | getdesc =>
    rw [exec_getdesc] at ht
    exact .inl (.inl (gated_fault ht ((loadLatch_fault _ _).trans (by split <;> rfl))))
  | segdec => rw [exec_segdec] at ht; exact .inl (checked_fault ht (segdecEffect_fault s))
  | bcInit =>
    rw [exec_bcInit] at ht
    exact .inl (checked_fault ht (bcConstruct_cursorOnly _ _ _ s).datapath.fault)
  | bcRead => rw [exec_bcRead] at ht; exact .inl (checked_fault ht (bcReadEffect_fault s))
  | bcEof => rw [exec_bcEof] at ht; exact .inl (.inl (gated_fault ht rfl))
  | oaInit => rw [exec_oaInit] at ht; exact .inl (checked_fault ht rfl)
  | oaRaw => rw [exec_oaRaw] at ht; exact .inl (.inl (gated_fault ht (copyRaw_datapathOnly _ s).fault))
  | oaRef =>
    rw [exec_oaRef] at ht
    exact .inl (checked_fault ht (copyBackReference_datapathOnly _ _ s).fault)
  | oaEof => rw [exec_oaEof] at ht; exact .inl (.inl (gated_fault ht rfl))
  | clrdiag => rw [exec_clrdiag] at ht; exact .inl (.inl (gated_fault ht rfl))
  | unassigned code =>
    rw [exec_unassigned] at ht
    exact .inl (unlessFault_induct (P := fun t => t.fault = s.fault ∨ t = raiseFault .badCommand s) ht (.inl rfl)
      (.inr rfl))

theorem portWrite_fault (reg : Nat) (v : Word) (s : State) : (portWrite reg v s).fault = s.fault := by
  rcases portWrite_cases reg v s with he | he | he | he | he | he <;> rw [he]

/-- What a step can do to STATUS.FAULT: keep it; raise, at a write to CMD, that command's fault and do nothing else; be
a reset. -/
theorem step_fault_cases {s t : State} (ht : step s = .next t) :
    t.fault = s.fault ∨
    (∃ v rest, s.fetchFrom = .hostPort ∧ s.host = .write 0 v :: rest ∧
      t = raiseFault (commandFault (fetchCommand v)) { s with host := rest }) ∨
    (nextReset s ∧ t = resetMachine { s with host := s.host.tail }) := by
  rcases step_cases ht with ⟨-, -, rfl⟩ | ⟨a, rest, hf, hh, ha⟩ | ⟨-, -, rfl⟩ | ⟨-, -, rfl⟩
  · exact .inl rfl
  · cases a with
    | write reg v =>
      by_cases hreg : reg = 0
      · subst hreg
        simp only [hostStep, if_true] at ha
        rcases exec_fault_cases ha with (hkept | hfault) | ⟨hreset, rfl⟩
        · exact .inl hkept
        · exact .inr (.inl ⟨v, rest, hf, hh, hfault⟩)
        · exact .inr (.inr ⟨.inl ⟨v, rest, hf, hh, code_of_fetchCommand hreset rfl⟩, by rw [hh]; rfl⟩)
      · simp only [hostStep, hreg, if_false] at ha
        exact .inl (Host.Outcome.next.inj ha ▸ portWrite_fault reg v _)
    | read reg => exact .inl (Host.Outcome.next.inj ha ▸ rfl)
    | load addr v =>
      obtain ⟨-, rfl⟩ := hostLoad_next ha
      exact .inl rfl
    | hardReset =>
      obtain rfl := Host.Outcome.next.inj ha
      exact .inr (.inr ⟨.inr ⟨rest, hf, hh⟩, by rw [hh]; rfl⟩)
  · exact .inl rfl
  · exact .inl (decodeOneToken_datapathOnly s).fault

/-- Settles O50: of the three things a step can do to STATUS.FAULT, only a command's fault sets it. -/
theorem faultEntryIsPrecise : Obligations.FaultEntryIsPrecise := by
  intro s t ht hs hfault
  rcases step_fault_cases ht with hkept | ⟨v, rest, hf, hh, rfl⟩ | ⟨-, rfl⟩
  · rw [hfault, hs] at hkept
    cases hkept
  · refine ⟨v, rest, hf, hh, rfl, ?_⟩
    change (commandFault (decodeCommand (v.setWidth 8))).code = _
    cases decodeCommand (v.setWidth 8) <;> rfl
  · cases hfault

/-- Settles O52: of the three things a step can do to STATUS.FAULT, only a reset clears it. -/
theorem onlyResetLeavesFault : Obligations.OnlyResetLeavesFault := by
  intro s t ht hs hclear
  rcases step_fault_cases ht with hkept | ⟨v, rest, -, -, rfl⟩ | hreset
  · rw [hclear, hs] at hkept
    cases hkept
  · cases hclear
  · exact hreset

/-! ## Two states that differ only in DIAG (R290)

The relation is kept by every operation: none reads DIAG, and all but CLRDIAG and the resets only raise bits in it.
`Alike` above relates two states over different archives, but says nothing about the fields outside the datapath and
needs `s.bcu.rem ≤ 8`; here every field but DIAG is the same, and the state is any. -/

/-- `s'` is `s` but for DIAG, and both have gained the same bits since DIAG was `d` in the one and `d'` in the other. -/
def DiagApart (d d' : BitVec 16) (s s' : State) : Prop :=
  ∃ raised, s.diag = d ||| raised ∧ s' = { s with diag := d' ||| raised }

theorem DiagApart.start (s : State) (d : BitVec 16) : DiagApart s.diag d s { s with diag := d } :=
  ⟨0#16, BitVec.or_zero.symm, by rw [BitVec.or_zero]⟩

section
variable {d d' : BitVec 16} {s s' : State}

/-- What does not read DIAG is the same in both. -/
theorem DiagApart.same {α : Type} (h : DiagApart d d' s s') (g : State → α)
    (hg : ∀ e, g { s with diag := e } = g s) : g s' = g s := by
  obtain ⟨_, -, rfl⟩ := h
  exact hg _

/-- A change to both that neither reads nor writes DIAG. -/
theorem DiagApart.map (h : DiagApart d d' s s') (f : State → State)
    (hf : ∀ e, f { s with diag := e } = { f s with diag := e }) : DiagApart d d' (f s) (f s') := by
  obtain ⟨raised, hr, rfl⟩ := h
  have hkept : (f s).diag = s.diag := (congrArg State.diag (hf s.diag) :)
  exact ⟨raised, hkept.trans hr, hf _⟩

/-- The same bits of DIAG raised in both. -/
theorem DiagApart.or (h : DiagApart d d' s s') (m : BitVec 16) :
    DiagApart d d' { s with diag := s.diag ||| m } { s' with diag := s'.diag ||| m } := by
  obtain ⟨raised, hr, rfl⟩ := h
  exact ⟨raised ||| m, by rw [hr, BitVec.or_assoc], by rw [BitVec.or_assoc]⟩

theorem DiagApart.raise (h : DiagApart d d' s s') (f : DiagFlag) : DiagApart d d' (diag f s) (diag f s') := h.or f.mask

/-- The same cursor set and the same bits of DIAG raised in both: what the bit cursor does. -/
theorem DiagApart.setBcuOr (h : DiagApart d d' s s') {b b' : Bcu} {m m' : BitVec 16} (hb : b' = b) (hm : m' = m) :
    DiagApart d d' { s with bcu := b, diag := s.diag ||| m } { s' with bcu := b', diag := s'.diag ||| m' } := by
  subst hb hm
  exact (h.map (fun t => { t with bcu := b' }) fun _ => rfl).or m'

theorem DiagApart.bcu (h : DiagApart d d' s s') : s'.bcu = s.bcu := h.same State.bcu fun _ => rfl
theorem DiagApart.oau (h : DiagApart d d' s s') : s'.oau = s.oau := h.same State.oau fun _ => rfl
theorem DiagApart.amem (h : DiagApart d d' s s') : s'.amem = s.amem := h.same State.amem fun _ => rfl
theorem DiagApart.archLen (h : DiagApart d d' s s') : s'.archLen = s.archLen := h.same State.archLen fun _ => rfl
theorem DiagApart.scanPos (h : DiagApart d d' s s') : s'.scanPos = s.scanPos := h.same State.scanPos fun _ => rfl
theorem DiagApart.dtab (h : DiagApart d d' s s') : s'.dtab = s.dtab := h.same State.dtab fun _ => rfl
theorem DiagApart.cfg (h : DiagApart d d' s s') : s'.cfg = s.cfg := h.same State.cfg fun _ => rfl
theorem DiagApart.arg0 (h : DiagApart d d' s s') : s'.arg0 = s.arg0 := h.same State.arg0 fun _ => rfl
theorem DiagApart.arg1 (h : DiagApart d d' s s') : s'.arg1 = s.arg1 := h.same State.arg1 fun _ => rfl
theorem DiagApart.arg2 (h : DiagApart d d' s s') : s'.arg2 = s.arg2 := h.same State.arg2 fun _ => rfl
theorem DiagApart.arg3 (h : DiagApart d d' s s') : s'.arg3 = s.arg3 := h.same State.arg3 fun _ => rfl
theorem DiagApart.arg4 (h : DiagApart d d' s s') : s'.arg4 = s.arg4 := h.same State.arg4 fun _ => rfl

/-! ### The bit cursor -/

theorem DiagApart.sameStream (h : DiagApart d d' s s') : SameStream s s' := .of_archive h.bcu h.amem h.archLen

theorem DiagApart.bcConstruct (h : DiagApart d d' s s') (start len count : Nat) :
    DiagApart d d' (bcConstruct start len count s) (bcConstruct start len count s') := by
  rcases Nat.eq_zero_or_pos len with rfl | hlen
  · rw [bcConstruct_empty, bcConstruct_empty, ite_or_mask, ite_or_mask, BitVec.or_assoc, BitVec.or_assoc]
    exact h.setBcuOr rfl rfl
  · rw [bcConstruct_primed hlen, bcConstruct_primed hlen, BitVec.or_assoc, BitVec.or_assoc]
    exact h.setBcuOr (by rw [readArchive_value h.amem h.archLen]) (by rw [h.archLen])

theorem DiagApart.afterBits (h : DiagApart d d' s s') (n : Nat) : DiagApart d d' (afterBits n s) (afterBits n s') :=
  h.setBcuOr (h.sameStream.cursorAfter n) (h.sameStream.readDiag n)

end

/-- The bit that a bit read gives: of the buffer, of the byte pulled, or 0 (R132, R133). -/
theorem bcReadBit_fst (s : State) :
    (bcReadBit s).1 =
      if s.bcu.rem ≠ 0 then s.bcu.buf.getLsbD 0
      else if 0 < s.bcu.pos then (readArchive (s.bcu.base + (s.bcu.pos - 1)) s).1.getLsbD 0 else false := by
  rcases bcReadBit_cases s with ⟨hr, he⟩ | ⟨hr, hp, s1, hs1, he⟩ | ⟨hr, hp, he⟩
  · rw [he, if_pos hr]
    rfl
  · obtain rfl := Option.some.inj ((bcPull_some hp).symm.trans hs1)
    rw [he, if_neg (not_not.mpr hr), if_pos hp]
    rfl
  · rw [he, if_neg (not_not.mpr hr), if_neg (not_lt.mpr hp)]

/-- Two states that a reader answers alike, and that stay so, are answered alike by the selector tree of R103. -/
theorem decodeTokenWith_related {σ : Type} {rd : Nat → σ → Nat × σ} {R : σ → σ → Prop}
    (hrd : ∀ n {a b}, R a b → (rd n b).1 = (rd n a).1 ∧ R (rd n a).2 (rd n b).2) {a b : σ} (h : R a b) :
    (decodeTokenWith rd b).1 = (decodeTokenWith rd a).1 ∧ R (decodeTokenWith rd a).2 (decodeTokenWith rd b).2 := by
  have hsplit : ∀ n {a b}, R a b → ∃ v a' b', rd n a = (v, a') ∧ rd n b = (v, b') ∧ R a' b' := fun n a b h =>
    ⟨(rd n a).1, (rd n a).2, (rd n b).2, rfl, Prod.ext (hrd n h).1 rfl, (hrd n h).2⟩
  have hfield : ∀ (f : Nat → Token) n {a b}, R a b → f (rd n b).1 = f (rd n a).1 ∧ R (rd n a).2 (rd n b).2 :=
    fun f n _ _ h => (hrd n h).imp_left (congrArg f)
  unfold decodeTokenWith
  obtain ⟨v1, a1, b1, ea1, eb1, h1⟩ := hsplit 1 h
  rw [ea1, eb1]
  rcases v1 with _ | v1
  · obtain ⟨v2, a2, b2, ea2, eb2, h2⟩ := hsplit 1 h1
    simp only [ea2, eb2]
    rcases v2 with _ | v2
    · exact hfield (fun l => .sraw (BitVec.ofNat 3 l)) 3 h2
    · exact hfield (fun o => .sref (BitVec.ofNat 8 o)) 8 h2
  · obtain ⟨v2, a2, b2, ea2, eb2, h2⟩ := hsplit 2 h1
    simp only [ea2, eb2]
    rcases v2 with _ | _ | _ | v2
    · exact hfield (fun o => .refa (BitVec.ofNat 9 o)) 9 h2
    · exact hfield (fun o => .refb (BitVec.ofNat 10 o)) 10 h2
    · obtain ⟨l, a3, b3, ea3, eb3, h3⟩ := hsplit 8 h2
      simp only [ea3, eb3]
      exact hfield (fun o => .refc (BitVec.ofNat 8 l) (BitVec.ofNat 12 o)) 12 h3
    · exact hfield (fun l => .lraw (BitVec.ofNat 8 l)) 8 h2

section
variable {d d' : BitVec 16}

theorem DiagApart.bcReadBit {s s' : State} (h : DiagApart d d' s s') :
    (bcReadBit s').1 = (bcReadBit s).1 ∧ DiagApart d d' (bcReadBit s).2 (bcReadBit s').2 := by
  refine ⟨?_, ?_⟩
  · rw [bcReadBit_fst, bcReadBit_fst, h.bcu, readArchive_value h.amem h.archLen]
  · have hbit := h.afterBits 1
    rwa [← bcRead_state, ← bcRead_state, bcRead_one, bcRead_one] at hbit

theorem DiagApart.bcRead : ∀ (n : Nat) {s s' : State}, DiagApart d d' s s' →
    (bcRead n s').1 = (bcRead n s).1 ∧ DiagApart d d' (bcRead n s).2 (bcRead n s').2
  | 0, _, _, h => ⟨rfl, h⟩
  | n + 1, _, _, h => by
    obtain ⟨hbit, h1⟩ := h.bcReadBit
    obtain ⟨hrest, h2⟩ := DiagApart.bcRead n h1
    rw [bcRead_succ, bcRead_succ, hbit, hrest]
    exact ⟨rfl, h2⟩

variable {s s' : State}

theorem DiagApart.fetchToken (h : DiagApart d d' s s') :
    (fetchToken s').1 = (fetchToken s).1 ∧ DiagApart d d' (fetchToken s).2 (fetchToken s').2 :=
  decodeTokenWith_related (fun n _ _ => DiagApart.bcRead n) h

/-! ### The output assembler and the tokens -/

theorem DiagApart.oaConstruct (h : DiagApart d d' s s') (n : Nat) :
    DiagApart d d' (oaConstruct n s) (oaConstruct n s') := h.map _ fun _ => rfl

theorem DiagApart.oaRetreat (h : DiagApart d d' s s') : DiagApart d d' (oaRetreat s) (oaRetreat s') :=
  h.map _ fun _ => rfl

theorem DiagApart.writeOutput (h : DiagApart d d' s s') (i : Nat) (v : Byte) :
    DiagApart d d' (writeOutput i v s) (writeOutput i v s') := h.map _ fun _ => rfl

theorem DiagApart.rawByte (h : DiagApart d d' s s') : DiagApart d d' (rawByte s) (rawByte s') := by
  obtain ⟨hvalue, hread⟩ := h.oaRetreat.bcRead 8
  rw [rawByte_eq, rawByte_eq, hvalue, hread.oau]
  exact hread.writeOutput _ _

theorem DiagApart.refByte (h : DiagApart d d' s s') (offset : Nat) :
    DiagApart d d' (refByte offset s) (refByte offset s') := by
  rw [refByte_eq, refByte_eq, readOutput, readOutput, h.oau]
  split
  · exact h.oaRetreat.writeOutput _ _
  · exact (h.oaRetreat.raise _).writeOutput _ _

theorem DiagApart.rawBytes : ∀ (n : Nat) {s s' : State}, DiagApart d d' s s' →
    DiagApart d d' (rawBytes n s) (rawBytes n s')
  | 0, _, _, h => h
  | n + 1, _, _, h => DiagApart.rawBytes n h.rawByte

theorem DiagApart.refBytes (offset : Nat) : ∀ (n : Nat) {s s' : State}, DiagApart d d' s s' →
    DiagApart d d' (refBytes offset n s) (refBytes offset n s')
  | 0, _, _, h => h
  | n + 1, _, _, h => DiagApart.refBytes offset n (h.refByte offset)

theorem DiagApart.copyRaw (h : DiagApart d d' s s') (n : Nat) : DiagApart d d' (copyRaw n s) (copyRaw n s') := by
  rw [Machine.copyRaw, Machine.copyRaw, h.oau]
  split
  · exact DiagApart.rawBytes _ (h.raise _)
  · exact DiagApart.rawBytes _ h

theorem DiagApart.copyRef (h : DiagApart d d' s s') (n offset : Nat) :
    DiagApart d d' (copyRef n offset s) (copyRef n offset s') := by
  rw [Machine.copyRef, Machine.copyRef, h.oau]
  split
  · exact DiagApart.refBytes offset _ (h.raise _)
  · exact DiagApart.refBytes offset _ h

theorem DiagApart.copyBackReference (h : DiagApart d d' s s') (n w : Nat) :
    DiagApart d d' (copyBackReference n w s) (copyBackReference n w s') := by
  obtain ⟨hvalue, hread⟩ := h.bcRead w
  rw [copyBackReference_eq, copyBackReference_eq, hvalue]
  exact hread.copyRef _ _

theorem DiagApart.runToken (h : DiagApart d d' s s') (t : Token) : DiagApart d d' (runToken t s) (runToken t s') := by
  cases t with
  | sraw l => exact h.copyRaw _
  | sref o => exact h.copyRef _ _
  | refa o => exact h.copyRef _ _
  | refb o => exact h.copyRef _ _
  | refc l o => exact h.copyRef _ _
  | lraw l => exact h.copyRaw _

/-! ### The decode -/

theorem DiagApart.decodeOneToken (h : DiagApart d d' s s') :
    DiagApart d d' (decodeOneToken s) (decodeOneToken s') := by
  obtain ⟨htoken, hfetch⟩ := h.fetchToken
  rw [decodeOneToken_eq, decodeOneToken_eq, htoken]
  exact hfetch.runToken _

theorem DiagApart.decodeDone (h : DiagApart d d' s s') : decodeDone s' = decodeDone s :=
  h.same Machine.decodeDone fun _ => rfl

theorem DiagApart.tduLoop : ∀ (n : Nat) {s s' : State}, DiagApart d d' s s' →
    DiagApart d d' (tduLoop n s) (tduLoop n s')
  | 0, _, _, h => h
  | n + 1, s, _, h => by
    cases hd : Machine.decodeDone s with
    | true => rwa [tduLoop_done hd, tduLoop_done (h.decodeDone.trans hd)]
    | false =>
      rw [tduLoop_succ hd, tduLoop_succ (h.decodeDone.trans hd)]
      exact DiagApart.tduLoop n h.decodeOneToken

theorem DiagApart.verifyChecksum (h : DiagApart d d' s s') (x : Byte) :
    DiagApart d d' (verifyChecksum x s) (verifyChecksum x s') := by
  have hsum : s'.bcu.sum = s.bcu.sum := h.same (·.bcu.sum) fun _ => rfl
  rw [verifyChecksum_eq, verifyChecksum_eq, hsum]
  exact (h.map (fun t => { t with csumOk := s.bcu.sum == x }) fun _ => rfl).or _

theorem DiagApart.segDecode (h : DiagApart d d' s s') (o c n : Nat) (x : Byte) (b : Nat) :
    DiagApart d d' (segDecode o c n x b s) (segDecode o c n x b s') := by
  rw [segDecode_eq, segDecode_eq]
  exact (DiagApart.tduLoop n ((h.bcConstruct o c b).oaConstruct n)).verifyChecksum x

theorem DiagApart.outputBytes (h : DiagApart d d' s s') : outputBytes s' = outputBytes s :=
  h.same Machine.outputBytes fun _ => rfl

/-! ### The container -/

theorem DiagApart.scanLoop : ∀ (n : Nat) {s s' : State}, DiagApart d d' s s' →
    DiagApart d d' (scanLoop n s) (scanLoop n s')
  | 0, _, _, h => h
  | n + 1, s, s', h => by
    have hheader : headerAt s' s'.scanPos = headerAt s s.scanPos := h.same (fun s => headerAt s s.scanPos) fun _ => rfl
    by_cases hshort : s.archLen < s.scanPos + 10
    · rwa [scanLoop_short hshort, scanLoop_short (by rwa [h.archLen, h.scanPos])]
    have hin : s.scanPos + 10 ≤ s.archLen := Nat.le_of_not_lt hshort
    have hin' : s'.scanPos + 10 ≤ s'.archLen := by rwa [h.archLen, h.scanPos]
    cases hv : headerValid s.scanPos (headerAt s s.scanPos) with
    | true =>
      rw [scanLoop_accept hin (by rwa [readHeader_inside hin]),
        scanLoop_accept hin' (by rwa [readHeader_inside hin', hheader, h.scanPos]), readHeader_inside hin,
        readHeader_inside hin', hheader]
      exact DiagApart.scanLoop n (h.map (acceptHeader (headerAt s s.scanPos)) fun _ => rfl)
    | false =>
      rw [scanLoop_reject hin (by rwa [readHeader_inside hin]),
        scanLoop_reject hin' (by rwa [readHeader_inside hin', hheader, h.scanPos]), readHeader_inside hin,
        readHeader_inside hin']
      exact h.raise _

theorem DiagApart.scanEffect (h : DiagApart d d' s s') : DiagApart d d' (scanEffect s) (scanEffect s') := by
  have hstart : DiagApart d d' { s with archLen := s.arg0.toNat, scanPos := 0, dtab := [] }
      { s' with archLen := s'.arg0.toNat, scanPos := 0, dtab := [] } :=
    h.map (fun s => { s with archLen := s.arg0.toNat, scanPos := 0, dtab := [] }) fun _ => rfl
  rw [Machine.scanEffect, Machine.scanEffect, scanArchive, scanArchive, h.arg0]
  rw [h.arg0] at hstart
  exact (DiagApart.scanLoop (s.arg0.toNat / Config.hdrLen) hstart).map
    (fun t => setRes0 t.segCount { t with scanned := true, latch := DescLatch.clear, rbuf := [] }) fun _ => rfl

theorem DiagApart.decodeDescriptor (h : DiagApart d d' s s') (e : Descriptor) :
    DiagApart d d' (decodeDescriptor e s) (decodeDescriptor e s') := h.segDecode ..

theorem DiagApart.loadLatch (h : DiagApart d d' s s') (i : Nat) :
    DiagApart d d' (loadLatch i s) (loadLatch i s') :=
  h.map _ fun _ => by unfold Machine.loadLatch; dsimp only; split <;> rfl

theorem DiagApart.getSegment (h : DiagApart d d' s s') (i : Nat) :
    (getSegment i s').1 = (getSegment i s).1 ∧ DiagApart d d' (getSegment i s).2 (getSegment i s').2 := by
  cases hd : s.dtab[i]? with
  | none =>
    rw [getSegment_of_none hd, getSegment_of_none (h.dtab ▸ hd)]
    exact ⟨rfl, h.raise _⟩
  | some e =>
    have hd' : s'.dtab[i]? = some e := h.dtab ▸ hd
    have hmemo : memoHit s' e = memoHit s e := h.same (memoHit · e) fun _ => rfl
    cases hhit : memoHit s e with
    | some data =>
      rw [getSegment_of_hit hd hhit, getSegment_of_hit hd' (hmemo.trans hhit)]
      exact ⟨rfl, h⟩
    | none =>
      have hdec := h.decodeDescriptor e
      rw [getSegment_of_miss hd hhit, getSegment_of_miss hd' (hmemo.trans hhit), hdec.outputBytes, h.cfg]
      refine ⟨rfl, ?_⟩
      dsimp only
      split
      · exact hdec.map (cacheResult i _) fun _ => rfl
      · exact hdec

/-! ### The commands -/

theorem DiagApart.segdecEffect (h : DiagApart d d' s s') : DiagApart d d' (segdecEffect s) (segdecEffect s') := by
  have hdec := h.segDecode s.arg0.toNat s.arg1.toNat s.arg2.toNat (s.arg3.setWidth 8) s.arg4.toNat
  rw [Machine.segdecEffect, Machine.segdecEffect, h.arg0, h.arg1, h.arg2, h.arg3, h.arg4]
  exact hdec.map (fun t => { t with rbuf := Machine.outputBytes t, res0 := s.arg2 }) fun _ => rfl

theorem DiagApart.bcReadEffect (h : DiagApart d d' s s') : DiagApart d d' (bcReadEffect s) (bcReadEffect s') := by
  obtain ⟨hvalue, hread⟩ := h.bcRead s.arg0.toNat
  rw [Machine.bcReadEffect, Machine.bcReadEffect, h.arg0, hvalue]
  exact hread.map (setRes0 _) fun _ => rfl

/-- Both answer a next state, and these differ as `DiagApart` says. -/
def NextApart (d d' : BitVec 16) (o o' : Result) : Prop :=
  ∃ t t', o = .next t ∧ o' = .next t' ∧ DiagApart d d' t t'

/-- A gated command, as its effect (R246). -/
theorem DiagApart.gated (h : DiagApart d d' s s') {effect : State → State}
    (he : DiagApart d d' (effect s) (effect s')) : NextApart d d' (unlessFault s effect) (unlessFault s' effect) := by
  refine ⟨_, _, rfl, rfl, ?_⟩
  rw [h.same State.fault fun _ => rfl]
  split
  · exact h
  · exact he

/-- A gated command with an argument check, which does not read DIAG either (R297). -/
theorem DiagApart.checked (h : DiagApart d d' s s') {bad : State → Bool} {k : FaultKind}
    {effect : State → State → State} (hbad : ∀ e, bad { s with diag := e } = bad s)
    (he : DiagApart d d' (effect s s) (effect s' s')) :
    NextApart d d' (unlessFault s fun s => unlessBadArg (bad s) k s (effect s))
      (unlessFault s' fun s => unlessBadArg (bad s) k s (effect s)) := by
  refine h.gated ?_
  rw [h.same bad hbad, unlessBadArg, unlessBadArg]
  split
  · exact h.map (raiseFault k) fun _ => rfl
  · exact he

theorem DiagApart.execToken (h : DiagApart d d' s s') (tok : Token) :
    NextApart d d' (exec tok.toInstr s) (exec tok.toInstr s') :=
  ⟨_, _, exec_token tok s, exec_token tok s', h.runToken tok⟩

/-- No instruction reads DIAG, and all but SRESET and CLRDIAG only raise bits in it. -/
theorem DiagApart.exec (h : DiagApart d d' s s') {i : Instr} (hreset : i ≠ .sreset) (hclear : i ≠ .clrdiag) :
    NextApart d d' (exec i s) (exec i s') := by
  cases i with
  | sreset => exact absurd rfl hreset
  | clrdiag => exact absurd rfl hclear
  | sraw l => exact h.execToken (.sraw l)
  | sref o => exact h.execToken (.sref o)
  | refa o => exact h.execToken (.refa o)
  | refb o => exact h.execToken (.refb o)
  | refc l o => exact h.execToken (.refc l o)
  | lraw l => exact h.execToken (.lraw l)
  | scan => rw [exec_scan, exec_scan]; exact h.checked (fun _ => rfl) h.scanEffect
  | count => rw [exec_count, exec_count]; exact h.gated (h.map (fun s => setRes0 s.segCount s) fun _ => rfl)
  | getseg =>
    obtain ⟨hdata, hseg⟩ := h.getSegment s.arg0.toNat
    rw [exec_getseg, exec_getseg]
    refine h.gated ?_
    rw [h.arg0, hdata]
    exact (hseg.map (deliver _) fun _ => rfl).loadLatch _
  | getdesc =>
    rw [exec_getdesc, exec_getdesc]
    refine h.gated ?_
    rw [h.arg0, h.same State.segCount fun _ => rfl]
    split
    · exact h.loadLatch _
    · exact (h.raise _).loadLatch _
  | segdec => rw [exec_segdec, exec_segdec]; exact h.checked (fun _ => rfl) h.segdecEffect
  | bcInit =>
    rw [exec_bcInit, exec_bcInit]
    refine h.checked (fun _ => rfl) ?_
    rw [h.arg0, h.arg1, h.arg2]
    exact h.bcConstruct ..
  | bcRead => rw [exec_bcRead, exec_bcRead]; exact h.checked (fun _ => rfl) h.bcReadEffect
  | bcEof => rw [exec_bcEof, exec_bcEof]; exact h.gated (h.map (fun s => setRes0 (bcEof s).toNat s) fun _ => rfl)
  | oaInit =>
    rw [exec_oaInit, exec_oaInit]
    refine h.checked (fun _ => rfl) ?_
    rw [h.arg0]
    exact h.oaConstruct _
  | oaRaw =>
    rw [exec_oaRaw, exec_oaRaw]
    refine h.gated ?_
    rw [h.arg0]
    exact h.copyRaw _
  | oaRef =>
    rw [exec_oaRef, exec_oaRef]
    refine h.checked (fun _ => rfl) ?_
    rw [h.arg0, h.arg1]
    exact h.copyBackReference ..
  | oaEof => rw [exec_oaEof, exec_oaEof]; exact h.gated (h.map (fun s => setRes0 (oaEof s).toNat s) fun _ => rfl)
  | unassigned code =>
    rw [exec_unassigned, exec_unassigned]
    exact h.gated (h.map (raiseFault .badCommand) fun _ => rfl)

/-! ### The steps -/

theorem DiagApart.portWrite (h : DiagApart d d' s s') (reg : Nat) (v : Word) :
    DiagApart d d' (portWrite reg v s) (portWrite reg v s') :=
  h.map _ fun _ => by unfold Machine.portWrite; split <;> rfl

end

/-- The step from `s` to `t` against the same step with DIAG `d`: both raise the same bits and end alike otherwise, or
they are CLRDIAG or a reset, and both end in `t` with DIAG 0. -/
def DiagStep (s t : State) (d : BitVec 16) : Prop :=
  NextApart s.diag d (step s) (step { s with diag := d }) ∨
    ((nextCommand s 0x30 ∨ nextReset s) ∧ t.diag = 0 ∧ step { s with diag := d } = .next t)

section
variable {s t : State} {a : HostAction} {v : Word} {rest : List HostAction}

/-- The two states that the host's next action runs in. -/
theorem diagApart_host (s : State) (rest : List HostAction) (d : BitVec 16) :
    DiagApart s.diag d { s with host := rest } { s with diag := d, host := rest } :=
  (DiagApart.start s d).map (fun t => { t with host := rest }) fun _ => rfl

theorem diagStep_of_action {d : BitVec 16} (hf : s.fetchFrom = .hostPort) (hh : s.host = a :: rest)
    (h : NextApart s.diag d (hostStep a { s with host := rest }) (hostStep a { s with diag := d, host := rest })) :
    DiagStep s t d := by
  refine .inl ?_
  rw [step_of_action hf hh, step_of_action (s := { s with diag := d }) hf hh]
  exact h

/-- A write to CMD: SRESET and an accepted CLRDIAG clear DIAG, any other command raises bits in it at most. -/
theorem diagStep_of_command (hf : s.fetchFrom = .hostPort) (hh : s.host = .write 0 v :: rest)
    (ht : exec (fetchCommand v) { s with host := rest } = .next t) (d : BitVec 16) : DiagStep s t d := by
  have hrest := diagApart_host s rest d
  have hstep : step { s with diag := d } = exec (fetchCommand v) { s with diag := d, host := rest } :=
    step_of_action (s := { s with diag := d }) hf hh
  by_cases hreset : fetchCommand v = .sreset
  · rw [hreset, exec_sreset] at ht hstep
    obtain rfl := Host.Outcome.next.inj ht
    exact .inr ⟨.inr (.inl ⟨v, rest, hf, hh, code_of_fetchCommand hreset rfl⟩), rfl, hstep⟩
  by_cases hclear : fetchCommand v = .clrdiag
  · cases hfault : s.fault with
    | true =>
      have hignored : ∀ u : State, u.fault = true → exec .clrdiag u = .next u := fun u hu =>
        faultIgnoresCommands u .clrdiag 0x30 hu rfl (by decide)
      refine diagStep_of_action hf hh ?_
      simp only [hostStep, if_true, hclear]
      exact ⟨_, _, hignored _ hfault, hignored _ hfault, hrest⟩
    | false =>
      rw [hclear, clrdiagEffect _ (by exact hfault)] at ht hstep
      obtain rfl := Host.Outcome.next.inj ht
      exact .inr ⟨.inl ⟨v, rest, hf, hh, code_of_fetchCommand hclear rfl⟩, rfl, hstep⟩
  · exact diagStep_of_action hf hh (hrest.exec hreset hclear)

theorem diagStep_of_step (ht : step s = .next t) (d : BitVec 16) : DiagStep s t d := by
  have hstart := DiagApart.start s d
  rcases step_cases ht with ⟨hf, hh, rfl⟩ | ⟨a, rest, hf, hh, ha⟩ | ⟨hf, hd, rfl⟩ | ⟨hf, hd, rfl⟩
  · exact .inl ⟨_, _, ht, step_of_idle (s := { t with diag := d }) hf hh, hstart⟩
  · have hrest := diagApart_host s rest d
    cases a with
    | write reg v =>
      by_cases hreg : reg = 0
      · subst hreg
        exact diagStep_of_command hf hh (by simpa only [hostStep, if_true] using ha) d
      · refine diagStep_of_action hf hh ?_
        simp only [hostStep, hreg, if_false]
        exact ⟨_, _, rfl, rfl, hrest.portWrite reg v⟩
    | read reg => exact diagStep_of_action hf hh ⟨_, _, rfl, rfl, hrest⟩
    | load addr v =>
      obtain ⟨haddr, -⟩ := hostLoad_next ha
      exact diagStep_of_action hf hh ⟨_, _, hostLoad_inside haddr v,
        hostLoad_inside (s := { s with diag := d, host := rest }) haddr v,
        hrest.map (fun t => { t with amem := t.amem.set addr v }) fun _ => rfl⟩
    | hardReset =>
      obtain rfl := Host.Outcome.next.inj ha
      exact .inr ⟨.inr (.inr ⟨rest, hf, hh⟩), rfl, step_of_action (s := { s with diag := d }) hf hh⟩
  · refine .inl ⟨_, _, ht, ?_, hstart.map (fun t => { t with fetchFrom := .hostPort }) fun _ => rfl⟩
    exact (step_of_stream (s := { s with diag := d }) hf).trans (if_pos (hstart.decodeDone.trans hd))
  · refine .inl ⟨_, _, ht, ?_, hstart.decodeOneToken⟩
    exact (step_of_stream (s := { s with diag := d }) hf).trans
      (if_neg (Bool.not_eq_true _ ▸ hstart.decodeDone.trans hd))

end

/-- Settles O55: the two states begin apart in DIAG alone, and the step keeps them so or clears DIAG in both. -/
theorem diagnosticsNeverSteer : Obligations.DiagnosticsNeverSteer := by
  intro s t d ht
  rcases diagStep_of_step ht d with ⟨u, u', hu, hu', raised, hdiag, rfl⟩ | ⟨hclears, hzero, hstep⟩
  · obtain rfl := Host.Outcome.next.inj (ht.symm.trans hu)
    exact .inl ⟨raised, hdiag, hu'⟩
  · refine .inr ⟨hclears, hzero, ?_⟩
    rw [hstep, ← hzero]

end Sys2Proof.Machine

/-! PROOFS. The statement of 70_reset_and_hazards.md about the commands straight after reset (R322). Each unit's operation
in the one case that the reset state leaves it: the cursor exhausted, the output buffer full, the archive too short. A
command is then that case behind its gate and its argument check. -/

namespace Sys2Proof.Machine

/-! ## The units with nothing to work on -/

/-- A read of an exhausted cursor (R133): bits 0, and one underrun for all of them. -/
theorem bcRead_exhausted {n : Nat} {s : State} (hn : 1 ≤ n) (hr : s.bcu.rem = 0) (hp : s.bcu.pos ≤ 0) :
    bcRead n s = (0, bcUnderrun s) := by
  induction n, hn using Nat.le_induction generalizing s with
  | base =>
    rw [bcRead_one, bcReadBit_exhausted hr hp]
    rfl
  | succ n _ ih =>
    have hrest : bcRead n (bcUnderrun s) = (0, bcUnderrun s) := by
      rw [ih (s := bcUnderrun s) hr (by simp), bcUnderrun_idempotent]
    rw [bcRead_succ, bcReadBit_exhausted hr hp, hrest, Bool.toNat_false, Nat.zero_mul]
    rfl

/-- BC.INIT over an empty range with a legal bit count (R130, D10). -/
theorem bcConstruct_nothing {count : Nat} (hcount : 1 ≤ count ∧ count ≤ 8) (start : Nat) (s : State) :
    bcConstruct start 0 count s =
      diag .bitUnderrun { s with bcu := { base := start, len := 0, pos := -1, buf := 0, rem := 0, sum := 0 } } := by
  rw [bcConstruct_empty, if_neg (by omega)]
  rfl

/-- BC.INIT over a range whose last byte lies beyond the archive (R61, R130): primed with a byte 0. -/
theorem bcConstruct_beyond {start len count : Nat} {s : State} (hlen : 1 ≤ len) (hcount : 1 ≤ count ∧ count ≤ 8)
    (hout : s.archLen < start + len) :
    bcConstruct start len count s =
      diag .oorRead
        { s with bcu := { base := start, len := len, pos := (len : Int) - 1, buf := 0, rem := count, sum := 0 } } := by
  have hread : ∀ t : State, t.archLen = s.archLen →
      readArchive ((start : Int) + ((len : Int) - 1)) t = (0, diag .oorRead t) :=
    fun t ht => readArchive_outside (by omega)
  rw [bcConstruct_prime (by omega), if_neg (by omega), hread s rfl, Nat.min_eq_left hcount.2]
  rfl

/-- COPYRAW into a full buffer is clamped to nothing (R151, R156). -/
theorem copyRaw_full {n : Nat} {s : State} (hn : 1 ≤ n) (hw : s.oau.wpos = 0) : copyRaw n s = diag .rawClamp s := by
  rw [copyRaw_eq, hw, Nat.min_zero, if_pos (by omega), rawBytes]

/-- COPYREF into a full buffer is clamped to nothing (R152, R156). -/
theorem copyRef_full {n : Nat} {s : State} (hn : 1 ≤ n) (hw : s.oau.wpos = 0) (offset : Nat) :
    copyRef n offset s = diag .refClamp s := by
  rw [copyRef_eq, hw, Nat.min_zero, if_pos (by omega), refBytes]

/-- A scan of an archive too short for a header ends before its first one (R201). -/
theorem scanArchive_short {n : Nat} (hn : n < 10) (s : State) :
    scanArchive n s = { s with archLen := n, scanPos := 0, dtab := [], scanned := true } := by
  rw [scanArchive, scanLoop_short (by simpa using hn)]

/-! ## Accepted commands -/

/-- An accepted BC_READ of an exhausted cursor (R237). -/
theorem exec_bcRead_exhausted {s : State} (hf : s.fault = false) (h1 : 1 ≤ s.arg0.toNat) (h32 : s.arg0.toNat ≤ 32)
    (hr : s.bcu.rem = 0) (hp : s.bcu.pos ≤ 0) :
    exec .bcRead s = .next (setRes0 0 (bcUnderrun s)) := by
  rw [exec_bcRead, unlessFault_run hf, unlessBadArg_good (badBitCount_eq_false.mpr ⟨h1, h32⟩), bcReadEffect,
    bcRead_exhausted h1 hr hp]

/-- An OA_RAW into a full buffer (R240). -/
theorem exec_oaRaw_full {s : State} (hf : s.fault = false) (hn : 1 ≤ s.arg0.toNat) (hw : s.oau.wpos = 0) :
    exec .oaRaw s = .next (diag .rawClamp s) := by
  rw [exec_oaRaw, unlessFault_run hf, copyRaw_full hn hw]

/-- An accepted OA_REF whose offset is read from an exhausted cursor, into a full buffer (R241). -/
theorem exec_oaRef_exhausted_full {s : State} (hf : s.fault = false) (hn : 1 ≤ s.arg0.toNat) (h1 : 1 ≤ s.arg1.toNat)
    (h32 : s.arg1.toNat ≤ 32) (hr : s.bcu.rem = 0) (hp : s.bcu.pos ≤ 0) (hw : s.oau.wpos = 0) :
    exec .oaRef s = .next (diag .refClamp (bcUnderrun s)) := by
  rw [exec_oaRef, unlessFault_run hf, unlessBadArg_good (badBitCount_eq_false.mpr ⟨h1, h32⟩), copyBackReference_eq,
    bcRead_exhausted h1 hr hp]
  exact congrArg _ (copyRef_full (s := bcUnderrun s) hn hw _)

/-- A SCAN of an archive too short for a header (R231). -/
theorem exec_scan_short {s : State} (hf : s.fault = false) (hn : s.arg0.toNat < 10)
    (haw : s.arg0.toNat < 2 ^ s.cfg.aw) :
    exec .scan s =
      .next { s with
        archLen := s.arg0.toNat, scanPos := 0, dtab := [], scanned := true
        res0 := 0, latch := DescLatch.clear, rbuf := [] } := by
  rw [exec_scan, unlessFault_run hf, unlessBadArg_good (badLength_eq_false.mpr haw), scanEffect, scanArchive_short hn]
  rfl

/-- An accepted OA_INIT (R239). -/
theorem exec_oaInit_accepted {s : State} (hf : s.fault = false) (hn : s.arg0.toNat ≤ s.cfg.omax) :
    exec .oaInit s = .next (oaConstruct s.arg0.toNat s) := by
  rw [exec_oaInit, unlessFault_run hf, unlessBadArg_good (badOutputLength_eq_false.mpr hn)]

/-! ## The reset state (R321, R322) -/

/-- Raising a flag where none is set (R39, R46). -/
theorem diag_of_clear {s : State} (h : s.diag = 0) (f : DiagFlag) : diag f s = { s with diag := f.mask } := by
  have hor : s.diag ||| f.mask = f.mask := h ▸ BitVec.zero_or
  rw [diag, hor]

/-- A command that does no more to `t`, where no flag is set, than raise one. -/
theorem next_diag_of_clear {i : Instr} {f : DiagFlag} {s : State} (t : State) (h : t.diag = 0)
    (hexec : exec i s = .next (diag f t)) : exec i s = .next { t with diag := f.mask } :=
  hexec.trans (congrArg _ (diag_of_clear h f))

/-- Every word is a legal start offset for the default address width (R6, R236). -/
theorem word_lt_offsetBound (n : Word) : n.toNat < 2 ^ (Config.default.aw + 1) :=
  n.isLt.trans (by decide)

/-- Settles O13: each command in the case that the reset values put it in; the one decode is run. -/
theorem commandsStraightAfterReset : Obligations.CommandsStraightAfterReset := by
  have hpos : (-1 : Int) ≤ 0 := by decide
  have hcount : 1 ≤ 8 ∧ 8 ≤ 8 := by decide
  obtain ⟨hbcEof, hoaEof, -, -⟩ := eofCommandsEffect State.reset rfl
  refine ⟨countEffect State.reset rfl, fun n => ?getseg, fun n => ?getdesc, fun n h1 h32 => ?bcRead, hbcEof, hoaEof,
    fun n hn => ?oaRaw, fun n w hn h1 h32 => ?oaRef, ?segdec, fun n hn => ?scan, fun n => ?bcInitEmpty,
    fun n k hk => ?bcInitPrimed, fun n hn => ?oaInit, clrdiagEffect State.reset rfl, sresetEffect State.reset,
    fun code => ?unassigned⟩
  case getseg =>
    exact next_diag_of_clear { State.reset with arg0 := n } rfl
      ((getsegEffect { State.reset with arg0 := n } rfl).1 (Nat.zero_le _))
  case getdesc =>
    exact next_diag_of_clear { State.reset with arg0 := n } rfl
      ((getdescEffect { State.reset with arg0 := n } rfl).2 (Nat.zero_le _))
  case bcRead =>
    exact next_diag_of_clear { State.reset with arg0 := n } rfl (exec_bcRead_exhausted rfl h1 h32 rfl hpos)
  case oaRaw => exact next_diag_of_clear { State.reset with arg0 := n } rfl (exec_oaRaw_full rfl hn rfl)
  case oaRef =>
    have hunderrun := diag_of_clear (s := { State.reset with arg0 := n, arg1 := w }) rfl .bitUnderrun
    exact (exec_oaRef_exhausted_full rfl hn h1 h32 rfl hpos rfl).trans
      (congrArg (fun t => Host.Outcome.next (diag .refClamp t)) hunderrun)
  case segdec => exact ⟨_, exec_segdec_accepted rfl (by decide), by decide, by decide⟩
  case scan => exact exec_scan_short (s := { State.reset with arg0 := n }) rfl hn n.isLt
  case bcInitEmpty =>
    refine next_diag_of_clear
      { State.reset with arg0 := n, arg2 := 8, bcu := { State.reset.bcu with base := n.toNat } } rfl ?_
    exact (exec_bcInit_accepted rfl (word_lt_offsetBound n) (Nat.two_pow_pos _)).trans
      (congrArg _ (bcConstruct_nothing hcount n.toNat _))
  case bcInitPrimed =>
    refine next_diag_of_clear
      { State.reset with
        arg0 := n, arg1 := k, arg2 := 8
        bcu := { base := n.toNat, len := k.toNat, pos := (k.toNat : Int) - 1, buf := 0, rem := 8, sum := 0 } } rfl ?_
    exact (exec_bcInit_accepted rfl (word_lt_offsetBound n) k.isLt).trans
      (congrArg _ (bcConstruct_beyond hk hcount (Nat.add_pos_right _ hk)))
  case oaInit => exact exec_oaInit_accepted (s := { State.reset with arg0 := n }) rfl hn
  case unassigned =>
    rw [exec_unassigned, unlessFault_run rfl]
    rfl

end Sys2Proof.Machine
